-- ==== Sys2Proof/Word.lean ====
section
/-! DEFINITION. The word types of SFA-CORE (spec 00 R7) and the 16-byte block (spec 00 R12). -/

namespace Sys2Proof

/-- A byte is 8 bits (00 R7). -/
abbrev Byte := BitVec 8

/-- A word is 32 bits (00 R7): every register and every host transfer is one word. -/
abbrev Word := BitVec 32

/-- A byte offset into the block's 64 KiB register block (20 R75). -/
abbrev Offset := BitVec 16

/-- A 16-byte block or AES state (00 R12), held as its four columns. Column `c` is one word, its row 0 in
bits [31:24] and its row 3 in bits [7:0]: the packing of DIN and DOUT (10 R31, R32) and of a schedule word (10 R33). -/
structure Block where
  c0 : Word
  c1 : Word
  c2 : Word
  c3 : Word
  deriving DecidableEq, Repr

end Sys2Proof
end

