-- ==== Sys2Proof/Config.lean ====
section
/-! DEFINITION. What an implementation fixes (00 R6) and the free values that the spec leaves open. -/

namespace Sys2Proof

/-- The parameters left open (00 R6; 20 R75): a machine has one value of each, and no step changes it. -/
structure Params where
  /-- RSA_MAX_BITS (00 R6). -/
  rsaMaxBits : Nat
  /-- BUF_BYTES (00 R6). -/
  bufBytes   : Nat
  /-- BASE, the block's address in the host's address space (20 R75). -/
  base       : Nat
  deriving DecidableEq, Repr

/-- RSA_WORDS = RSA_MAX_BITS / 32 (00 R6). -/
def Params.rsaWords (p : Params) : Nat := p.rsaMaxBits / 32

namespace Config

/-- DESIGN CHOICE, unsafe for a statement about `State.reset` alone: the parameters of the machine that
`State.reset` shows, the largest the spec allows (log entry 1). Statements about every state hold for all. -/
def params : Params := { rsaMaxBits := 4096, bufBytes := 16384, base := 0 }

/-- The ID register's constant (10 R22). -/
def idValue : Word := 0x53464131#32

/-- SMALL_PRIMES, the trial-division set (00 R6, 43 R255). -/
def smallPrimes : List Nat :=
  [2, 3, 5, 7, 11, 13, 17, 19, 23, 29, 31, 37, 41, 43, 47, 53, 59, 61, 67, 71, 73, 79, 83, 89, 97]

/-- The reset value of MR_ROUNDS (10 R34, 00 R6). -/
def mrRoundsReset : Byte := 16#8

/-- KEYGEN_MIN_BITS (00 R6). -/
def keygenMinBits : Nat := 16

/-- E_DEFAULT (00 R6, 43 R259). -/
def eDefault : Nat := 65537

/-- E_SEARCH_START (00 R6, 43 R259). -/
def eSearchStart : Nat := 3

/-- FREE VALUE, safe: the draw the random source supplies under each number (00 R13; log entry 3). -/
opaque freeDraw : Nat → Nat

/-- FREE VALUE, safe: the word a host reads from the running command's write set (40 R138; log entry 5). -/
opaque freeRead : Nat → Word

/-- FREE VALUE, safe: what a buffer byte that nothing has written holds, by reset epoch and buffer offset
(70 R401; log entry 2). -/
opaque freeByte : Nat → Nat → Byte

end Config

end Sys2Proof
end

