-- ==== Sys2Proof/Syntax.lean ====
section
/-! DEFINITION. What the host can ask of the block: the 18 commands (30 R103), the registers of the offset map
(20 R76) and host transactions (30 R100). -/

namespace Sys2Proof

/-- The commands of the opcode map (30 R103), one constructor per row of spec/opcode_table.json. No command has
an operand field: each reads and writes fixed registers (30 R104). -/
inductive Instr where
  | nop
  | keyexp
  | encBlock
  | decBlock
  | pad
  | unpad
  | ecbEnc
  | ecbDec
  | encrypt
  | decrypt
  | primetest
  | genprime
  | modinv
  | keygen
  | modexpPub
  | modexpPriv
  | wrapkey
  | unwrapkey
  deriving DecidableEq, Repr

/-- What an accepted command word decodes to: a command, or BADCMD (30 R102, 40 R133). -/
inductive Command where
  | instr (i : Instr)
  | badCmd
  deriving DecidableEq, Repr

/-- The eight big-number registers (10 R36). -/
inductive BigReg where
  | n
  | e
  | d
  | p
  | q
  | phi
  | x
  | y
  deriving DecidableEq, Repr

/-- What stands at an aligned offset of the register block (20 R76). -/
inductive Loc where
  | id
  | cfg
  | ctrl
  | cmd
  | status
  | keyBytes
  | dataLen
  | nr
  | mrRounds
  | rsaBits
  | key (i : Fin 8)
  | din (i : Fin 4)
  | dout (i : Fin 4)
  | ks (i : Fin 60)
  | big (r : BigReg) (i : Fin 128)
  | buf (j : Fin 4096)
  | reserved
  deriving DecidableEq, Repr

/-- The direction of a host transaction, with the word a write carries (30 R100). -/
inductive Dir where
  | read
  | write (data : Word)
  deriving DecidableEq, Repr

/-- One host bus access (30 R100): its address in the host's address space (20 R75), its direction, and the byte
lanes it enables (20 R78). -/
structure Access where
  addr  : Nat
  dir   : Dir
  lanes : BitVec 4
  deriving DecidableEq, Repr

/-- Who acts next on the block: the engine (40 R132), the host with one access (20 R83), or the reset input RST
(70 R400). -/
inductive Turn where
  | engine
  | host (a : Access)
  | rst
  deriving DecidableEq, Repr

end Sys2Proof
end

