-- ==== Sys2Proof/WellFormed.lean ====
section
/-! DEFINITION. The checks on what the block is given: command words (30 R102), host accesses (20 R78) and the
parameters (00 R6). -/

namespace Sys2Proof

/-- Every command is well formed: a command has no operand field that could be out of range (30 R101, R104). -/
def Instr.wellFormed : Instr → Bool
  | .nop | .keyexp | .encBlock | .decBlock | .pad | .unpad | .ecbEnc | .ecbDec | .encrypt | .decrypt
  | .primetest | .genprime | .modinv | .keygen | .modexpPub | .modexpPriv | .wrapkey | .unwrapkey => true

/-- RSV, bits [31:8] of a command word, must be 0 (30 R101). -/
def rsvClear (w : Word) : Bool := w.extractLsb' 8 24 == 0#24

/-- OP, bits [7:0], must not be reserved: 0x0A to 0x0F and 0x18 to 0xFF are (30 R105). -/
def opAssigned (w : Word) : Bool :=
  let op := (w.extractLsb' 0 8).toNat
  op ≤ 0x09 || (0x10 ≤ op && op ≤ 0x17)

/-- A command word that decodes to a command (30 R102). -/
def commandWordWellFormed (w : Word) : Bool := rsvClear w && opAssigned w

/-- off[1:0] = 0 (20 R78). -/
def offsetAligned (off : Offset) : Bool := off.extractLsb' 0 2 == 0#2

/-- All four byte lanes enabled (20 R78). -/
def allLanes (lanes : BitVec 4) : Bool := lanes == 0xF#4

/-- The accesses the block serves; any other gets BERR (20 R78). -/
def accessWellFormed (off : Offset) (lanes : BitVec 4) : Bool := offsetAligned off && allLanes lanes

/-- The bounds of RSA_MAX_BITS: a multiple of 32 between 512 and 4096 (00 R6). -/
def Params.rsaMaxBitsValid (p : Params) : Bool :=
  p.rsaMaxBits % 32 == 0 && 512 ≤ p.rsaMaxBits && p.rsaMaxBits ≤ 4096

/-- The bounds of BUF_BYTES: a multiple of 16 between max(64, RSA_MAX_BITS/8) and 16384 (00 R6). -/
def Params.bufBytesValid (p : Params) : Bool :=
  p.bufBytes % 16 == 0 && max 64 (p.rsaMaxBits / 8) ≤ p.bufBytes && p.bufBytes ≤ 16384

/-- BASE is aligned to 64 KiB (20 R75). -/
def Params.baseValid (p : Params) : Bool := p.base % 0x10000 == 0

/-- The parameters an implementation may fix (00 R6, 20 R75). -/
def Params.valid (p : Params) : Bool := p.rsaMaxBitsValid && p.bufBytesValid && p.baseValid

end Sys2Proof
end

