-- ==== Sys2Proof/Decode.lean ====
section
/-! DEFINITION. Decoding: command words (30 R102, R103), offsets (20 R76) and host addresses (20 R75), with their
encoders. -/

namespace Sys2Proof

/-- Why a command word is BADCMD (30 R102, R105). -/
inductive DecodeError where
  /-- Bits [31:8] are not 0 (30 R101). -/
  | rsvNotZero
  /-- A reserved OP: 0x0A to 0x0F or 0x18 to 0xFF (30 R105). -/
  | reservedOpcode
  deriving DecidableEq, Repr

/-- The opcode map read from OP to command (30 R103). -/
def decodeOp (op : Byte) : Except DecodeError Instr :=
  match op.toNat with
  | 0x00 => .ok .nop
  | 0x01 => .ok .keyexp
  | 0x02 => .ok .encBlock
  | 0x03 => .ok .decBlock
  | 0x04 => .ok .pad
  | 0x05 => .ok .unpad
  | 0x06 => .ok .ecbEnc
  | 0x07 => .ok .ecbDec
  | 0x08 => .ok .encrypt
  | 0x09 => .ok .decrypt
  | 0x10 => .ok .primetest
  | 0x11 => .ok .genprime
  | 0x12 => .ok .modinv
  | 0x13 => .ok .keygen
  | 0x14 => .ok .modexpPub
  | 0x15 => .ok .modexpPriv
  | 0x16 => .ok .wrapkey
  | 0x17 => .ok .unwrapkey
  | _    => .error .reservedOpcode

/-- Decoding of a command word (30 R102): total, and BADCMD by name where no command stands. -/
def decode (w : Word) : Except DecodeError Instr :=
  if w.extractLsb' 8 24 = 0#24 then decodeOp (w.extractLsb' 0 8) else .error .rsvNotZero

/-- What an accepted word starts: a command or BADCMD (30 R102). -/
def decodeCommand (w : Word) : Command :=
  match decode w with
  | .ok i    => .instr i
  | .error _ => .badCmd

/-- OP of each command (30 R103). -/
def opcode : Instr → Byte
  | .nop        => 0x00#8
  | .keyexp     => 0x01#8
  | .encBlock   => 0x02#8
  | .decBlock   => 0x03#8
  | .pad        => 0x04#8
  | .unpad      => 0x05#8
  | .ecbEnc     => 0x06#8
  | .ecbDec     => 0x07#8
  | .encrypt    => 0x08#8
  | .decrypt    => 0x09#8
  | .primetest  => 0x10#8
  | .genprime   => 0x11#8
  | .modinv     => 0x12#8
  | .keygen     => 0x13#8
  | .modexpPub  => 0x14#8
  | .modexpPriv => 0x15#8
  | .wrapkey    => 0x16#8
  | .unwrapkey  => 0x17#8

/-- The command word of a command: OP in [7:0], RSV in [31:8] (30 R101). -/
def encode (i : Instr) : Word := 0#24 ++ opcode i

/-- The instruction the decoder reads from `nbits` bits numbered as spec/opcode_table.json numbers them: the
command word is one 32-bit word (30 R100), and bits the table does not give are 0. -/
def decodeTableWord (nbits w : Nat) : Option Instr :=
  match decode (BitVec.ofNat 32 (w % 2 ^ nbits)) with
  | .ok i    => some i
  | .error _ => none

/-- The place of a big-number register among the eight apertures (10 R36). -/
def bigRegIndex : BigReg → Nat
  | .n   => 0
  | .e   => 1
  | .d   => 2
  | .p   => 3
  | .q   => 4
  | .phi => 5
  | .x   => 6
  | .y   => 7

/-- The register of each aperture (10 R36). -/
def bigRegOfIndex : Nat → BigReg
  | 0 => .n
  | 1 => .e
  | 2 => .d
  | 3 => .p
  | 4 => .q
  | 5 => .phi
  | 6 => .x
  | _ => .y

/-- The control and status registers by word index (20 R76; 10 R22 to R29, R34, R35). -/
def controlLoc : Nat → Loc
  | 0 => .id
  | 1 => .cfg
  | 2 => .ctrl
  | 3 => .cmd
  | 4 => .status
  | 5 => .keyBytes
  | 6 => .dataLen
  | 7 => .nr
  | 8 => .mrRounds
  | 9 => .rsaBits
  | _ => .reserved

/-- What stands at an offset (20 R76). Offsets reach this with off[1:0] = 0 (20 R78). -/
def locate (off : Offset) : Loc :=
  let a := off.toNat
  if a < 0x0028 then controlLoc (a / 4)
  else if a < 0x0040 then .reserved
  else if a < 0x0060 then .key (Fin.ofNat 8 ((a - 0x0040) / 4))
  else if a < 0x0070 then .din (Fin.ofNat 4 ((a - 0x0060) / 4))
  else if a < 0x0080 then .dout (Fin.ofNat 4 ((a - 0x0070) / 4))
  else if a < 0x0100 then .reserved
  else if a < 0x01F0 then .ks (Fin.ofNat 60 ((a - 0x0100) / 4))
  else if a < 0x1000 then .reserved
  else if a < 0x2000 then .big (bigRegOfIndex ((a - 0x1000) / 0x200)) (Fin.ofNat 128 (a % 0x200 / 4))
  else if a < 0x4000 then .reserved
  else if a < 0x8000 then .buf (Fin.ofNat 4096 ((a - 0x4000) / 4))
  else .reserved

/-- The offset of each register and buffer word (10, the offset in every register rule; 20 R70, R76); none for a
reserved place, which has no name. -/
def offsetOf : Loc → Option Offset
  | .id       => some 0x000#16
  | .cfg      => some 0x004#16
  | .ctrl     => some 0x008#16
  | .cmd      => some 0x00C#16
  | .status   => some 0x010#16
  | .keyBytes => some 0x014#16
  | .dataLen  => some 0x018#16
  | .nr       => some 0x01C#16
  | .mrRounds => some 0x020#16
  | .rsaBits  => some 0x024#16
  | .key i    => some (BitVec.ofNat 16 (0x040 + 4 * i.val))
  | .din i    => some (BitVec.ofNat 16 (0x060 + 4 * i.val))
  | .dout i   => some (BitVec.ofNat 16 (0x070 + 4 * i.val))
  | .ks i     => some (BitVec.ofNat 16 (0x100 + 4 * i.val))
  | .big r i  => some (BitVec.ofNat 16 (0x1000 + 0x200 * bigRegIndex r + 4 * i.val))
  | .buf j    => some (BitVec.ofNat 16 (0x4000 + 4 * j.val))
  | .reserved => none

/-- off = addr − BASE where the address lies in the block's 64 KiB (20 R75). DESIGN CHOICE: an address outside it
does not reach the block (log entry 8). -/
def decodeAddr (p : Params) (addr : Nat) : Option Offset :=
  if p.base ≤ addr ∧ addr < p.base + 0x10000 then some (BitVec.ofNat 16 (addr - p.base)) else none

end Sys2Proof
end

