-- ==== Sys2Proof/Machine/Bytes.lean ====
section
/-! DEFINITION. Byte order and conversions: words and bytes (20 R73), blocks and bytes (00 R12), integers and byte
strings (00 R8, R9), integers and big-number words (10 R36). -/

namespace Sys2Proof.Machine

/-- The word of four bytes, the lowest-numbered in bits [31:24] (20 R73). -/
def packWord (b0 b1 b2 b3 : Byte) : Word := b0 ++ b1 ++ b2 ++ b3

/-- Byte `i` of a word, byte 0 in bits [31:24] (20 R73). -/
def wordByte (w : Word) (i : Nat) : Byte := w.extractLsb' (24 - 8 * i) 8

/-- The four bytes of a word, lowest-numbered first (20 R73). -/
def wordBytes (w : Word) : List Byte := [wordByte w 0, wordByte w 1, wordByte w 2, wordByte w 3]

/-- The word of bytes `4i` to `4i+3` of a byte string, 0 where the string ends before (20 R73). -/
def wordOfBytes (bs : List Byte) (i : Nat) : Word :=
  packWord (bs.getD (4 * i) 0#8) (bs.getD (4 * i + 1) 0#8) (bs.getD (4 * i + 2) 0#8) (bs.getD (4 * i + 3) 0#8)

/-- The block of a 16-byte string: input byte `i` is state byte `i` (20 R73). -/
def blockOfBytes (bs : List Byte) : Block :=
  ⟨wordOfBytes bs 0, wordOfBytes bs 1, wordOfBytes bs 2, wordOfBytes bs 3⟩

/-- The 16 bytes of a block: output byte `i` is state byte `i` (20 R73). -/
def blockBytes (b : Block) : List Byte := wordBytes b.c0 ++ wordBytes b.c1 ++ wordBytes b.c2 ++ wordBytes b.c3

/-- OS2IP: a byte string as a big-endian unsigned integer (00 R9). -/
def os2ip (bs : List Byte) : Nat := bs.foldl (fun acc b => acc * 256 + b.toNat) 0

/-- I2OSP: the `len`-byte big-endian string of `x` (00 R9). -/
def i2osp (x : Nat) : (len : Nat) → List Byte
  | 0       => []
  | len + 1 => i2osp (x / 256) len ++ [BitVec.ofNat 8 x]

/-- bitlen(x): the least k with x < 2^k (00 R8). -/
def bitlen (x : Nat) : Nat := if x = 0 then 0 else Nat.log2 x + 1

/-- MinBytes(x): the shortest big-endian string of `x` (00 R9). -/
def minBytes (x : Nat) : List Byte := i2osp x ((bitlen x + 7) / 8)

/-- Word `i` of a big-number register that holds `v`: bits [32i+31 : 32i] (10 R36). -/
def bigWord (v i : Nat) : Word := BitVec.ofNat 32 (v / 2 ^ (32 * i))

/-- `v` with word `i` replaced by `w` and every other word kept (10 R37). -/
def setBigWord (v i : Nat) (w : Word) : Nat :=
  v % 2 ^ (32 * i) + w.toNat * 2 ^ (32 * i) + v / 2 ^ (32 * i + 32) * 2 ^ (32 * i + 32)

end Sys2Proof.Machine
end

