-- ==== Sys2Proof/Machine/State.lean ====
section
/-! DEFINITION. The state of the block as plain data (10 R20), the reasons a step can stop, and reset (70 R402). -/

namespace Sys2Proof.Machine

/-- The error codes of STATUS.ERR (60 R350). Codes 8 to 15 are never produced (60 R351) and have no name. -/
inductive ErrCode where
  | ok
  | keylen
  | length
  | padding
  | noinv
  | range
  | badarg
  | badcmd
  deriving DecidableEq, Repr

/-- The engine's phase (10 R21): IDLE, or BUSY with the command being executed. -/
inductive Phase where
  | idle
  | busy (op : Command)
  deriving DecidableEq, Repr

/-- The eight big-number registers as unsigned integers (10 R36). -/
structure BigRegs where
  n   : Nat
  e   : Nat
  d   : Nat
  p   : Nat
  q   : Nat
  phi : Nat
  x   : Nat
  y   : Nat
  deriving DecidableEq, Repr

/-- The block's answer to one host access (20 R78): the bus error flag, and the word a read returns. -/
structure Response where
  berr : Bool
  data : Word
  deriving DecidableEq, Repr

/-- The data buffer (10 R38): (offset, byte) cells, offsets strictly rising, a cell for each byte that has been
written since reset and no other. -/
abbrev Memory := List Host.Cell

/-- What a buffer byte that is not listed holds: no value of its own. After reset it is unspecified (70 R401), and
reading it gives a free value (`Config.freeByte`, log entry 2). -/
def Memory.unlisted : Option Byte := none

/-- The state (10 R20). The last five fields are the model's own, not the spec's (INVENTORY.md, State). -/
structure State where
  /-- The implementation's parameters (00 R6); no step changes them. -/
  params   : Params
  /-- CTRL.IRQ_EN (10 R24). -/
  irqEn    : Bool
  /-- The engine's phase (10 R21); STATUS.BUSY shows it (10 R26). -/
  phase    : Phase
  /-- STATUS.DONE (10 R26). -/
  done     : Bool
  /-- STATUS.KS_VALID (10 R40). -/
  ksValid  : Bool
  /-- STATUS.RESULT (10 R26). -/
  result   : Bool
  /-- STATUS.WERR (10 R26). -/
  werr     : Bool
  /-- STATUS.ERR (10 R26, 60 R350). -/
  err      : ErrCode
  /-- STATUS.LAST_CMD (10 R26). -/
  lastCmd  : Byte
  /-- KEY_BYTES[7:0] (10 R27). -/
  keyBytes : Byte
  /-- DATA_LEN[15:0] (10 R28). -/
  dataLen  : BitVec 16
  /-- NR[7:0] of the stored schedule; it reads as 0 while KS_VALID = 0 (10 R29). -/
  nr       : Byte
  /-- MR_ROUNDS[7:0] (10 R34). -/
  mrRounds : Byte
  /-- RSA_BITS[15:0] (10 R35). -/
  rsaBits  : BitVec 16
  /-- KEY0 to KEY7 (10 R30). -/
  key      : Vector Word 8
  /-- DIN0 to DIN3 (10 R31). -/
  din      : Block
  /-- DOUT0 to DOUT3 (10 R32). -/
  dout     : Block
  /-- KS0 to KS59 (10 R33). -/
  ks       : Vector Word 60
  /-- N, E, D, P, Q, PHI, X and Y (10 R36). -/
  big      : BigRegs
  /-- The data buffer (10 R38). -/
  buf      : Memory
  /-- Draws the random source has supplied and no command has taken, oldest first (00 R13; log entry 3). -/
  draws    : List Nat
  /-- The number of the next free value (log entries 3 and 5). -/
  fresh    : Nat
  /-- How many times RST has been asserted; it names the free buffer contents (70 R401; log entry 2). -/
  epoch    : Nat
  /-- The turns still to come, next first; when none is left the engine has every turn (log entry 7). -/
  turns    : List Turn
  /-- The answer to the latest host access, if it reached the block (log entry 9). -/
  response : Option Response
  deriving DecidableEq, Repr

/-- Why the machine could stop with a fault: for no reason. Every error of this hardware is a completion that sets
STATUS.ERR and goes on (40 R135), and a bus error answers one access (20 R78). No step raises a fault. -/
inductive Fault where
  deriving DecidableEq, Repr

/-- Why an instruction could be refused. -/
inductive Refusal where
  /-- Raised by an arm of exec whose command has no meaning yet, under the command's mnemonic: safe. Every command
  has its meaning, so no arm raises it. -/
  | notModelled (mnemonic : String)
  deriving DecidableEq, Repr

/-- The state right after reset for a machine with parameters `p`, row by row as 70 R402 has it. The buffer is
unspecified (70 R401): nothing is listed. -/
def State.resetWith (p : Params) : State where
  params   := p
  irqEn    := false
  phase    := .idle
  done     := false
  ksValid  := false
  result   := false
  werr     := false
  err      := .ok
  lastCmd  := 0#8
  keyBytes := 0#8
  dataLen  := 0#16
  nr       := 0#8
  mrRounds := Config.mrRoundsReset
  rsaBits  := 0#16
  key      := Vector.replicate 8 0#32
  din      := ⟨0#32, 0#32, 0#32, 0#32⟩
  dout     := ⟨0#32, 0#32, 0#32, 0#32⟩
  ks       := Vector.replicate 60 0#32
  big      := ⟨0, 0, 0, 0, 0, 0, 0, 0⟩
  buf      := []
  draws    := []
  fresh    := 0
  epoch    := 0
  turns    := []
  response := none

/-- The state right after reset (70 R402), for the machine of `Config.params` (log entry 1). -/
def State.reset : State := State.resetWith Config.params

end Sys2Proof.Machine
end

