-- ==== Sys2Proof/Machine/Ops.lean ====
section
/-! DEFINITION. The operations on registers and memory, the acceptance of a command (40 R131), its completion (R134),
its error completion (R135) and reset (70 R400). -/

namespace Sys2Proof.Machine

/-! Memory (20 R70, R71). -/

/-- The byte listed at offset `a`, or what an unlisted offset holds. -/
def Memory.get? : Memory → Nat → Option Byte
  | [], _          => Memory.unlisted
  | (x, c) :: m, a => if a = x then some c else Memory.get? m a

/-- Memory with byte `b` at offset `a`; the list stays in rising order. -/
def Memory.put : Memory → Nat → Byte → Memory
  | [], a, b          => [(a, b)]
  | (x, c) :: m, a, b =>
    if a < x then (a, b) :: (x, c) :: m
    else if a = x then (a, b) :: m
    else (x, c) :: Memory.put m a b

/-- MemWrite: the bytes `bs` at offsets `a`, `a + 1`, … (00 R10). -/
def Memory.putBytes (m : Memory) (a : Nat) : List Byte → Memory
  | []      => m
  | b :: bs => Memory.putBytes (m.put a b) (a + 1) bs

/-- The canonical form: offsets strictly rising. An unlisted byte has no value of its own, so no entry can equal
what an unlisted offset holds. -/
abbrev Memory.wf (m : Memory) : Prop := m.Pairwise fun c c' => c.1 < c'.1

/-- Buffer byte `a`: the byte written there, or the free value that byte holds since reset (70 R401). -/
def State.readByte (s : State) (a : Nat) : Byte := (s.buf.get? a).getD (Config.freeByte s.epoch a)

/-- MemRead(a, n) (00 R10). -/
def State.memRead (s : State) (a n : Nat) : List Byte := (List.range n).map fun i => s.readByte (a + i)

/-- MemWrite(a, |bs|, bs) (00 R10). -/
def State.memWrite (s : State) (a : Nat) (bs : List Byte) : State := { s with buf := s.buf.putBytes a bs }

/-! Registers. -/

/-- The integer a big-number register holds (10 R37). -/
def BigRegs.get (g : BigRegs) : BigReg → Nat
  | .n   => g.n
  | .e   => g.e
  | .d   => g.d
  | .p   => g.p
  | .q   => g.q
  | .phi => g.phi
  | .x   => g.x
  | .y   => g.y

/-- The big-number registers with one replaced (10 R36). -/
def BigRegs.set (g : BigRegs) : BigReg → Nat → BigRegs
  | .n, v   => { g with n := v }
  | .e, v   => { g with e := v }
  | .d, v   => { g with d := v }
  | .p, v   => { g with p := v }
  | .q, v   => { g with q := v }
  | .phi, v => { g with phi := v }
  | .x, v   => { g with x := v }
  | .y, v   => { g with y := v }

/-- A big-number register, read whole (10 R37). -/
def State.getBig (s : State) (r : BigReg) : Nat := s.big.get r

/-- An engine write of `v` to a big-number register: words 0 to RSA_WORDS − 1 (10 R37). -/
def State.setBig (s : State) (r : BigReg) (v : Nat) : State :=
  { s with big := s.big.set r (v % 2 ^ s.params.rsaMaxBits) }

/-- A write of DATA_LEN: 16 bits (10 R28). -/
def State.setDataLen (s : State) (len : Nat) : State := { s with dataLen := BitVec.ofNat 16 len }

/-- A write of DOUT (10 R32). -/
def State.setDout (s : State) (b : Block) : State := { s with dout := b }

/-- A write of all of K from a byte string, zero bytes after its end (10 R30; 44 R307). -/
def State.setKey (s : State) (k : List Byte) : State := { s with key := Vector.ofFn fun i => wordOfBytes k i.val }

/-- A write of the key schedule store with its Nr and tag (41 R170). -/
def State.setSchedule (s : State) (ks : Vector Word 60) (nr : Nat) : State :=
  { s with ks := ks, nr := BitVec.ofNat 8 nr, ksValid := true }

/-- KS_VALID cleared; NR then reads 0, and the store keeps its words (10 R41, R33). -/
def State.clearKsValid (s : State) : State := { s with ksValid := false }

/-- STATUS.RESULT written (44 R300). -/
def State.setResult (s : State) (b : Bool) : State := { s with result := b }

/-- The draws that a command leaves over (00 R13). -/
def State.leaveDraws (s : State) (ds : List Nat) : State := { s with draws := ds }

/-- `n` more draws from the random source, each a free value (00 R13; log entry 3). -/
def State.supplyDraws (s : State) (n : Nat) : State :=
  { s with draws := s.draws ++ (List.range n).map (fun i => Config.freeDraw (s.fresh + i)), fresh := s.fresh + n }

/-- The turns still to come (log entry 7). -/
def State.setTurns (s : State) (ts : List Turn) : State := { s with turns := ts }

/-- The block's answer to a host access (20 R78; log entry 9). -/
def State.respond (s : State) (r : Option Response) : State := { s with response := r }

/-- The answer to a read that returns an unspecified word: a fresh free value (40 R138; log entry 5). -/
def State.respondFree (s : State) : State :=
  { s with response := some ⟨false, Config.freeRead s.fresh⟩, fresh := s.fresh + 1 }

/-! The life of a command. -/

/-- Acceptance of command word `w` (40 R131). -/
def State.accept (s : State) (w : Word) : State :=
  { s with lastCmd := w.extractLsb' 0 8, done := false, err := .ok, phase := .busy (decodeCommand w) }

/-- complete(): success (40 R134). -/
def State.complete (s : State) : State := { s with err := .ok, phase := .idle, done := true }

/-- raise: the error completion, this hardware's only exception (40 R135; 60 R350, R354). There is no return from
it (60 R355): control is with the host throughout. -/
def State.raise (s : State) (e : ErrCode) : State := { s with err := e, phase := .idle, done := true }

/-- raise KEYLEN by key expansion: the one error that writes more, KS_VALID ← 0 (41 R170; 10 R41). -/
def State.raiseKeylen (s : State) : State := s.clearKsValid.raise .keylen

/-- RST as one atomic step (70 R400): every register to its reset value, the buffer unspecified again, the draws of
a running command discarded. The turns still to come and the counter of free values are no part of the block. -/
def State.assertRst (s : State) : State :=
  { State.resetWith s.params with epoch := s.epoch + 1, fresh := s.fresh, turns := s.turns }

end Sys2Proof.Machine
end

