-- ==== Sys2Proof/Machine/Flags.lean ====
section
/-! DEFINITION. The flags: the words STATUS, CTRL and CFG read as (10 R23, R24, R26), what writing STATUS clears
(10 R26), and IRQ (60 R360). -/

namespace Sys2Proof.Machine

/-- The code of an error (60 R350). -/
def errBits : ErrCode → BitVec 4
  | .ok      => 0#4
  | .keylen  => 1#4
  | .length  => 2#4
  | .padding => 3#4
  | .noinv   => 4#4
  | .range   => 5#4
  | .badarg  => 6#4
  | .badcmd  => 7#4

/-- STATUS.BUSY: 1 while the phase is BUSY (10 R26). -/
def State.isBusy (s : State) : Bool :=
  match s.phase with
  | .idle   => false
  | .busy _ => true

/-- STATUS as a read returns it (10 R26). -/
def State.statusWord (s : State) : Word :=
  0#8 ++ s.lastCmd ++ 0#4 ++ errBits s.err ++ 0#3 ++ BitVec.ofBool s.werr ++ BitVec.ofBool s.result
    ++ BitVec.ofBool s.ksValid ++ BitVec.ofBool s.done ++ BitVec.ofBool s.isBusy

/-- CTRL as a read returns it (10 R24). -/
def State.ctrlWord (s : State) : Word := 0#31 ++ BitVec.ofBool s.irqEn

/-- CFG as a read returns it: RSA_WORDS in [31:16], BUF_BLOCKS in [15:0] (10 R23). -/
def State.cfgWord (s : State) : Word :=
  BitVec.ofNat 16 s.params.rsaWords ++ BitVec.ofNat 16 (s.params.bufBytes / 16)

/-- NR as a read returns it: Nr where KS_VALID = 1, else 0 (10 R29). -/
def State.nrWord (s : State) : Word := if s.ksValid then 0#24 ++ s.nr else 0#32

/-- A write to STATUS: a 1 in bit 1 clears DONE, a 1 in bit 4 clears WERR, no other bit does anything
(10 R26). -/
def State.clearFlags (s : State) (w : Word) : State :=
  { s with done := s.done && !w.getLsbD 1, werr := s.werr && !w.getLsbD 4 }

/-- A write to CTRL: bit 0 is IRQ_EN, the rest is discarded (10 R24). -/
def State.setCtrl (s : State) (w : Word) : State := { s with irqEn := w.getLsbD 0 }

/-- A write dropped because the engine is BUSY (40 R137). -/
def State.dropWrite (s : State) : State := { s with werr := true }

/-- The interrupt output (60 R360). -/
def State.irq (s : State) : Bool := s.irqEn && s.done

end Sys2Proof.Machine
end

