-- ==== Sys2Proof/Machine/Aes.lean ====
section
/-! DEFINITION. The AES primitives (41 R150 to R182): GF(2^8), the tables, the round functions, key expansion, Cipher
and InvCipher. -/

namespace Sys2Proof.Machine

/-- Multiplication by 0x02 in GF(2^8) modulo 0x11B (41 R151). -/
def xtime (a : Byte) : Byte := (a <<< 1) ^^^ (if a.getLsbD 7 then 0x1B#8 else 0x00#8)

/-- The product of two bytes in GF(2^8), bit by bit of `b` (41 R151). -/
def gmul (a b : Byte) : Byte :=
  ((List.range 8).foldl (fun ra i => (if b.getLsbD i then ra.1 ^^^ ra.2 else ra.1, xtime ra.2)) (0x00#8, a)).1

/-- The S-box, one row of 16 entries per element, column 0 leftmost (41 R152). -/
def sboxRows : List (BitVec 128) := [
  0x637c777bf26b6fc53001672bfed7ab76#128,
  0xca82c97dfa5947f0add4a2af9ca472c0#128,
  0xb7fd9326363ff7cc34a5e5f171d83115#128,
  0x04c723c31896059a071280e2eb27b275#128,
  0x09832c1a1b6e5aa0523bd6b329e32f84#128,
  0x53d100ed20fcb15b6acbbe394a4c58cf#128,
  0xd0efaafb434d338545f9027f503c9fa8#128,
  0x51a3408f929d38f5bcb6da2110fff3d2#128,
  0xcd0c13ec5f974417c4a77e3d645d1973#128,
  0x60814fdc222a908846eeb814de5e0bdb#128,
  0xe0323a0a4906245cc2d3ac629195e479#128,
  0xe7c8376d8dd54ea96c56f4ea657aae08#128,
  0xba78252e1ca6b4c6e8dd741f4bbd8b8a#128,
  0x703eb5664803f60e613557b986c11d9e#128,
  0xe1f8981169d98e949b1e87e9ce5528df#128,
  0x8ca1890dbfe6426841992d0fb054bb16#128]

/-- The inverse S-box, laid out as `sboxRows` (41 R153). -/
def invSboxRows : List (BitVec 128) := [
  0x52096ad53036a538bf40a39e81f3d7fb#128,
  0x7ce339829b2fff87348e4344c4dee9cb#128,
  0x547b9432a6c2233dee4c950b42fac34e#128,
  0x082ea16628d924b2765ba2496d8bd125#128,
  0x72f8f66486689816d4a45ccc5d65b692#128,
  0x6c704850fdedb9da5e154657a78d9d84#128,
  0x90d8ab008cbcd30af7e45805b8b34506#128,
  0xd02c1e8fca3f0f02c1afbd0301138a6b#128,
  0x3a9111414f67dcea97f2cfcef0b4e673#128,
  0x96ac7422e7ad3585e2f937e81c75df6e#128,
  0x47f11a711d29c5896fb7620eaa18be1b#128,
  0xfc563e4bc6d279209adbc0fe78cd5af4#128,
  0x1fdda8338807c731b11210592780ec5f#128,
  0x60517fa919b54a0d2de57a9f93c99cef#128,
  0xa0e03b4dae2af5b0c8ebbb3c83539961#128,
  0x172b047eba77d626e169146355210c7d#128]

/-- The entry at row x[7:4], column x[3:0] of a table (41 R152). -/
def tableEntry (rows : List (BitVec 128)) (x : Byte) : Byte :=
  (rows.getD (x.toNat / 16) 0#128).extractLsb' (8 * (15 - x.toNat % 16)) 8

/-- Sbox[x] (41 R152). -/
def sbox (x : Byte) : Byte := tableEntry sboxRows x

/-- InvSbox[y] (41 R153). -/
def invSbox (y : Byte) : Byte := tableEntry invSboxRows y

/-- Column `c` of a block (00 R12). -/
def blockCol (s : Block) : (c : Nat) → Word
  | 0 => s.c0
  | 1 => s.c1
  | 2 => s.c2
  | _ => s.c3

/-- S(r, c), the byte at row `r` and column `c` (00 R12). -/
def blockByte (s : Block) (r c : Nat) : Byte := wordByte (blockCol s c) r

/-- The block whose byte at row `r` and column `c` is `f r c` (00 R12). -/
def blockOf (f : Nat → Nat → Byte) : Block :=
  ⟨packWord (f 0 0) (f 1 0) (f 2 0) (f 3 0), packWord (f 0 1) (f 1 1) (f 2 1) (f 3 1),
   packWord (f 0 2) (f 1 2) (f 2 2) (f 3 2), packWord (f 0 3) (f 1 3) (f 2 3) (f 3 3)⟩

/-- SubBytes (41 R154). -/
def subBytes (s : Block) : Block := blockOf fun r c => sbox (blockByte s r c)

/-- InvSubBytes (41 R159). -/
def invSubBytes (s : Block) : Block := blockOf fun r c => invSbox (blockByte s r c)

/-- ShiftRows: S'(r, c) = S(r, (c + r) mod 4) (41 R155). -/
def shiftRows (s : Block) : Block := blockOf fun r c => blockByte s r ((c + r) % 4)

/-- InvShiftRows: S'(r, c) = S(r, (c − r) mod 4) (41 R158). -/
def invShiftRows (s : Block) : Block := blockOf fun r c => blockByte s r ((c + 4 - r) % 4)

/-- One column times the matrix whose row `r` is `(m0 m1 m2 m3)` rotated right by `r` (41 R156, R160). -/
def circulant (m0 m1 m2 m3 : Byte) (w : Word) : Word :=
  let a0 := wordByte w 0
  let a1 := wordByte w 1
  let a2 := wordByte w 2
  let a3 := wordByte w 3
  packWord
    (gmul m0 a0 ^^^ gmul m1 a1 ^^^ gmul m2 a2 ^^^ gmul m3 a3)
    (gmul m3 a0 ^^^ gmul m0 a1 ^^^ gmul m1 a2 ^^^ gmul m2 a3)
    (gmul m2 a0 ^^^ gmul m3 a1 ^^^ gmul m0 a2 ^^^ gmul m1 a3)
    (gmul m1 a0 ^^^ gmul m2 a1 ^^^ gmul m3 a2 ^^^ gmul m0 a3)

/-- MixColumns on one column: rows 02 03 01 01 (41 R156). -/
def mixColumn (w : Word) : Word := circulant 0x02#8 0x03#8 0x01#8 0x01#8 w

/-- InvMixColumns on one column: rows 0E 0B 0D 09 (41 R160). -/
def invMixColumn (w : Word) : Word := circulant 0x0E#8 0x0B#8 0x0D#8 0x09#8 w

/-- MixColumns (41 R156). -/
def mixColumns (s : Block) : Block := ⟨mixColumn s.c0, mixColumn s.c1, mixColumn s.c2, mixColumn s.c3⟩

/-- InvMixColumns (41 R160). -/
def invMixColumns (s : Block) : Block :=
  ⟨invMixColumn s.c0, invMixColumn s.c1, invMixColumn s.c2, invMixColumn s.c3⟩

/-- KS[i]; 0 past the store, where no rule reads (10 R33). -/
def ksWord (ks : Vector Word 60) (i : Nat) : Word := ks.toList.getD i 0#32

/-- AddRoundKey(s, r): column `c` is XORed with word `4r + c` of the schedule (41 R157). -/
def addRoundKey (ks : Vector Word 60) (s : Block) (r : Nat) : Block :=
  ⟨s.c0 ^^^ ksWord ks (4 * r), s.c1 ^^^ ksWord ks (4 * r + 1),
   s.c2 ^^^ ksWord ks (4 * r + 2), s.c3 ^^^ ksWord ks (4 * r + 3)⟩

/-- RotWord: one byte to the left (41 R161). -/
def rotWord (w : Word) : Word := packWord (wordByte w 1) (wordByte w 2) (wordByte w 3) (wordByte w 0)

/-- SubWord (41 R161). -/
def subWord (w : Word) : Word :=
  packWord (sbox (wordByte w 0)) (sbox (wordByte w 1)) (sbox (wordByte w 2)) (sbox (wordByte w 3))

/-- RC[j] for j ≥ 1 (41 R162). -/
def rc : (j : Nat) → Byte
  | 0     => 0x00#8
  | 1     => 0x01#8
  | j + 2 => xtime (rc (j + 1))

/-- Rcon[j] = (RC[j], 0, 0, 0) (41 R162). -/
def rcon (j : Nat) : Word := packWord (rc j) 0x00#8 0x00#8 0x00#8

/-- Nr from the key length in bytes; none for a length that is not 16, 24 or 32 (41 R163). -/
def roundsOf (len : Nat) : Option Nat :=
  match len with
  | 16 => some 10
  | 24 => some 12
  | 32 => some 14
  | _  => none

/-- The word that the recurrence of key expansion gives after the words `ws`, at position i = |ws| (41 R170). -/
def nextScheduleWord (nk : Nat) (ws : List Word) : Word :=
  let i := ws.length
  let prev := ws.getD (i - 1) 0#32
  let t :=
    if i % nk = 0 then subWord (rotWord prev) ^^^ rcon (i / nk)
    else if nk = 8 ∧ i % nk = 4 then subWord prev
    else prev
  ws.getD (i - nk) 0#32 ^^^ t

/-- `count` further words of the schedule (41 R170). -/
def extendSchedule (nk : Nat) : (count : Nat) → List Word → List Word
  | 0, ws         => ws
  | count + 1, ws => extendSchedule nk count (ws ++ [nextScheduleWord nk ws])

/-- The words w[0 .. 4(Nr+1)−1] of a key of Nk words and Nr = Nk + 6 rounds (41 R170). -/
def expandKey (k : List Byte) : List Word :=
  let nk := k.length / 4
  extendSchedule nk (4 * (nk + 6 + 1) - nk) ((List.range nk).map (wordOfBytes k))

/-- The contents of KS0 to KS59 for a key: the schedule, then words of 0 (41 R170). -/
def keySchedule (k : List Byte) : Vector Word 60 :=
  let ws := expandKey k
  Vector.ofFn fun i => ws.getD i.val 0#32

/-- Rounds 1 to `n` of Cipher, each with MixColumns (41 R180). -/
def cipherRounds (ks : Vector Word 60) : (n : Nat) → Block → Block
  | 0, s     => s
  | n + 1, s => addRoundKey ks (mixColumns (shiftRows (subBytes (cipherRounds ks n s)))) (n + 1)

/-- Cipher(in) under a schedule of `nr` rounds (41 R180). -/
def cipher (ks : Vector Word 60) (nr : Nat) (b : Block) : Block :=
  addRoundKey ks (shiftRows (subBytes (cipherRounds ks (nr - 1) (addRoundKey ks b 0)))) nr

/-- Rounds `n` down to 1 of InvCipher, each with InvMixColumns (41 R181). -/
def invCipherRounds (ks : Vector Word 60) : (n : Nat) → Block → Block
  | 0, s     => s
  | n + 1, s => invCipherRounds ks n (invSubBytes (invShiftRows (invMixColumns (addRoundKey ks s (n + 1)))))

/-- InvCipher(in) under a schedule of `nr` rounds (41 R181). -/
def invCipher (ks : Vector Word 60) (nr : Nat) (b : Block) : Block :=
  addRoundKey ks (invCipherRounds ks (nr - 1) (invSubBytes (invShiftRows (addRoundKey ks b nr)))) 0

end Sys2Proof.Machine
end

