-- ==== Sys2Proof/Machine/Operands.lean ====
section
/-! DEFINITION. The operands commands share: KEYBYTES (10 R30), the schedule and EnsureSchedule (42 R201), the
message and its padding (42 R205, R206, R210), and the block loop (42 R207). -/

namespace Sys2Proof.Machine

/-- KEYBYTES: bytes 0 to KEY_BYTES − 1 of K (00 R10, 10 R30). -/
def State.keyString (s : State) : List Byte := (s.key.toList.flatMap wordBytes).take s.keyBytes.toNat

/-- KeyExpansion on the current key; none is KEYLEN (41 R170, 42 R200). -/
def State.expand (s : State) : Option State :=
  match roundsOf s.keyBytes.toNat with
  | none    => none
  | some nr => some (s.setSchedule (keySchedule s.keyString) nr)

/-- EnsureSchedule: the stored schedule where KS_VALID = 1, else KeyExpansion (42 R201). -/
def State.ensureSchedule (s : State) : Option State := if s.ksValid then some s else s.expand

/-- Cipher under the stored schedule (41 R180). -/
def State.encryptBlock (s : State) (b : Block) : Block := cipher s.ks s.nr.toNat b

/-- InvCipher under the stored schedule (41 R181). -/
def State.decryptBlock (s : State) (b : Block) : Block := invCipher s.ks s.nr.toNat b

/-- p, the number of pad bytes for a message of `len` bytes: 1 to 16 (42 R205). -/
def padCount (len : Nat) : Nat := 16 - len % 16

/-- The pad bytes: p repeated p times (42 R205). -/
def padBytes (len : Nat) : List Byte := List.replicate (padCount len) (BitVec.ofNat 8 (padCount len))

/-- The pad count a message of `len` bytes ends with; none is PADDING: an empty message, a last byte of 0 or above
16, or fewer than p last bytes equal to p (42 R206, R210). -/
def State.checkPadding (s : State) (len : Nat) : Option Nat :=
  if len = 0 then none
  else
    let p := s.readByte (len - 1)
    if p = 0#8 ∨ 16 < p.toNat then none
    else if (List.range p.toNat).all (fun i => s.readByte (len - (i + 1)) == p) then some p.toNat
    else none

/-- Blocks 0 to `n` − 1 of the message, each replaced by `f` of it, in place (42 R207, 20 R71). -/
def State.mapBlocks (f : Block → Block) : (n : Nat) → State → State
  | 0, s     => s
  | n + 1, s =>
    let s := State.mapBlocks f n s
    s.memWrite (16 * n) (blockBytes (f (blockOfBytes (s.memRead (16 * n) 16))))

end Sys2Proof.Machine
end

