-- ==== Sys2Proof/Machine/Bus.lean ====
section
/-! DEFINITION. Host accesses: what each location reads as, what a write does, what changes while the engine is BUSY
(20 R70, R77, R78, R80; 40 R130, R137, R138). -/

namespace Sys2Proof.Machine

/-- Whether word `i` of a big-number aperture has storage; from RSA_WORDS on the words are RAZ/WI (10 R37). -/
abbrev hasBigWord (p : Params) (i : Nat) : Prop := i < p.rsaWords

/-- Whether window word `j` has storage; words whose bytes lie past BUF_BYTES are RAZ/WI (20 R70). -/
abbrev hasBufWord (p : Params) (j : Nat) : Prop := 4 * j + 4 ≤ p.bufBytes

/-- The current value of a location (10; 20 R70, R77). CMD and every reserved place read 0. -/
def State.locWord (s : State) : Loc → Word
  | .id       => Config.idValue
  | .cfg      => s.cfgWord
  | .ctrl     => s.ctrlWord
  | .cmd      => 0#32
  | .status   => s.statusWord
  | .keyBytes => s.keyBytes.setWidth 32
  | .dataLen  => s.dataLen.setWidth 32
  | .nr       => s.nrWord
  | .mrRounds => s.mrRounds.setWidth 32
  | .rsaBits  => s.rsaBits.setWidth 32
  | .key i    => s.key[i]
  | .din i    => blockCol s.din i.val
  | .dout i   => blockCol s.dout i.val
  | .ks i     => s.ks[i]
  | .big r i  => if hasBigWord s.params i.val then bigWord (s.getBig r) i.val else 0#32
  | .buf j    => if hasBufWord s.params j.val then wordOfBytes (s.memRead (4 * j.val) 4) 0 else 0#32
  | .reserved => 0#32

/-- A block with column `c` replaced (10 R31). -/
def setBlockCol (b : Block) (c : Nat) (w : Word) : Block :=
  match c with
  | 0 => { b with c0 := w }
  | 1 => { b with c1 := w }
  | 2 => { b with c2 := w }
  | _ => { b with c3 := w }

/-- A host write to a location while the engine is IDLE (10; 20 R70, R77, R80; 40 R130). Read-only and reserved
places ignore it; a key write clears KS_VALID (10 R41); a write to CMD is accepted (40 R131). -/
def State.storeIdle (s : State) (l : Loc) (w : Word) : State :=
  match l with
  | .ctrl     => s.setCtrl w
  | .cmd      => s.accept w
  | .status   => s.clearFlags w
  | .keyBytes => { s with keyBytes := w.setWidth 8, ksValid := false }
  | .dataLen  => { s with dataLen := w.setWidth 16 }
  | .mrRounds => { s with mrRounds := w.setWidth 8 }
  | .rsaBits  => { s with rsaBits := w.setWidth 16 }
  | .key i    => { s with key := s.key.set i.val w, ksValid := false }
  | .din i    => { s with din := setBlockCol s.din i.val w }
  | .big r i  =>
    if hasBigWord s.params i.val then { s with big := s.big.set r (setBigWord (s.big.get r) i.val w) } else s
  | .buf j    => if hasBufWord s.params j.val then s.memWrite (4 * j.val) (wordBytes w) else s
  | .id | .cfg | .nr | .dout _ | .ks _ | .reserved => s

/-- A host write while the engine is BUSY (40 R137): CTRL and STATUS take it, a reserved offset ignores it, and at
any other place it is dropped and sets WERR. DEDUCED: read-only registers and the RAZ/WI words of an aperture or
of the buffer window are such places too (log entry 6). -/
def State.storeBusy (s : State) (l : Loc) (w : Word) : State :=
  match l with
  | .ctrl     => s.setCtrl w
  | .status   => s.clearFlags w
  | .reserved => s
  | .id | .cfg | .cmd | .keyBytes | .dataLen | .nr | .mrRounds | .rsaBits | .key _ | .din _ | .dout _ | .ks _
  | .big _ _ | .buf _ => s.dropWrite

/-- A host write (40 R130, R137). -/
def State.store (s : State) (l : Loc) (w : Word) : State := if s.isBusy then s.storeBusy l w else s.storeIdle l w

/-- KS and NR, which a command that may expand the key may write (30 R104, 40 R138). -/
def isSchedule : Loc → Bool
  | .ks _ => true
  | .nr   => true
  | _     => false

/-- The words of the data buffer (30 R104; 20 R70, R71). -/
def isBuffer (p : Params) : Loc → Bool
  | .buf j => decide (hasBufWord p j.val)
  | _      => false

/-- The words of big-number register `r`, which an engine write of it stores: 0 to RSA_WORDS − 1 (10 R37). -/
def isBigReg (p : Params) (r : BigReg) : Loc → Bool
  | .big r' i => r' == r && decide (hasBigWord p i.val)
  | _         => false

/-- The buffer words that hold pad bytes of a message of `len` bytes (42 R205). -/
def isPadWord (len : Nat) : Loc → Bool
  | .buf j => decide (len < 4 * j.val + 4 ∧ 4 * j.val < len + padCount len)
  | _      => false

/-- DOUT0 to DOUT3 (30 R104). -/
def isDout : Loc → Bool
  | .dout _ => true
  | _       => false

/-- KEY0 to KEY7 (30 R104). -/
def isKey : Loc → Bool
  | .key _ => true
  | _      => false

/-- Whether a location is in the write set of the running command (30 R104, 40 R138). DEDUCED: the schedule counts
for every command that may expand the key, whether or not this run does; the whole buffer counts where R104 says
"buffer", and for PAD the words that hold pad bytes (log entry 5). STATUS is left out: it always reads its current
value. A word that has no storage is in no set: the engine never writes it (10 R37; 20 R71), and it reads 0. -/
def State.inWriteSet (s : State) (op : Command) (l : Loc) : Bool :=
  let p := s.params
  match op with
  | .badCmd => false
  | .instr i =>
    match i with
    | .nop        => false
    | .keyexp     => isSchedule l
    | .encBlock | .decBlock => isSchedule l || isDout l
    | .pad        => (isBuffer p l && isPadWord s.dataLen.toNat l) || l == .dataLen
    | .unpad      => l == .dataLen
    | .ecbEnc | .ecbDec => isSchedule l || isBuffer p l
    | .encrypt | .decrypt => isSchedule l || isBuffer p l || l == .dataLen
    | .primetest  => false
    | .genprime   => isBigReg p .x l
    | .modinv | .modexpPub | .modexpPriv => isBigReg p .y l
    | .keygen     =>
      isBigReg p .p l || isBigReg p .q l || isBigReg p .n l || isBigReg p .phi l || isBigReg p .e l || isBigReg p .d l
    | .wrapkey    => isBuffer p l || l == .dataLen || isBigReg p .y l
    | .unwrapkey  => isKey l || l == .nr || isBigReg p .y l

/-- Whether a host read of a location returns an unspecified word now (40 R138). -/
def State.readsFree (s : State) (l : Loc) : Bool :=
  match s.phase with
  | .idle    => false
  | .busy op => s.inWriteSet op l

/-- A host read (20 R80; 40 R138): the current value, or a fresh free word in the running command's write set. -/
def State.load (s : State) (l : Loc) : State :=
  if s.readsFree l then s.respondFree else s.respond (some ⟨false, s.locWord l⟩)

/-- One host access (20 R75, R78): served where it is a whole aligned word, BERR otherwise, and no matter of the
block where its address lies elsewhere. -/
def State.hostAccess (s : State) (a : Access) : State :=
  match decodeAddr s.params a.addr with
  | none     => s.respond none
  | some off =>
    if accessWellFormed off a.lanes then
      match a.dir with
      | .read    => s.load (locate off)
      | .write w => (s.store (locate off) w).respond (some ⟨false, 0#32⟩)
    else s.respond (some ⟨true, 0#32⟩)

end Sys2Proof.Machine
end

