-- ==== Sys2Proof/Machine/AesCommands.lean ====
section
/-! DEFINITION. The AES commands (42 R202 to R210). Each is the completion step of its command (40 R132). -/

namespace Sys2Proof.Machine

/-- EnsureSchedule, then the rest of an AES command (42 R201); KEYLEN where no schedule can be built. -/
def withSchedule (s : State) (rest : State → State) : State :=
  match s.ensureSchedule with
  | none   => s.raiseKeylen
  | some s => rest s

/-- KEYEXP: expands even where KS_VALID = 1 (42 R202). -/
def execKeyexp (s : State) : Host.Outcome State Fault Refusal :=
  match s.expand with
  | none   => .next s.raiseKeylen
  | some s => .next s.complete

/-- ENC_BLOCK (42 R203). -/
def execEncBlock (s : State) : Host.Outcome State Fault Refusal :=
  .next (withSchedule s fun s => (s.setDout (s.encryptBlock s.din)).complete)

/-- DEC_BLOCK (42 R204). -/
def execDecBlock (s : State) : Host.Outcome State Fault Refusal :=
  .next (withSchedule s fun s => (s.setDout (s.decryptBlock s.din)).complete)

/-- PAD (42 R205). -/
def execPad (s : State) : Host.Outcome State Fault Refusal :=
  let len := s.dataLen.toNat
  if s.params.bufBytes < len then .next (s.raise .length)
  else if s.params.bufBytes < len + padCount len then .next (s.raise .length)
  else .next ((s.memWrite len (padBytes len)).setDataLen (len + padCount len)).complete

/-- UNPAD (42 R206). -/
def execUnpad (s : State) : Host.Outcome State Fault Refusal :=
  let len := s.dataLen.toNat
  if s.params.bufBytes < len then .next (s.raise .length)
  else if len % 16 ≠ 0 then .next (s.raise .padding)
  else
    match s.checkPadding len with
    | none   => .next (s.raise .padding)
    | some p => .next (s.setDataLen (len - p)).complete

/-- The length checks of ECB_ENC and ECB_DEC, then every block through `f` (42 R207, R208). -/
def ecbTransform (s : State) (f : Block → Block) : State :=
  let len := s.dataLen.toNat
  if s.params.bufBytes < len then s.raise .length
  else if len % 16 ≠ 0 then s.raise .length
  else (s.mapBlocks f (len / 16)).complete

/-- ECB_ENC (42 R207). -/
def execEcbEnc (s : State) : Host.Outcome State Fault Refusal :=
  .next (withSchedule s fun s => ecbTransform s s.encryptBlock)

/-- ECB_DEC (42 R208). -/
def execEcbDec (s : State) : Host.Outcome State Fault Refusal :=
  .next (withSchedule s fun s => ecbTransform s s.decryptBlock)

/-- ENCRYPT after EnsureSchedule: pad, then every block (42 R209). -/
def encryptMessage (s : State) : State :=
  let len := s.dataLen.toNat
  if s.params.bufBytes < len then s.raise .length
  else if s.params.bufBytes < len + padCount len then s.raise .length
  else
    let padded := s.memWrite len (padBytes len)
    ((padded.mapBlocks s.encryptBlock ((len + padCount len) / 16)).setDataLen (len + padCount len)).complete

/-- ENCRYPT (42 R209). -/
def execEncrypt (s : State) : Host.Outcome State Fault Refusal := .next (withSchedule s encryptMessage)

/-- DECRYPT after EnsureSchedule: every block, then unpad; PADDING leaves the decrypted blocks in the buffer and
DATA_LEN as it was (42 R210). -/
def decryptMessage (s : State) : State :=
  let len := s.dataLen.toNat
  if s.params.bufBytes < len then s.raise .length
  else if len % 16 ≠ 0 then s.raise .length
  else
    let plain := s.mapBlocks s.decryptBlock (len / 16)
    match plain.checkPadding len with
    | none   => plain.raise .padding
    | some p => (plain.setDataLen (len - p)).complete

/-- DECRYPT (42 R210). -/
def execDecrypt (s : State) : Host.Outcome State Fault Refusal := .next (withSchedule s decryptMessage)

end Sys2Proof.Machine
end

