-- ==== Sys2Proof/Machine/Control.lean ====
section
/-! DEFINITION. The control family: NOP (40 R139), and the completion of BADCMD (40 R133). -/

namespace Sys2Proof.Machine

/-- NOP (40 R139). -/
def execNop (s : State) : Host.Outcome State Fault Refusal := .next s.complete

/-- The completion of BADCMD: ERR and nothing else (40 R133). -/
def completeBadCmd (s : State) : Host.Outcome State Fault Refusal := .next (s.raise .badcmd)

end Sys2Proof.Machine
end

