-- ==== Sys2Proof/Machine/Rsa.lean ====
section
/-! DEFINITION. The RSA primitives (43 R250 to R262): exact integer arithmetic, byte-length recovery, ModExp, ModInv,
the probable-prime test and key generation. A function that draws takes the list of draws still to be taken and
answers none where that list ends before its result is settled (00 R13; log entry 3). -/

namespace Sys2Proof.Machine

/-- B without its leading zero bytes, as long as it is longer than `len` (43 R252). -/
def stripTo (len : Nat) : List Byte → List Byte
  | []      => []
  | b :: bs => if len < (b :: bs).length ∧ b = 0#8 then stripTo len bs else b :: bs

/-- KeyFromInt(m, L) (43 R252). -/
def keyFromInt (m len : Nat) : List Byte :=
  let b := minBytes m
  let b := List.replicate (len - b.length) 0#8 ++ b
  let b := stripTo len b
  b.drop (b.length - len)

/-- The square-and-multiply loop over exponent bits `i − 1` down to 0, with accumulator `r` (43 R253). -/
def modExpFrom (b e m : Nat) : (i : Nat) → (r : Nat) → Nat
  | 0, r     => r
  | i + 1, r =>
    let r := r * r % m
    modExpFrom b e m i (if e.testBit i then r * b % m else r)

/-- ModExp(b, e, m) for m ≥ 2 (43 R253). -/
def modExp (b e m : Nat) : Nat := modExpFrom (b % m) e m (bitlen e) 1

/-- The loop of the extended Euclidean algorithm; `fuel` above `r1` never runs out, since `r1` falls (43 R254). -/
def euclid : (fuel : Nat) → (r0 r1 : Nat) → (t0 t1 : Int) → Nat × Int
  | 0, r0, _, t0, _            => (r0, t0)
  | fuel + 1, r0, r1, t0, t1 =>
    if r1 = 0 then (r0, t0)
    else
      let q := r0 / r1
      euclid fuel r1 (r0 - q * r1) t1 (t0 - q * t1)

/-- ModInv(a, m) for m ≥ 2; none is NOINV (43 R254). -/
def modInv (a m : Nat) : Option Nat :=
  let rt := euclid m m (a % m) 0 1
  if rt.1 = 1 then some (rt.2 % m).toNat else none

/-- Trial division: the verdict where one is reached, none where n has no divisor in the list (43 R256). -/
def trialDivision (n : Nat) : List Nat → Option Bool
  | []      => none
  | p :: ps => if n = p then some true else if n % p = 0 then some false else trialDivision n ps

/-- (d, r) with m = d · 2^r and d odd, for m ≥ 1 and `fuel` at least bitlen(m) (43 R256). -/
def splitTwos : (fuel : Nat) → (m : Nat) → Nat × Nat
  | 0, m        => (m, 0)
  | fuel + 1, m =>
    if m % 2 = 0 then
      let dr := splitTwos fuel (m / 2)
      (dr.1, dr.2 + 1)
    else (m, 0)

/-- Whether squaring `x` up to `j` times reaches n − 1 (43 R256). -/
def squaringReaches (n : Nat) : (j : Nat) → (x : Nat) → Bool
  | 0, _     => false
  | j + 1, x =>
    let y := x * x % n
    if y = n - 1 then true else squaringReaches n j y

/-- One Miller–Rabin round with base `a`: whether n passes it (43 R256). -/
def roundPasses (n d r a : Nat) : Bool :=
  let x := modExp a d n
  x == 1 || x == n - 1 || squaringReaches n (r - 1) x

/-- draw_range(lo, hi) from a supplied draw: the draw itself where it is in range, and some value in range
otherwise (00 R10, R13; log entry 3). -/
def drawRange (lo hi v : Nat) : Nat := lo + (v - lo) % (hi - lo + 1)

/-- draw_bits(h) from a supplied draw: the draw itself where it has at most h bits (00 R10, R13; log entry 3). -/
def drawBits (h v : Nat) : Nat := v % 2 ^ h

/-- `k` Miller–Rabin rounds, each with a fresh draw; the first that fails ends the test (43 R256). -/
def millerRabin (n d r : Nat) : (k : Nat) → (ds : List Nat) → Option (Bool × List Nat)
  | 0, ds          => some (true, ds)
  | _ + 1, []      => none
  | k + 1, v :: ds =>
    if roundPasses n d r (drawRange 2 (n - 2) v) then millerRabin n d r k ds else some (false, ds)

/-- IsProbablePrime(n, k) on the draws `ds`: the verdict and the draws left over (43 R256). -/
def isProbablePrime (n k : Nat) (ds : List Nat) : Option (Bool × List Nat) :=
  if n < 2 then some (false, ds)
  else
    match trialDivision n Config.smallPrimes with
    | some verdict => some (verdict, ds)
    | none =>
      let dr := splitTwos (bitlen (n - 1)) (n - 1)
      millerRabin n dr.1 dr.2 k ds

/-- A prime candidate of `h` bits: top and bottom bits forced (43 R258). -/
def candidate (h v : Nat) : Nat := drawBits h v ||| 2 ^ (h - 1) ||| 1

/-- The loop of GenPrime; each turn takes at least one draw, so `fuel` above |ds| never runs out (43 R258). -/
def genPrimeLoop (h k : Nat) : (fuel : Nat) → (ds : List Nat) → Option (Nat × List Nat)
  | 0, _             => none
  | _ + 1, []        => none
  | fuel + 1, v :: ds =>
    match isProbablePrime (candidate h v) k ds with
    | none             => none
    | some (true, ds)  => some (candidate h v, ds)
    | some (false, ds) => genPrimeLoop h k fuel ds

/-- GenPrime(h, k) on the draws `ds`: the prime and the draws left over (43 R258). -/
def genPrime (h k : Nat) (ds : List Nat) : Option (Nat × List Nat) := genPrimeLoop h k (ds.length + 1) ds

/-- The search upward through odd exponents from `e` (43 R259). -/
def searchE (phi : Nat) : (fuel : Nat) → (e : Nat) → Nat
  | 0, e        => e
  | fuel + 1, e => if Nat.gcd e phi = 1 then e else searchE phi fuel (e + 2)

/-- ChooseE(φ); the search ends by φ + 2, which is odd or follows an odd φ + 1, both coprime to φ ≥ 1
(43 R259). -/
def chooseE (phi : Nat) : Nat :=
  if Nat.gcd Config.eDefault phi = 1 then Config.eDefault else searchE phi (phi + 2) Config.eSearchStart

/-- The six values of a keypair (43 R260). -/
structure KeyPair where
  p   : Nat
  q   : Nat
  n   : Nat
  phi : Nat
  e   : Nat
  d   : Nat
  deriving DecidableEq, Repr

/-- q: drawn again while it equals p (43 R260); each turn takes a draw, so `fuel` above |ds| never runs out. -/
def genOther (h k p : Nat) : (fuel : Nat) → (ds : List Nat) → Option (Nat × List Nat)
  | 0, _         => none
  | fuel + 1, ds =>
    match genPrime h k ds with
    | none         => none
    | some (q, ds) => if q = p then genOther h k p fuel ds else some (q, ds)

/-- n, φ, e and d of two primes; none is NOINV, checked defensively (43 R260). -/
def keyPairOf (p q : Nat) : Option KeyPair :=
  let phi := (p - 1) * (q - 1)
  let e := chooseE phi
  match modInv e phi with
  | none   => none
  | some d => some { p := p, q := q, n := p * q, phi := phi, e := e, d := d }

/-- The two primes of KeyPair(b, k) and the draws left over: all of p's draws, then all of q's (43 R260). -/
def keyPrimes (b k : Nat) (ds : List Nat) : Option (Nat × Nat × List Nat) :=
  match genPrime (b / 2) k ds with
  | none         => none
  | some (p, ds) =>
    match genOther (b / 2) k p (ds.length + 1) ds with
    | none         => none
    | some (q, ds) => some (p, q, ds)

end Sys2Proof.Machine
end

