-- ==== Sys2Proof/Machine/RsaCommands.lean ====
section
/-! DEFINITION. The RSA commands (44 R300 to R307). Each is the completion step of its command (40 R132). Where the
draws supplied so far do not settle a command that may run for ever, the engine stays BUSY and the random source
supplies more (40 R140; log entry 4). -/

namespace Sys2Proof.Machine

/-- k, the round count (44, preamble; 10 R34). -/
def State.rounds (s : State) : Nat := s.mrRounds.toNat

/-- PRIMETEST once its draws are settled: RESULT and the draws left over (44 R300). -/
def finishPrimetest (s : State) (verdict : Bool × List Nat) : State :=
  ((s.setResult verdict.1).leaveDraws verdict.2).complete

/-- PRIMETEST (44 R300): it takes at most k draws, so where too few are supplied the source supplies k more. -/
def execPrimetest (s : State) : Host.Outcome State Fault Refusal :=
  if s.rounds = 0 then .next (s.raise .badarg)
  else
    match isProbablePrime (s.getBig .x) s.rounds s.draws with
    | some verdict => .next (finishPrimetest s verdict)
    | none =>
      let s := s.supplyDraws s.rounds
      match isProbablePrime (s.getBig .x) s.rounds s.draws with
      | some verdict => .next (finishPrimetest s verdict)
      | none         => .next s

/-- GENPRIME (44 R301). -/
def execGenprime (s : State) : Host.Outcome State Fault Refusal :=
  let h := s.rsaBits.toNat
  if h < 2 ∨ s.params.rsaMaxBits < h then .next (s.raise .badarg)
  else if s.rounds = 0 then .next (s.raise .badarg)
  else
    match genPrime h s.rounds s.draws with
    | some (c, ds) => .next ((s.setBig .x c).leaveDraws ds).complete
    | none         => .next (s.supplyDraws (s.rounds + 1))

/-- MODINV (44 R302). -/
def execModinv (s : State) : Host.Outcome State Fault Refusal :=
  let m := s.getBig .phi
  if m < 2 then .next (s.raise .range)
  else
    match modInv (s.getBig .e) m with
    | none   => .next (s.raise .noinv)
    | some y => .next (s.setBig .y y).complete

/-- The six registers KEYGEN writes, together (44 R303), each an engine write of words 0 to RSA_WORDS − 1
(10 R37). -/
def State.setKeyPair (s : State) (kp : KeyPair) : State :=
  let m := 2 ^ s.params.rsaMaxBits
  { s with big := { s.big with
      p := kp.p % m, q := kp.q % m, n := kp.n % m, phi := kp.phi % m, e := kp.e % m, d := kp.d % m } }

/-- KEYGEN (44 R303). -/
def execKeygen (s : State) : Host.Outcome State Fault Refusal :=
  let b := s.rsaBits.toNat
  if b % 2 ≠ 0 ∨ b < Config.keygenMinBits ∨ s.params.rsaMaxBits < b then .next (s.raise .badarg)
  else if s.rounds = 0 then .next (s.raise .badarg)
  else
    match keyPrimes b s.rounds s.draws with
    | none => .next (s.supplyDraws (s.rounds + 1))
    | some (p, q, ds) =>
      match keyPairOf p q with
      | none    => .next ((s.leaveDraws ds).raise .noinv)
      | some kp => .next ((s.setKeyPair kp).leaveDraws ds).complete

/-- Y <- X^exponent mod N, with the range checks (44 R304, R305). -/
def modexpTransform (s : State) (exponent : Nat) : State :=
  let n := s.getBig .n
  if n < 2 then s.raise .range
  else if n ≤ s.getBig .x then s.raise .range
  else (s.setBig .y (modExp (s.getBig .x) exponent n)).complete

/-- MODEXP_PUB (44 R304). -/
def execModexpPub (s : State) : Host.Outcome State Fault Refusal := .next (modexpTransform s (s.getBig .e))

/-- MODEXP_PRIV (44 R305). -/
def execModexpPriv (s : State) : Host.Outcome State Fault Refusal := .next (modexpTransform s (s.getBig .d))

/-- WRAPKEY (44 R306). -/
def execWrapkey (s : State) : Host.Outcome State Fault Refusal :=
  if (roundsOf s.keyBytes.toNat).isNone then .next (s.raise .keylen)
  else
    let n := s.getBig .n
    if n < 2 then .next (s.raise .range)
    else
      let m := os2ip s.keyString
      if n ≤ m then .next (s.raise .range)
      else
        let c := modExp m (s.getBig .e) n
        let bs := minBytes c
        .next (((s.memWrite 0 bs).setDataLen bs.length).setBig .y c).complete

/-- UNWRAPKEY (44 R307). -/
def execUnwrapkey (s : State) : Host.Outcome State Fault Refusal :=
  if (roundsOf s.keyBytes.toNat).isNone then .next (s.raise .keylen)
  else
    let len := s.dataLen.toNat
    if s.params.bufBytes < len then .next (s.raise .length)
    else
      let n := s.getBig .n
      if n < 2 then .next (s.raise .range)
      else
        let c := os2ip (s.memRead 0 len)
        if n ≤ c then .next (s.raise .range)
        else
          let m := modExp c (s.getBig .d) n
          .next (((s.setKey (keyFromInt m s.keyBytes.toNat)).setBig .y m).clearKsValid).complete

end Sys2Proof.Machine
end

