-- ==== Sys2Proof/Machine/Dispatch.lean ====
section
/-! DEFINITION. The meaning of each command: its completion step (40 R132). -/

namespace Sys2Proof.Machine

def exec (i : Instr) (s : State) : Host.Outcome State Fault Refusal :=
  match i with
  | .nop => Sys2Proof.Machine.execNop s
  | .keyexp => Sys2Proof.Machine.execKeyexp s
  | .encBlock => Sys2Proof.Machine.execEncBlock s
  | .decBlock => Sys2Proof.Machine.execDecBlock s
  | .pad => Sys2Proof.Machine.execPad s
  | .unpad => Sys2Proof.Machine.execUnpad s
  | .ecbEnc => Sys2Proof.Machine.execEcbEnc s
  | .ecbDec => Sys2Proof.Machine.execEcbDec s
  | .encrypt => Sys2Proof.Machine.execEncrypt s
  | .decrypt => Sys2Proof.Machine.execDecrypt s
  | .primetest => Sys2Proof.Machine.execPrimetest s
  | .genprime => Sys2Proof.Machine.execGenprime s
  | .modinv => Sys2Proof.Machine.execModinv s
  | .keygen => Sys2Proof.Machine.execKeygen s
  | .modexpPub => Sys2Proof.Machine.execModexpPub s
  | .modexpPriv => Sys2Proof.Machine.execModexpPriv s
  | .wrapkey => Sys2Proof.Machine.execWrapkey s
  | .unwrapkey => Sys2Proof.Machine.execUnwrapkey s

end Sys2Proof.Machine
end

