-- ==== Sys2Proof/Machine/Engine.lean ====
section
/-! DEFINITION. Turns: the engine's step (40 R132), the host's accesses and RST between them (20 R83; 70 R400). -/

namespace Sys2Proof.Machine

/-- The engine's step: the running command's completion (40 R132); an idle engine takes no step (60 R367). -/
def engineTurn (s : State) : Host.Outcome State Fault Refusal :=
  match s.phase with
  | .idle             => .next s
  | .busy .badCmd     => completeBadCmd s
  | .busy (.instr i)  => exec i s

/-- One turn of whoever acts next (log entry 7). -/
def takeTurn (s : State) : Host.Outcome State Fault Refusal :=
  match s.turns with
  | []            => engineTurn s
  | .engine :: ts => engineTurn (s.setTurns ts)
  | .host a :: ts => .next ((s.setTurns ts).hostAccess a)
  | .rst :: ts    => .next (s.setTurns ts).assertRst

/-- The turns that make the engine act next: none needed where it does already (log entry 10). -/
def engineFirst : List Turn → List Turn
  | []            => []
  | .engine :: ts => .engine :: ts
  | ts            => .engine :: ts

/-- `s` with the host's write of command word `w` to CMD accepted (40 R131) and the engine to act next, so that the
very next step runs that command (log entry 10). -/
def placeCommand (s : State) (w : Word) : State := (s.accept w).setTurns (engineFirst s.turns)

end Sys2Proof.Machine
end

