-- ==== Sys2Proof/Safety.lean ====
section
/-! DEFINITION. What counts as a safe state, and the words the statements use: completion, the write set, the shape of
host accesses. -/

namespace Sys2Proof.Machine

/-- KS_VALID promises a current schedule: a valid KEY_BYTES, NR its Nr, and the store the expansion of KEYBYTES
(10 R40; 42 R200). -/
def State.scheduleCurrent (s : State) : Prop :=
  roundsOf s.keyBytes.toNat = some s.nr.toNat ∧ s.ks = keySchedule s.keyString

/-- While BUSY, DONE and ERR are as acceptance left them and LAST_CMD is the running opcode (40 R131, R137). -/
def State.busyCoherent (s : State) : Prop :=
  ∀ op, s.phase = .busy op → s.done = false ∧ s.err = .ok ∧ ∀ i, op = .instr i → s.lastCmd = opcode i

/-- The invariant of the block: legal parameters, a canonical buffer within BUF_BYTES (20 R71), big-number registers
within RSA_MAX_BITS bits (10 R36), a truthful KS_VALID (10 R40) and a coherent phase (40 R131). -/
structure State.Inv (s : State) : Prop where
  params      : s.params.valid = true
  bufWf       : s.buf.wf
  bufInRange  : ∀ c ∈ s.buf, c.1 < s.params.bufBytes
  bigInRange  : ∀ r, s.getBig r < 2 ^ s.params.rsaMaxBits
  schedule    : s.ksValid = true → s.scheduleCurrent
  phase       : s.busyCoherent

/-- Whether an AES command finds or can build a schedule (42 R200, R201). -/
def State.keyReady (s : State) : Prop :=
  s.ksValid = true ∨ s.keyBytes.toNat = 16 ∨ s.keyBytes.toNat = 24 ∨ s.keyBytes.toNat = 32

/-- The state EnsureSchedule leaves where it does not raise: the stored schedule, or the expansion of KEYBYTES with
Nr = KEY_BYTES/4 + 6 and KS_VALID = 1 (42 R201; 41 R163, R170). -/
def State.scheduled (s : State) : State :=
  if s.ksValid then s
  else { s with ks := keySchedule s.keyString, nr := BitVec.ofNat 8 (s.keyBytes.toNat / 4 + 6), ksValid := true }

/-- The host's next turn is a whole, aligned word access at offset `off` of the block (20 R75, R78). -/
def State.nextAccess (s : State) (off : Offset) (dir : Dir) (ts : List Turn) : Prop :=
  ∃ addr, s.turns = .host ⟨addr, dir, 0xF#4⟩ :: ts ∧ decodeAddr s.params addr = some off ∧ offsetAligned off = true

/-- The bits of a read-write location that a host write stores; none for a location that stores nothing a host
writes, or that a write acts on otherwise (10, 20 R70). -/
def writeMask (p : Params) : Loc → Option Word
  | .ctrl     => some 0x00000001#32
  | .keyBytes => some 0x000000FF#32
  | .dataLen  => some 0x0000FFFF#32
  | .mrRounds => some 0x000000FF#32
  | .rsaBits  => some 0x0000FFFF#32
  | .key _    => some 0xFFFFFFFF#32
  | .din _    => some 0xFFFFFFFF#32
  | .big _ i  => some (if i.val < p.rsaMaxBits / 32 then 0xFFFFFFFF#32 else 0x00000000#32)
  | .buf j    => some (if 4 * j.val < p.bufBytes then 0xFFFFFFFF#32 else 0x00000000#32)
  | .id | .cfg | .cmd | .status | .nr | .dout _ | .ks _ | .reserved => none

/-- A round of the Miller–Rabin test that base `a` passes, for n − 1 = d · 2^r (43 R256). -/
def passesRound (n d r a : Nat) : Prop := a ^ d % n = 1 ∨ ∃ j < r, a ^ (d * 2 ^ j) % n = n - 1

/-- The locations of 30 R104's "writes" column, STATUS apart. KS and NR stand for every command that may expand; a
big-number word stands only below RSA_WORDS (10 R37), a buffer word only below BUF_BYTES (20 R70, R71). -/
def writesOf (p : Params) (i : Instr) : Loc → Prop
  | .ks _ => i ∈ [Instr.keyexp, .encBlock, .decBlock, .ecbEnc, .ecbDec, .encrypt, .decrypt]
  | .nr => i ∈ [Instr.keyexp, .encBlock, .decBlock, .ecbEnc, .ecbDec, .encrypt, .decrypt, .unwrapkey]
  | .dout _ => i ∈ [Instr.encBlock, .decBlock]
  | .buf j => 4 * j.val + 4 ≤ p.bufBytes ∧ i ∈ [Instr.pad, .ecbEnc, .ecbDec, .encrypt, .decrypt, .wrapkey]
  | .dataLen => i ∈ [Instr.pad, .unpad, .encrypt, .decrypt, .wrapkey]
  | .key _ => i = .unwrapkey
  | .big .x j => j.val < p.rsaMaxBits / 32 ∧ i = .genprime
  | .big .y j => j.val < p.rsaMaxBits / 32 ∧ i ∈ [Instr.modinv, .modexpPub, .modexpPriv, .wrapkey, .unwrapkey]
  | .big .n j | .big .e j | .big .d j | .big .p j | .big .q j | .big .phi j =>
    j.val < p.rsaMaxBits / 32 ∧ i = .keygen
  | .id | .cfg | .ctrl | .cmd | .status | .keyBytes | .mrRounds | .rsaBits | .din _ | .reserved => False

/-- Whether the running command's write set holds a location (40 R138): 30 R104's "writes" column, and for PAD, of the
buffer, the words that hold one of the pad bytes; none for BADCMD, which writes nothing (40 R133). -/
def State.writing (s : State) : Command → Loc → Prop
  | .badCmd, _ => False
  | .instr i, l => writesOf s.params i l ∧ (i = .pad → ∀ j, l = .buf j →
      ∃ a, 4 * j.val ≤ a ∧ a < 4 * j.val + 4 ∧ s.dataLen.toNat ≤ a ∧
        a < s.dataLen.toNat + (16 - s.dataLen.toNat % 16))

/-- The errors each command can report (60 R350, "raised by"). -/
def errorsOf : Instr → List ErrCode
  | .nop => []
  | .keyexp | .encBlock | .decBlock => [.keylen]
  | .pad => [.length]
  | .unpad => [.length, .padding]
  | .ecbEnc | .ecbDec | .encrypt => [.keylen, .length]
  | .decrypt => [.keylen, .length, .padding]
  | .primetest | .genprime | .keygen => [.badarg]
  | .modinv => [.noinv, .range]
  | .modexpPub | .modexpPriv => [.range]
  | .wrapkey => [.keylen, .range]
  | .unwrapkey => [.keylen, .length, .range]

end Sys2Proof.Machine
end

