-- ==== Sys2Proof/Certificates/Slice0/Obligations.lean ====
section
/-! DEFINITION. The statements for the provers, from the numbered rules of spec/. -/

open Sys2Proof Sys2Proof.Machine

/-! Encoding. -/

/-- 30 R111, and words of every family from the opcode map (30 R103) with the reserved words of 95 V26. -/
def Obligations.CommandWordsDecodeAsTheMapSays : Prop :=
  locate 0x000C#16 = .cmd ∧ locate 0x0040#16 = .key 0 ∧ encode .encrypt = 0x00000008#32 ∧
  encode .keygen = 0x00000013#32 ∧
  decode 0x00000000#32 = .ok .nop ∧ decode 0x00000001#32 = .ok .keyexp ∧ decode 0x00000005#32 = .ok .unpad ∧
  decode 0x00000008#32 = .ok .encrypt ∧ decode 0x00000009#32 = .ok .decrypt ∧
  decode 0x00000010#32 = .ok .primetest ∧ decode 0x00000013#32 = .ok .keygen ∧
  decode 0x00000017#32 = .ok .unwrapkey ∧
  decodeCommand 0x00000108#32 = .badCmd ∧ decodeCommand 0x0000000A#32 = .badCmd ∧
  decodeCommand 0x00000018#32 = .badCmd ∧ decodeCommand 0x000000FF#32 = .badCmd ∧
  decodeCommand 0x80000000#32 = .badCmd

/-- 30 R101, R102, R103, R105: a word is the command word of `i` exactly when it decodes to `i`; a word that is the
command word of none, as its RSV or its OP shows, is BADCMD. -/
def Obligations.DecodeAndEncodeAgree : Prop :=
  (∀ i, decode (encode i) = .ok i) ∧
  (∀ w i, decode w = .ok i → w = encode i) ∧
  (∀ w, decodeCommand w = .badCmd ↔
    w.extractLsb' 8 24 ≠ 0#24 ∨ (0x0A ≤ w.toNat ∧ w.toNat ≤ 0x0F) ∨ 0x18 ≤ w.toNat)

/-- 20 R75, R76, R70 and the offset of every register rule of 10, by value: an address in the 64 KiB at BASE has the
offset addr − BASE; each location has one offset and each aligned offset one location; the reserved offsets are those the
map reserves. That any other address has no offset in the block is the model's choice, not the spec's (log entry 8). -/
def Obligations.OffsetsAndLocationsAgree : Prop :=
  (∀ (p : Params) addr, p.base ≤ addr → addr < p.base + 0x10000 →
    ∃ off, decodeAddr p addr = some off ∧ off.toNat = addr - p.base) ∧
  (∀ (p : Params) addr, addr < p.base ∨ p.base + 0x10000 ≤ addr → decodeAddr p addr = none) ∧
  (offsetOf .id = some 0x000#16 ∧ offsetOf .cfg = some 0x004#16 ∧ offsetOf .ctrl = some 0x008#16 ∧
    offsetOf .cmd = some 0x00C#16 ∧ offsetOf .status = some 0x010#16 ∧ offsetOf .keyBytes = some 0x014#16 ∧
    offsetOf .dataLen = some 0x018#16 ∧ offsetOf .nr = some 0x01C#16 ∧ offsetOf .mrRounds = some 0x020#16 ∧
    offsetOf .rsaBits = some 0x024#16) ∧
  (∀ i : Fin 8, offsetOf (.key i) = some (BitVec.ofNat 16 (0x040 + 4 * i.val))) ∧
  (∀ i : Fin 4, offsetOf (.din i) = some (BitVec.ofNat 16 (0x060 + 4 * i.val)) ∧
    offsetOf (.dout i) = some (BitVec.ofNat 16 (0x070 + 4 * i.val))) ∧
  (∀ i : Fin 60, offsetOf (.ks i) = some (BitVec.ofNat 16 (0x100 + 4 * i.val))) ∧
  (∀ i : Fin 128, ∀ rb ∈ [(BigReg.n, 0x1000), (.e, 0x1200), (.d, 0x1400), (.p, 0x1600), (.q, 0x1800), (.phi, 0x1A00),
      (.x, 0x1C00), (.y, 0x1E00)], offsetOf (.big rb.1 i) = some (BitVec.ofNat 16 (rb.2 + 4 * i.val))) ∧
  (∀ j : Fin 4096, offsetOf (.buf j) = some (BitVec.ofNat 16 (0x4000 + 4 * j.val))) ∧
  (∀ l off, offsetOf l = some off → locate off = l ∧ offsetAligned off = true) ∧
  (∀ off, offsetAligned off = true → locate off ≠ .reserved → offsetOf (locate off) = some off) ∧
  (∀ off, locate off = .reserved ↔
    (0x0028 ≤ off.toNat ∧ off.toNat ≤ 0x003F) ∨ (0x0080 ≤ off.toNat ∧ off.toNat ≤ 0x00FF) ∨
    (0x01F0 ≤ off.toNat ∧ off.toNat ≤ 0x0FFF) ∨ (0x2000 ≤ off.toNat ∧ off.toNat ≤ 0x3FFF) ∨ 0x8000 ≤ off.toNat)

/-! Control. -/

/-- 40 R132, R133 with the model's turns (log entries 7 and 10): while the phase is BUSY with command `i`, the engine's
turn is exec of `i`, with BADCMD it is that error's completion, and an idle engine takes no step (60 R367; that its turn
is a stutter is the model's, log entry 7); a host's turn is its access, which outside the block changes nothing and is
not answered (the model's choice, log entry 8), and RST's turn is reset; and a word placed by withFetchWord is what the
next step runs, the command it decodes to or BADCMD. -/
def Obligations.StepRunsTheDecodedCommand : Prop :=
  (∀ (s u : State) ts, (s.turns = [] ∧ u = s ∨ s.turns = .engine :: ts ∧ u = { s with turns := ts }) →
    (∀ i, s.phase = .busy (.instr i) → step s = exec i u) ∧
    (s.phase = .busy .badCmd → step s = .next { u with err := .badcmd, phase := .idle, done := true }) ∧
    (s.phase = .idle → step s = .next u)) ∧
  (∀ (s : State) a ts, s.turns = .host a :: ts →
    step s = .next (State.hostAccess { s with turns := ts } a) ∧
    (decodeAddr s.params a.addr = none → step s = .next { s with turns := ts, response := none })) ∧
  (∀ (s : State) ts, s.turns = .rst :: ts → step s = .next (State.assertRst { s with turns := ts })) ∧
  (∀ (s : State) nbits w v, v = BitVec.ofNat 32 (w % 2 ^ nbits) → ∃ ts, (s.turns = [] → ts = []) ∧
    (∀ i, decode v = .ok i →
      step (s.withFetchWord nbits w) =
        exec i { s with lastCmd := opcode i, done := false, err := .ok, phase := .busy (.instr i), turns := ts }) ∧
    ((∀ i, decode v ≠ .ok i) →
      step (s.withFetchWord nbits w) =
        .next { s with
          lastCmd := v.extractLsb' 0 8, done := true, err := .badcmd, phase := .idle, turns := ts }))

/-- 40 R131 (and R130 for the IDLE engine): acceptance of word `w`, as one atomic step, and nothing else. -/
def Obligations.IdleCommandWriteIsAccepted : Prop :=
  ∀ s w ts, s.phase = .idle → s.nextAccess 0x00C#16 (.write w) ts →
    step s = .next { s with
      lastCmd := w.extractLsb' 0 8, done := false, err := .ok, phase := .busy (decodeCommand w),
      turns := ts, response := some ⟨false, 0#32⟩ }

/-- 40 R139, with R134's effect: NOP completes and changes only ERR, BUSY and DONE. -/
def Obligations.NopOnlyCompletes : Prop :=
  decode 0x00000000#32 = .ok .nop ∧
  ∀ s, exec .nop s = .next { s with err := .ok, phase := .idle, done := true }

/-- 40 R133: when op is BADCMD, completion raises BADCMD and changes nothing else. -/
def Obligations.BadcmdOnlyReportsItself : Prop :=
  ∀ s : State, s.phase = .busy .badCmd →
    engineTurn s = .next { s with err := .badcmd, phase := .idle, done := true }

/-- 40 R140, first sentence: every command except GENPRIME and KEYGEN completes for every input and every sequence of
draws, and no command stops the machine. The draws of a sequence that State does not name are free values. -/
def Obligations.EveryCommandButTwoCompletes : Prop :=
  ∀ i s, ∃ t, exec i s = .next t ∧ (i ≠ .genprime → i ≠ .keygen → t.phase = .idle ∧ t.done = true)

/-- 40 R140 with log entry 4 (the model's choice): where the draws listed do not settle GENPRIME or KEYGEN with legal
operands, the command does not complete; the engine stays as it is, keeps its draws, and more are supplied behind them.
So it is with no draw at all, with too few draws for a candidate's bases, and with too few for q after p; a candidate
that fails leaves the search to the draws behind its own. -/
def Obligations.PrimeSearchWaitsForDraws : Prop :=
  (∀ s : State, s.mrRounds ≠ 0#8 →
    (2 ≤ s.rsaBits.toNat → s.rsaBits.toNat ≤ s.params.rsaMaxBits →
      genPrime s.rsaBits.toNat s.mrRounds.toNat s.draws = none →
      ∃ t more, exec .genprime s = .next t ∧ t = { s with draws := s.draws ++ more, fresh := t.fresh } ∧ more ≠ []) ∧
    (s.rsaBits.toNat % 2 = 0 → 16 ≤ s.rsaBits.toNat → s.rsaBits.toNat ≤ s.params.rsaMaxBits →
      keyPrimes s.rsaBits.toNat s.mrRounds.toNat s.draws = none →
      ∃ t more, exec .keygen s = .next t ∧ t = { s with draws := s.draws ++ more, fresh := t.fresh } ∧ more ≠ [])) ∧
  (∀ h k, genPrime h k [] = none) ∧
  (∀ h k c v ds, c = v % 2 ^ h ||| 2 ^ (h - 1) ||| 1 →
    (isProbablePrime c k ds = none → genPrime h k (v :: ds) = none) ∧
    (∀ rest, isProbablePrime c k ds = some (false, rest) → genPrime h k (v :: ds) = genPrime h k rest)) ∧
  (∀ b k ds,
    (genPrime (b / 2) k ds = none → keyPrimes b k ds = none) ∧
    (∀ p rest, genPrime (b / 2) k ds = some (p, rest) → genPrime (b / 2) k rest = none → keyPrimes b k ds = none))

/-! The bus. -/

/-- 20 R78, 60 R359: a misaligned access, or one that enables fewer than four byte lanes, gets BERR, reads 0 and
changes no state of the block; any other is served without BERR. -/
def Obligations.OnlyWholeAlignedAccessesAreServed : Prop :=
  ∀ (s : State) a off, decodeAddr s.params a.addr = some off →
    ((off.extractLsb' 0 2 ≠ 0#2 ∨ a.lanes ≠ 0xF#4) →
      s.hostAccess a = { s with response := some ⟨true, 0#32⟩ }) ∧
    ((off.extractLsb' 0 2 = 0#2 ∧ a.lanes = 0xF#4) → ∃ data, (s.hostAccess a).response = some ⟨false, data⟩)

/-- 20 R80, first bullet, and 10's access columns: a read has no side effect at any offset (the model's own response
and counter of free values apart), and while the engine is IDLE it returns the current value. -/
def Obligations.ReadsHaveNoSideEffect : Prop :=
  ∀ s off ts, s.nextAccess off .read ts →
    (∃ t, step s = .next t ∧ t = { s with turns := ts, response := t.response, fresh := t.fresh }) ∧
    (s.phase = .idle →
      step s = .next { s with turns := ts, response := some ⟨false, s.locWord (locate off)⟩ })

/-- 20 R77: a reserved offset reads as zero and ignores writes, without error, in every phase. 10 R37, 20 R70: aperture
words from RSA_WORDS on and window words past BUF_BYTES read as zero in every phase, whatever command runs. -/
def Obligations.ReservedOffsetsReadZeroIgnoreWrites : Prop :=
  ∀ s off w ts,
    (locate off = .reserved →
      (s.nextAccess off .read ts → step s = .next { s with turns := ts, response := some ⟨false, 0#32⟩ }) ∧
      (s.nextAccess off (.write w) ts → step s = .next { s with turns := ts, response := some ⟨false, 0#32⟩ })) ∧
    ((∃ r i, locate off = .big r i ∧ s.params.rsaMaxBits / 32 ≤ i.val) ∨
        (∃ j, locate off = .buf j ∧ s.params.bufBytes < 4 * j.val + 4) →
      s.nextAccess off .read ts → step s = .next { s with turns := ts, response := some ⟨false, 0#32⟩ })

/-- 10 R22 to R24, R26 to R37, R41 and 20 R70, R80: a host write while the engine is IDLE. To a read-write location, the
word reads back under the location's mask and every other location keeps its value, except that a write to KEYi or
KEY_BYTES, and no other, clears KS_VALID: of STATUS that bit alone changes, and NR then reads 0. To STATUS, a 1 clears
DONE or WERR and every other bit is ignored. To a read-only location it is ignored. -/
def Obligations.IdleWritesStoreAndKeepTheRest : Prop :=
  ∀ (s : State) off w ts l, s.params.valid = true → s.phase = .idle → s.nextAccess off (.write w) ts → l = locate off →
    (∀ mask, writeMask s.params l = some mask →
      ∃ t, step s = .next t ∧
        t = { s with
          irqEn := t.irqEn, keyBytes := t.keyBytes, dataLen := t.dataLen, mrRounds := t.mrRounds, rsaBits := t.rsaBits,
          key := t.key, din := t.din, big := t.big, buf := t.buf, ksValid := t.ksValid, turns := ts,
          response := some ⟨false, 0#32⟩ } ∧
        t.locWord l = w &&& mask ∧
        (∀ l', l' ≠ l → l' ≠ .status → l' ≠ .nr → t.locWord l' = s.locWord l') ∧
        ((l = .keyBytes ∨ ∃ i, l = .key i) →
          t.ksValid = false ∧ t.locWord .status = s.locWord .status &&& 0xFFFFFFFB#32 ∧ t.locWord .nr = 0#32) ∧
        (¬ (l = .keyBytes ∨ ∃ i, l = .key i) →
          t.ksValid = s.ksValid ∧ t.locWord .status = s.locWord .status ∧ t.locWord .nr = s.locWord .nr)) ∧
    (l = .status → step s = .next { s with
      done := s.done && !w.getLsbD 1, werr := s.werr && !w.getLsbD 4, turns := ts, response := some ⟨false, 0#32⟩ }) ∧
    ((l = .id ∨ l = .cfg ∨ l = .nr ∨ (∃ i, l = .dout i) ∨ ∃ i, l = .ks i) →
      step s = .next { s with turns := ts, response := some ⟨false, 0#32⟩ })

/-- 40 R137, and R130 for a command request: while BUSY, CTRL and STATUS take a write, a reserved offset ignores it,
and a write to any other place is dropped and sets WERR. The model's reading (log entry 6): read-only registers and
the words past RSA_WORDS or BUF_BYTES are such places. -/
def Obligations.BusyWritesAreDropped : Prop :=
  ∀ s op off w ts, s.phase = .busy op → s.nextAccess off (.write w) ts →
    step s = .next (
      if locate off = .ctrl then
        { s with irqEn := w.getLsbD 0, turns := ts, response := some ⟨false, 0#32⟩ }
      else if locate off = .status then
        { s with done := s.done && !w.getLsbD 1, werr := s.werr && !w.getLsbD 4, turns := ts,
                 response := some ⟨false, 0#32⟩ }
      else if locate off = .reserved then { s with turns := ts, response := some ⟨false, 0#32⟩ }
      else { s with werr := true, turns := ts, response := some ⟨false, 0#32⟩ })

/-- 40 R138 with the model's reading of the write sets (log entry 5): while BUSY, a read in the running command's write
set returns a free value, and any other read the current value. So STATUS, CTRL, ID and CFG always read their current
value, PAD frees DATA_LEN and the words with pad bytes, and BADCMD frees nothing. -/
def Obligations.BusyReadsOfTheWriteSetAreFree : Prop :=
  ∀ s op off ts, s.phase = .busy op → s.nextAccess off .read ts →
    (s.writing op (locate off) →
      step s =
        .next { s with turns := ts, response := some ⟨false, Config.freeRead s.fresh⟩, fresh := s.fresh + 1 }) ∧
    (¬ s.writing op (locate off) →
      step s = .next { s with turns := ts, response := some ⟨false, s.locWord (locate off)⟩ })

/-- 10 R22 to R37, 20 R70, R73, 60 R350: what each location reads, in every state. The fields of STATUS, CTRL and CFG
stand where the tables put them, reserved bits read as 0, and ERR holds the code that R350's table gives each error. NR
reads 0 while KS_VALID = 0, CMD reads 0, word i of a big-number register is bits [32i+31:32i] of the integer, and a
buffer word holds its lowest byte in bits [31:24]; words past RSA_WORDS or BUF_BYTES read 0. -/
def Obligations.LocationsReadWhatTheirRulesSay : Prop :=
  ∀ s : State,
    (∀ w, w = s.locWord .status →
      (w.getLsbD 0 = true ↔ s.phase ≠ .idle) ∧ w.getLsbD 1 = s.done ∧ w.getLsbD 2 = s.ksValid ∧
      w.getLsbD 3 = s.result ∧ w.getLsbD 4 = s.werr ∧ w.extractLsb' 5 3 = 0#3 ∧ w.extractLsb' 8 4 = errBits s.err ∧
      w.extractLsb' 12 4 = 0#4 ∧ w.extractLsb' 16 8 = s.lastCmd ∧ w.extractLsb' 24 8 = 0#8) ∧
    ((s.locWord .ctrl).getLsbD 0 = s.irqEn ∧ (s.locWord .ctrl).extractLsb' 1 31 = 0#31) ∧
    ((s.locWord .cfg).extractLsb' 0 16 = BitVec.ofNat 16 (s.params.bufBytes / 16) ∧
      (s.locWord .cfg).extractLsb' 16 16 = BitVec.ofNat 16 (s.params.rsaMaxBits / 32)) ∧
    (errBits .ok = 0#4 ∧ errBits .keylen = 1#4 ∧ errBits .length = 2#4 ∧ errBits .padding = 3#4 ∧
      errBits .noinv = 4#4 ∧ errBits .range = 5#4 ∧ errBits .badarg = 6#4 ∧ errBits .badcmd = 7#4) ∧
    (s.locWord .id = 0x53464131#32 ∧ s.locWord .cmd = 0#32 ∧ s.locWord .reserved = 0#32) ∧
    ((s.locWord .keyBytes).toNat = s.keyBytes.toNat ∧ (s.locWord .dataLen).toNat = s.dataLen.toNat ∧
      (s.locWord .mrRounds).toNat = s.mrRounds.toNat ∧ (s.locWord .rsaBits).toNat = s.rsaBits.toNat) ∧
    (s.locWord .nr).toNat = (if s.ksValid then s.nr.toNat else 0) ∧
    (∀ i : Fin 8, s.locWord (.key i) = s.key[i]) ∧ (∀ i : Fin 60, s.locWord (.ks i) = s.ks[i]) ∧
    (s.locWord (.din 0) = s.din.c0 ∧ s.locWord (.din 1) = s.din.c1 ∧ s.locWord (.din 2) = s.din.c2 ∧
      s.locWord (.din 3) = s.din.c3) ∧
    (s.locWord (.dout 0) = s.dout.c0 ∧ s.locWord (.dout 1) = s.dout.c1 ∧ s.locWord (.dout 2) = s.dout.c2 ∧
      s.locWord (.dout 3) = s.dout.c3) ∧
    (s.getBig .n = s.big.n ∧ s.getBig .e = s.big.e ∧ s.getBig .d = s.big.d ∧ s.getBig .p = s.big.p ∧
      s.getBig .q = s.big.q ∧ s.getBig .phi = s.big.phi ∧ s.getBig .x = s.big.x ∧ s.getBig .y = s.big.y) ∧
    (∀ r (i : Fin 128), (s.locWord (.big r i)).toNat =
      if i.val < s.params.rsaMaxBits / 32 then s.getBig r / 2 ^ (32 * i.val) % 2 ^ 32 else 0) ∧
    (∀ j : Fin 4096, s.locWord (.buf j) =
      if 4 * j.val + 4 ≤ s.params.bufBytes then
        s.readByte (4 * j.val) ++ s.readByte (4 * j.val + 1) ++ s.readByte (4 * j.val + 2) ++ s.readByte (4 * j.val + 3)
      else 0#32) ∧
    (∀ i : Nat, i < s.keyBytes.toNat → i < 32 →
      s.keyString.getD i 0#8 = (s.key.toList.getD (i / 4) 0#32).extractLsb' (8 * (3 - i % 4)) 8)

/-- 60 R360: IRQ is IRQ_EN and DONE; it is asserted when a command completes while IRQ_EN = 1, at once when IRQ_EN is
set while DONE = 1, and deasserted by clearing DONE, by acceptance, by clearing IRQ_EN and by RST. -/
def Obligations.IrqFollowsDoneAndItsEnable : Prop :=
  (∀ s : State, s.irq = (s.irqEn && s.done)) ∧
  (∀ s t : State, engineTurn s = .next t → s.phase ≠ .idle → t.phase = .idle → t.irq = s.irqEn) ∧
  (∀ (s : State) w, (s.store .ctrl w).irq = (w.getLsbD 0 && s.done)) ∧
  (∀ (s : State) w, w.getLsbD 1 = true → (s.store .status w).irq = false) ∧
  (∀ (s : State) w, (s.accept w).irq = false) ∧
  (∀ s : State, s.assertRst.irq = false)

/-! Reset. -/

/-- 70 R402, every row but the buffer's, for every legal machine: what each register reads right after reset. -/
def Obligations.ResetValuesAreR402s : Prop :=
  ∀ p : Params, p.valid = true →
    let s := State.resetWith p
    s.locWord .id = 0x53464131#32 ∧
    s.locWord .cfg = BitVec.ofNat 16 (p.rsaMaxBits / 32) ++ BitVec.ofNat 16 (p.bufBytes / 16) ∧
    s.locWord .ctrl = 0#32 ∧ s.locWord .cmd = 0#32 ∧ s.locWord .status = 0#32 ∧ s.locWord .keyBytes = 0#32 ∧
    s.locWord .dataLen = 0#32 ∧ s.locWord .nr = 0#32 ∧ s.locWord .mrRounds = 16#32 ∧ s.locWord .rsaBits = 0#32 ∧
    (∀ i, s.locWord (.key i) = 0#32) ∧ (∀ i, s.locWord (.din i) = 0#32) ∧ (∀ i, s.locWord (.dout i) = 0#32) ∧
    (∀ i, s.locWord (.ks i) = 0#32) ∧ (∀ r i, s.locWord (.big r i) = 0#32) ∧
    s.phase = .idle ∧ s.irq = false

/-- 70 R400: RST, as one atomic step from any state, leaves every register at its reset value, the phase IDLE and no
buffer byte written; the parameters stay. -/
def Obligations.RstResetsEverything : Prop :=
  ∀ s ts, s.turns = .rst :: ts →
    ∃ t, step s = .next t ∧
      t = { State.resetWith s.params with turns := ts, fresh := t.fresh, epoch := t.epoch }

/-! AES. -/

/-- 41 R152: the S-box is the multiplicative inverse in GF(2^8), 0 for 0, followed by the affine map and 0x63. -/
def Obligations.SboxIsInverseThenAffine : Prop :=
  ∀ x : Byte, ∃ y : Byte,
    ((x = 0#8 ∧ y = 0#8) ∨ gmul x y = 1#8) ∧
    ∀ i < 8, (sbox x).getLsbD i =
      ((y.getLsbD i ^^ y.getLsbD ((i + 4) % 8) ^^ y.getLsbD ((i + 5) % 8) ^^ y.getLsbD ((i + 6) % 8)
        ^^ y.getLsbD ((i + 7) % 8)) ^^ (0x63#8).getLsbD i)

/-- 41 R153: InvSbox[Sbox[x]] = x for every byte, and so the other way round. -/
def Obligations.InvSboxUndoesSbox : Prop :=
  ∀ x : Byte, invSbox (sbox x) = x ∧ sbox (invSbox x) = x

/-- 41 R154, R155, R157, R158, R159 on the byte string of the state, where byte r + 4c is row r, column c
(00 R12). -/
def Obligations.RoundFunctionsMoveBytesAsStated : Prop :=
  ∀ (s : Block) (ks : Vector Word 60) (n r c : Nat), r < 4 → c < 4 →
    (blockBytes (subBytes s)).getD (r + 4 * c) 0#8 = sbox ((blockBytes s).getD (r + 4 * c) 0#8) ∧
    (blockBytes (invSubBytes s)).getD (r + 4 * c) 0#8 = invSbox ((blockBytes s).getD (r + 4 * c) 0#8) ∧
    (blockBytes (shiftRows s)).getD (r + 4 * c) 0#8 = (blockBytes s).getD (r + 4 * ((c + r) % 4)) 0#8 ∧
    (blockBytes (invShiftRows s)).getD (r + 4 * c) 0#8 = (blockBytes s).getD (r + 4 * ((c + 4 - r) % 4)) 0#8 ∧
    (blockBytes (addRoundKey ks s n)).getD (r + 4 * c) 0#8 =
      (blockBytes s).getD (r + 4 * c) 0#8 ^^^ (wordBytes (ks.toList.getD (4 * n + c) 0#32)).getD r 0#8

/-- 41 R156, R160, R151: MixColumns multiplies each column by the matrix with rows 02 03 01 01 rotated, where 02 times a
byte is its shift reduced by 0x1B; InvMixColumns multiplies each column by the one with rows 0E 0B 0D 09, and is its
inverse. -/
def Obligations.MixColumnsHasItsInverse : Prop :=
  (∀ a : Byte, gmul 0x02#8 a = (a <<< 1) ^^^ (if a.getLsbD 7 then 0x1B#8 else 0x00#8) ∧
    gmul 0x03#8 a = gmul 0x02#8 a ^^^ a) ∧
  (∀ s : Block,
    mixColumns s = ⟨mixColumn s.c0, mixColumn s.c1, mixColumn s.c2, mixColumn s.c3⟩ ∧
    invMixColumns s = ⟨invMixColumn s.c0, invMixColumn s.c1, invMixColumn s.c2, invMixColumn s.c3⟩) ∧
  (∀ a0 a1 a2 a3 : Byte, invMixColumn (packWord a0 a1 a2 a3) = packWord
    (gmul 0x0E#8 a0 ^^^ gmul 0x0B#8 a1 ^^^ gmul 0x0D#8 a2 ^^^ gmul 0x09#8 a3)
    (gmul 0x09#8 a0 ^^^ gmul 0x0E#8 a1 ^^^ gmul 0x0B#8 a2 ^^^ gmul 0x0D#8 a3)
    (gmul 0x0D#8 a0 ^^^ gmul 0x09#8 a1 ^^^ gmul 0x0E#8 a2 ^^^ gmul 0x0B#8 a3)
    (gmul 0x0B#8 a0 ^^^ gmul 0x0D#8 a1 ^^^ gmul 0x09#8 a2 ^^^ gmul 0x0E#8 a3)) ∧
  (∀ a0 a1 a2 a3 : Byte, mixColumn (packWord a0 a1 a2 a3) = packWord
    (gmul 0x02#8 a0 ^^^ gmul 0x03#8 a1 ^^^ a2 ^^^ a3) (a0 ^^^ gmul 0x02#8 a1 ^^^ gmul 0x03#8 a2 ^^^ a3)
    (a0 ^^^ a1 ^^^ gmul 0x02#8 a2 ^^^ gmul 0x03#8 a3) (gmul 0x03#8 a0 ^^^ a1 ^^^ a2 ^^^ gmul 0x02#8 a3)) ∧
  (∀ s : Block, invMixColumns (mixColumns s) = s ∧ mixColumns (invMixColumns s) = s)

/-- 41 R180, R181: Cipher is AddRoundKey 0, then rounds 1 to Nr − 1 of SubBytes, ShiftRows, MixColumns and AddRoundKey,
then a last round with no MixColumns; InvCipher is AddRoundKey Nr, InvShiftRows and InvSubBytes, then rounds Nr − 1 down
to 1 of AddRoundKey, InvMixColumns, InvShiftRows and InvSubBytes, then AddRoundKey 0. `f r` and `g r` are the states
after round r. -/
def Obligations.CipherRunsItsRounds : Prop :=
  ∀ (ks : Vector Word 60) (nr : Nat) (b : Block) (f g : Nat → Block), 1 ≤ nr →
    (f 0 = addRoundKey ks b 0 →
      (∀ r, 1 ≤ r → r < nr → f r = addRoundKey ks (mixColumns (shiftRows (subBytes (f (r - 1))))) r) →
      cipher ks nr b = addRoundKey ks (shiftRows (subBytes (f (nr - 1)))) nr) ∧
    (g nr = invSubBytes (invShiftRows (addRoundKey ks b nr)) →
      (∀ r, 1 ≤ r → r < nr → g r = invSubBytes (invShiftRows (invMixColumns (addRoundKey ks (g (r + 1)) r)))) →
      invCipher ks nr b = addRoundKey ks (g 1) 0)

/-- 41 R182: InvCipher and Cipher undo each other on every block, so that Cipher is a permutation; here for every stored
schedule and round count. -/
def Obligations.InvCipherUndoesCipher : Prop :=
  ∀ (ks : Vector Word 60) (nr : Nat) (b : Block),
    invCipher ks nr (cipher ks nr b) = b ∧ cipher ks nr (invCipher ks nr b) = b ∧ Function.Bijective (cipher ks nr)

/-- 42 R202, 41 R170, R161, R162: KEYEXP with a valid key completes with the schedule of the recurrence in KS, zero words
after it, NR = Nr and KS_VALID = 1, and changes nothing else; with any other key length it raises KEYLEN, keeps the KS
words and clears KS_VALID. RotWord, SubWord and Rcon[1..10] are as their rules state them. -/
def Obligations.KeyexpExpandsTheKey : Prop :=
  decode 0x00000001#32 = .ok .keyexp ∧
  (∀ b0 b1 b2 b3 : Byte, rotWord (packWord b0 b1 b2 b3) = packWord b1 b2 b3 b0 ∧
    subWord (packWord b0 b1 b2 b3) = packWord (sbox b0) (sbox b1) (sbox b2) (sbox b3)) ∧
  (rcon 1 = 0x01000000#32 ∧ rcon 2 = 0x02000000#32 ∧ rcon 3 = 0x04000000#32 ∧ rcon 4 = 0x08000000#32 ∧
    rcon 5 = 0x10000000#32 ∧ rcon 6 = 0x20000000#32 ∧ rcon 7 = 0x40000000#32 ∧ rcon 8 = 0x80000000#32 ∧
    rcon 9 = 0x1B000000#32 ∧ rcon 10 = 0x36000000#32) ∧
  (∀ s nk, s.keyBytes.toNat = 4 * nk → nk = 4 ∨ nk = 6 ∨ nk = 8 →
    ∃ t, exec .keyexp s = .next t ∧
      t = { s with ks := t.ks, nr := t.nr, ksValid := true, err := .ok, phase := .idle, done := true } ∧
      t.nr.toNat = nk + 6 ∧
      (∀ i < nk, ksWord t.ks i = s.key.toList.getD i 0#32) ∧
      (∀ i, nk ≤ i → i < 4 * (nk + 7) → ksWord t.ks i = ksWord t.ks (i - nk) ^^^
        (if i % nk = 0 then subWord (rotWord (ksWord t.ks (i - 1))) ^^^ rcon (i / nk)
         else if nk = 8 ∧ i % nk = 4 then subWord (ksWord t.ks (i - 1))
         else ksWord t.ks (i - 1))) ∧
      (∀ i, 4 * (nk + 7) ≤ i → ksWord t.ks i = 0#32)) ∧
  (∀ s, s.keyBytes.toNat ≠ 16 → s.keyBytes.toNat ≠ 24 → s.keyBytes.toNat ≠ 32 →
    exec .keyexp s = .next { s with ksValid := false, err := .keylen, phase := .idle, done := true })

/-- 42 R203, R204, R201: with a schedule stored or a valid key, ENC_BLOCK and DEC_BLOCK complete with DOUT the
transform of DIN under the ensured schedule, and change nothing else. -/
def Obligations.BlockCommandsTransformDin : Prop :=
  decode 0x00000002#32 = .ok .encBlock ∧ decode 0x00000003#32 = .ok .decBlock ∧
  ∀ s : State, s.keyReady → ∀ u, u = s.scheduled →
    exec .encBlock s = .next { u with dout := cipher u.ks u.nr.toNat s.din, err := .ok, phase := .idle, done := true } ∧
    exec .decBlock s =
      .next { u with dout := invCipher u.ks u.nr.toNat s.din, err := .ok, phase := .idle, done := true }

/-- 42 R200, R201, 60 R352: with KS_VALID = 0 and a KEY_BYTES that is not 16, 24 or 32, each AES command that needs a
key raises KEYLEN before any other error, and writes nothing else. -/
def Obligations.AesCommandsRaiseKeylenFirst : Prop :=
  ∀ s : State, s.ksValid = false → s.keyBytes.toNat ≠ 16 → s.keyBytes.toNat ≠ 24 → s.keyBytes.toNat ≠ 32 →
    ∀ i ∈ [Instr.encBlock, .decBlock, .ecbEnc, .ecbDec, .encrypt, .decrypt],
      exec i s = .next { s with err := .keylen, phase := .idle, done := true }

/-- 42 R205: PAD appends p = 16 − (L mod 16) bytes of value p and adds p to DATA_LEN where the padded message fits the
buffer, and raises LENGTH with nothing written where it does not. -/
def Obligations.PadAppendsPkcs7Bytes : Prop :=
  decode 0x00000004#32 = .ok .pad ∧
  ∀ s len p, s.params.valid = true → len = s.dataLen.toNat → p = 16 - len % 16 →
    (len + p ≤ s.params.bufBytes →
      ∃ t, exec .pad s = .next t ∧
        t = { s with buf := t.buf, dataLen := t.dataLen, err := .ok, phase := .idle, done := true } ∧
        t.dataLen.toNat = len + p ∧ (len + p) % 16 = 0 ∧
        (∀ a, t.readByte a = if len ≤ a ∧ a < len + p then BitVec.ofNat 8 p else s.readByte a)) ∧
    (s.params.bufBytes < len + p →
      exec .pad s = .next { s with err := .length, phase := .idle, done := true })

/-- 42 R206: UNPAD takes the pad count p off DATA_LEN where the message is padded, changes no buffer byte, and raises
LENGTH for a message past the buffer and PADDING for every other violation, with DATA_LEN unchanged. -/
def Obligations.UnpadValidatesAndStrips : Prop :=
  decode 0x00000005#32 = .ok .unpad ∧
  ∀ (s : State) (len p : Nat), len = s.dataLen.toNat → p = (s.readByte (len - 1)).toNat →
    (s.params.bufBytes < len → exec .unpad s = .next { s with err := .length, phase := .idle, done := true }) ∧
    (len ≤ s.params.bufBytes → len ≠ 0 → len % 16 = 0 → 1 ≤ p → p ≤ 16 →
      (∀ i, 1 ≤ i → i ≤ p → s.readByte (len - i) = BitVec.ofNat 8 p) →
      exec .unpad s = .next
        { s with dataLen := BitVec.ofNat 16 (len - p), err := .ok, phase := .idle, done := true }) ∧
    (len ≤ s.params.bufBytes → (len = 0 ∨ len % 16 ≠ 0 ∨ p = 0 ∨ 16 < p ∨
        ∃ i, 1 ≤ i ∧ i ≤ p ∧ s.readByte (len - i) ≠ BitVec.ofNat 8 p) →
      exec .unpad s = .next { s with err := .padding, phase := .idle, done := true })

/-- 42 R207, R208: with a schedule and a message of whole blocks that fits, ECB_ENC and ECB_DEC replace every block of
the message by its transform, keep every byte past the message (20 R72), and change nothing else. -/
def Obligations.EcbCommandsTransformEveryBlock : Prop :=
  decode 0x00000006#32 = .ok .ecbEnc ∧ decode 0x00000007#32 = .ok .ecbDec ∧
  ∀ s u : State, ∀ n, s.keyReady → u = s.scheduled → s.dataLen.toNat = 16 * n → 16 * n ≤ s.params.bufBytes →
    (∃ t, exec .ecbEnc s = .next t ∧
      t = { u with buf := t.buf, err := .ok, phase := .idle, done := true } ∧
      (∀ i < n, t.memRead (16 * i) 16 =
        blockBytes (cipher u.ks u.nr.toNat (blockOfBytes (s.memRead (16 * i) 16)))) ∧
      (∀ a, 16 * n ≤ a → t.readByte a = s.readByte a)) ∧
    (∃ t, exec .ecbDec s = .next t ∧
      t = { u with buf := t.buf, err := .ok, phase := .idle, done := true } ∧
      (∀ i < n, t.memRead (16 * i) 16 =
        blockBytes (invCipher u.ks u.nr.toNat (blockOfBytes (s.memRead (16 * i) 16)))) ∧
      (∀ a, 16 * n ≤ a → t.readByte a = s.readByte a))

/-- 42 R207 to R210, R201, 60 R352: with a schedule stored or buildable, a message past the buffer, or of no whole
number of blocks, raises LENGTH in ECB_ENC, ECB_DEC and DECRYPT, and one whose padded length does not fit raises it in
ENCRYPT; nothing is written but the schedule EnsureSchedule built. -/
def Obligations.BadLengthsKeepOnlyTheSchedule : Prop :=
  ∀ s u : State, s.keyReady → u = s.scheduled →
    ((s.params.bufBytes < s.dataLen.toNat ∨ s.dataLen.toNat % 16 ≠ 0) →
      ∀ i ∈ [Instr.ecbEnc, .ecbDec, .decrypt],
        exec i s = .next { u with err := .length, phase := .idle, done := true }) ∧
    (s.params.bufBytes < s.dataLen.toNat + (16 - s.dataLen.toNat % 16) →
      exec .encrypt s = .next { u with err := .length, phase := .idle, done := true })

/-- 42 R209: ENCRYPT pads the message and replaces every block of the padded message by its Cipher; DATA_LEN becomes
the padded length, and bytes past it stay. -/
def Obligations.EncryptPadsAndEnciphers : Prop :=
  decode 0x00000008#32 = .ok .encrypt ∧
  ∀ s u : State, ∀ len p padded, s.params.valid = true → s.keyReady → u = s.scheduled → len = s.dataLen.toNat →
    p = 16 - len % 16 → len + p ≤ s.params.bufBytes →
    padded = (fun a => if len ≤ a then BitVec.ofNat 8 p else s.readByte a) →
    ∃ t, exec .encrypt s = .next t ∧
      t = { u with buf := t.buf, dataLen := t.dataLen, err := .ok, phase := .idle, done := true } ∧
      t.dataLen.toNat = len + p ∧
      (∀ i < (len + p) / 16, t.memRead (16 * i) 16 =
        blockBytes (cipher u.ks u.nr.toNat (blockOfBytes ((List.range 16).map fun j => padded (16 * i + j))))) ∧
      (∀ a, len + p ≤ a → t.readByte a = s.readByte a)

/-- 42 R210: DECRYPT replaces every block by its InvCipher and then unpads. Where the decrypted message is padded,
DATA_LEN loses p; where it is not, PADDING is raised with the decrypted blocks in the buffer and DATA_LEN unchanged. -/
def Obligations.DecryptDeciphersThenUnpads : Prop :=
  decode 0x00000009#32 = .ok .decrypt ∧
  ∀ s u : State, ∀ n, s.keyReady → u = s.scheduled → s.dataLen.toNat = 16 * n → 16 * n ≤ s.params.bufBytes →
    ∃ t, exec .decrypt s = .next t ∧
      t = { u with buf := t.buf, dataLen := t.dataLen, err := t.err, phase := .idle, done := true } ∧
      (∀ i < n, t.memRead (16 * i) 16 =
        blockBytes (invCipher u.ks u.nr.toNat (blockOfBytes (s.memRead (16 * i) 16)))) ∧
      (∀ a, 16 * n ≤ a → t.readByte a = s.readByte a) ∧
      ∀ p, p = (t.readByte (16 * n - 1)).toNat →
        ((n ≠ 0 ∧ 1 ≤ p ∧ p ≤ 16 ∧ ∀ i, 1 ≤ i → i ≤ p → t.readByte (16 * n - i) = BitVec.ofNat 8 p) →
          t.err = .ok ∧ t.dataLen.toNat = 16 * n - p) ∧
        ((n = 0 ∨ p = 0 ∨ 16 < p ∨ ∃ i, 1 ≤ i ∧ i ≤ p ∧ t.readByte (16 * n - i) ≠ BitVec.ofNat 8 p) →
          t.err = .padding ∧ t.dataLen = s.dataLen)

/-- 42 R212: ENCRYPT, then DECRYPT accepted on the state it leaves, completes without error and leaves DATA_LEN and the
message as they were, for every message that fits with its padding and every key. -/
def Obligations.DecryptUndoesEncrypt : Prop :=
  ∀ s : State, s.params.valid = true → s.keyReady →
    s.dataLen.toNat + (16 - s.dataLen.toNat % 16) ≤ s.params.bufBytes →
    ∃ t u, exec .encrypt s = .next t ∧ t.err = .ok ∧ exec .decrypt (t.accept (encode .decrypt)) = .next u ∧ u.err = .ok ∧
      u.dataLen = s.dataLen ∧ u.memRead 0 s.dataLen.toNat = s.memRead 0 s.dataLen.toNat

/-! RSA. -/

/-- 43 R253: ModExp(b, e, m) is b^e mod m for every m ≥ 2. -/
def Obligations.ModExpIsThePower : Prop :=
  ∀ b e m : Nat, 2 ≤ m → modExp b e m = b ^ e % m

/-- 43 R254: for m ≥ 2, ModInv(a, m) is the unique inverse below m where gcd(a, m) = 1, and NOINV otherwise. -/
def Obligations.ModInvIsTheUniqueInverse : Prop :=
  ∀ a m : Nat, 2 ≤ m →
    (Nat.gcd a m = 1 → ∃ d, modInv a m = some d ∧ 1 ≤ d ∧ d < m ∧ a * d % m = 1 ∧ ∀ d' < m, a * d' % m = 1 → d' = d) ∧
    (Nat.gcd a m ≠ 1 → modInv a m = none)

/-- 43 R252: KeyFromInt(m, L) = I2OSP(m mod 256^L, L): the L-byte string of the low-order L bytes of m. OS2IP reads a
byte string as a big-endian integer (00 R9). -/
def Obligations.KeyFromIntIsLowOrderBytes : Prop :=
  (os2ip [] = 0 ∧ ∀ (bs : List Byte) b, os2ip (bs ++ [b]) = os2ip bs * 256 + b.toNat) ∧
  ∀ m len : Nat, keyFromInt m len = i2osp (m % 256 ^ len) len ∧ (keyFromInt m len).length = len ∧
    os2ip (keyFromInt m len) = m % 256 ^ len

/-- 43 R259, R261: ChooseE(φ) is 65537 where that is coprime to φ, and otherwise the first odd number from 3 that is;
for every φ the hardware can hold it is at most 65537. -/
def Obligations.ChooseEFindsTheFirstCoprimeOdd : Prop :=
  ∀ phi : Nat, 1 ≤ phi →
    Nat.gcd (chooseE phi) phi = 1 ∧ chooseE phi % 2 = 1 ∧
    (Nat.gcd 65537 phi = 1 → chooseE phi = 65537) ∧
    (Nat.gcd 65537 phi ≠ 1 → 3 ≤ chooseE phi ∧
      ∀ e, 3 ≤ e → e < chooseE phi → e % 2 = 1 → Nat.gcd e phi ≠ 1) ∧
    (phi < 2 ^ 4096 → chooseE phi ≤ 65537)

/-- 44 R300, 43 R257: PRIMETEST of a prime completes with RESULT = 1 for every draw sequence, and writes no other
register. -/
def Obligations.PrimetestAcceptsEveryPrime : Prop :=
  ∀ s : State, s.mrRounds ≠ 0#8 → Nat.Prime (s.getBig .x) →
    ∃ t, exec .primetest s = .next t ∧
      t = { s with result := true, draws := t.draws, fresh := t.fresh, err := .ok, phase := .idle, done := true }

/-- 44 R300, 43 R257: PRIMETEST of a number below 2, or with a prime factor up to 97 other than itself, completes with
RESULT = 0 and draws nothing; and MR_ROUNDS = 0 raises BADARG with RESULT kept. -/
def Obligations.PrimetestRejectsSmallFactors : Prop :=
  (∀ (s : State) (p : Nat), s.mrRounds ≠ 0#8 →
    (s.getBig .x < 2 ∨ (p.Prime ∧ p ≤ 97 ∧ p ∣ s.getBig .x ∧ s.getBig .x ≠ p)) →
    exec .primetest s = .next { s with result := false, err := .ok, phase := .idle, done := true }) ∧
  (∀ s, s.mrRounds = 0#8 → exec .primetest s = .next { s with err := .badarg, phase := .idle, done := true })

/-- 43 R256, R257, 44 R300: where trial division settles nothing, PRIMETEST completes, and RESULT is 1 exactly when each
of the k drawn bases passes its round, for n − 1 = d · 2^r with d odd. It takes `taken` draws: k where every round passes,
and none behind the first that fails. The draws are those listed and behind them, where these do not settle the test, k
supplied ones, each a free value; that, and the base a draw stands for (`drawRange`), is the model's choice (log entries 3
and 4). -/
def Obligations.PrimetestIsMillerRabin : Prop :=
  ∀ (s : State) (n k d r : Nat) (ds : List Nat), n = s.getBig .x → k = s.mrRounds.toNat → k ≠ 0 → 2 ≤ n →
    (∀ p : Nat, p.Prime → p ≤ 97 → n % p ≠ 0) → d % 2 = 1 → n - 1 = d * 2 ^ r →
    ds = s.draws ++ (List.range k).map (fun i => Config.freeDraw (s.fresh + i)) →
    ∃ t taken, exec .primetest s = .next t ∧
      t = { s with result := t.result, draws := t.draws, fresh := t.fresh, err := .ok, phase := .idle, done := true } ∧
      (t.result = true ↔ ∀ v ∈ ds.take k, passesRound n d r (drawRange 2 (n - 2) v)) ∧
      (t.result = true → taken = k) ∧
      (t.result = false → 1 ≤ taken ∧ taken ≤ k ∧
        (∀ v ∈ ds.take (taken - 1), passesRound n d r (drawRange 2 (n - 2) v)) ∧
        ¬ passesRound n d r (drawRange 2 (n - 2) (ds.getD (taken - 1) 0))) ∧
      (taken ≤ s.draws.length → t.draws = s.draws.drop taken ∧ t.fresh = s.fresh) ∧
      (s.draws.length < taken → t.draws = ds.drop taken ∧ t.fresh = s.fresh + k)

/-- 00 R10, R13: a draw stands for a value of its stated range, every value of the range is some draw's, and a draw
that is in range stands for itself (the model's choice, log entry 3). -/
def Obligations.DrawsCoverTheirRanges : Prop :=
  (∀ lo hi v, lo ≤ hi → lo ≤ drawRange lo hi v ∧ drawRange lo hi v ≤ hi) ∧
  (∀ lo hi v, lo ≤ v → v ≤ hi → drawRange lo hi v = v) ∧
  (∀ h v, drawBits h v < 2 ^ h) ∧ (∀ h v, v < 2 ^ h → drawBits h v = v)

/-- 43 R258, 44 R301: with legal operands GENPRIME takes a candidate of RSA_BITS bits with top and bottom bits forced
from the first draw; where the candidate passes it completes with X the candidate, and where it fails it goes on from
the draws left over. That a supplied draw wider than RSA_BITS bits stands for its low bits is the model's choice, not
the spec's (log entry 3). -/
def Obligations.GenprimeTriesCandidatesInTurn : Prop :=
  ∀ (s : State) (h k c v : Nat) (ds rest : List Nat),
    h = s.rsaBits.toNat → k = s.mrRounds.toNat → 2 ≤ h → h ≤ s.params.rsaMaxBits → k ≠ 0 →
    s.phase = .busy (.instr .genprime) → s.draws = v :: ds → c = v % 2 ^ h ||| 2 ^ (h - 1) ||| 1 →
    (isProbablePrime c k ds = some (true, rest) →
      exec .genprime s = .next
        { s with big := { s.big with x := c }, draws := rest, err := .ok, phase := .idle, done := true }) ∧
    (isProbablePrime c k ds = some (false, rest) → ∀ t, exec .genprime { s with draws := rest } = .next t →
      t.phase = .idle → exec .genprime s = .next t)

/-- 43 R258, 44 R301: a GENPRIME that completes without error leaves in X an odd probable prime of exactly RSA_BITS
bits, the candidate of one draw (that a wider draw stands for its low bits is the model's choice, log entry 3) by a test
on the draws that follow it, and writes no other register; an illegal width or MR_ROUNDS = 0 raises BADARG with X kept. -/
def Obligations.GenprimeGivesAnOddProbablePrimeOfTheWidth : Prop :=
  decode 0x00000011#32 = .ok .genprime ∧
  (∀ s t : State, s.phase = .busy (.instr .genprime) → exec .genprime s = .next t → t.phase = .idle → t.err = .ok →
    t = { s with big := { s.big with x := t.big.x }, draws := t.draws, err := .ok, phase := .idle, done := true } ∧
    t.big.x % 2 = 1 ∧ 2 ^ (s.rsaBits.toNat - 1) ≤ t.big.x ∧ t.big.x < 2 ^ s.rsaBits.toNat ∧
    ∃ v ds, (v :: ds) <:+ s.draws ∧ t.big.x = v % 2 ^ s.rsaBits.toNat ||| 2 ^ (s.rsaBits.toNat - 1) ||| 1 ∧
      isProbablePrime t.big.x s.mrRounds.toNat ds = some (true, t.draws)) ∧
  (∀ s : State, s.rsaBits.toNat < 2 ∨ s.params.rsaMaxBits < s.rsaBits.toNat ∨ s.mrRounds = 0#8 →
    exec .genprime s = .next { s with err := .badarg, phase := .idle, done := true })

/-- 44 R302: MODINV with PHI ≥ 2 and gcd(E, PHI) = 1 completes with Y the inverse of E below PHI; it raises NOINV where
the gcd is not 1 and RANGE where PHI < 2, with Y kept. -/
def Obligations.ModinvInvertsE : Prop :=
  decode 0x00000012#32 = .ok .modinv ∧
  ∀ s : State, s.getBig .phi < 2 ^ s.params.rsaMaxBits →
    (2 ≤ s.getBig .phi → Nat.gcd (s.getBig .e) (s.getBig .phi) = 1 →
      ∃ y, exec .modinv s = .next { s with big := { s.big with y := y }, err := .ok, phase := .idle, done := true } ∧
        y < s.getBig .phi ∧ s.getBig .e * y % s.getBig .phi = 1) ∧
    (2 ≤ s.getBig .phi → Nat.gcd (s.getBig .e) (s.getBig .phi) ≠ 1 →
      exec .modinv s = .next { s with err := .noinv, phase := .idle, done := true }) ∧
    (s.getBig .phi < 2 → exec .modinv s = .next { s with err := .range, phase := .idle, done := true })

/-- 43 R260, 44 R303: KEYGEN with legal operands, whose draws give GenPrime a p and then a q other than p, completes
with N = pq, PHI = (p−1)(q−1), E = ChooseE(PHI) and D its inverse mod PHI; where the q drawn first equals p, the next is
taken. -/
def Obligations.KeygenBuildsTheKeypair : Prop :=
  decode 0x00000013#32 = .ok .keygen ∧
  ∀ (s : State) (b k p q q' : Nat) (ds rest rest' : List Nat), s.params.valid = true →
    b = s.rsaBits.toNat → k = s.mrRounds.toNat → b % 2 = 0 → 16 ≤ b → b ≤ s.params.rsaMaxBits → k ≠ 0 →
    genPrime (b / 2) k s.draws = some (p, ds) → genPrime (b / 2) k ds = some (q, rest) →
    (q ≠ p → ∃ d, exec .keygen s = .next { s with
        big := { p := p, q := q, n := p * q, phi := (p - 1) * (q - 1), e := chooseE ((p - 1) * (q - 1)), d := d,
                 x := s.big.x, y := s.big.y },
        draws := rest, err := .ok, phase := .idle, done := true } ∧
      d < (p - 1) * (q - 1) ∧ chooseE ((p - 1) * (q - 1)) * d % ((p - 1) * (q - 1)) = 1) ∧
    (q = p → genPrime (b / 2) k rest = some (q', rest') → q' ≠ p →
      ∃ t, exec .keygen s = .next t ∧ t.err = .ok ∧ t.big.p = p ∧ t.big.q = q' ∧ t.draws = rest')

/-- 43 R261, 44 R303: a KEYGEN that completes reports OK or BADARG, never NOINV; on OK the keypair has
bitlen(N) ∈ {b−1, b}, N = PQ for different probable primes, gcd(E, PHI) = 1, E odd, E = 65537 or 3 ≤ E < 65537, and
(E·D) mod PHI = 1, and no other register is written; an odd, too small or too large width, or MR_ROUNDS = 0, raises
BADARG. -/
def Obligations.KeygenResultIsAKeypair : Prop :=
  (∀ s t : State, s.params.valid = true → s.phase = .busy (.instr .keygen) → exec .keygen s = .next t →
    t.phase = .idle →
    (t.err = .ok ∨ t.err = .badarg) ∧
    (t.err = .ok →
      t = { s with big := { t.big with x := s.big.x, y := s.big.y }, draws := t.draws, err := .ok, phase := .idle,
                   done := true } ∧
      t.big.p ≠ t.big.q ∧ t.big.n = t.big.p * t.big.q ∧ t.big.phi = (t.big.p - 1) * (t.big.q - 1) ∧
      2 ^ (s.rsaBits.toNat - 2) ≤ t.big.n ∧ t.big.n < 2 ^ s.rsaBits.toNat ∧
      Nat.gcd t.big.e t.big.phi = 1 ∧ t.big.e % 2 = 1 ∧ t.big.e * t.big.d % t.big.phi = 1 ∧
      (t.big.e = 65537 ∨ (3 ≤ t.big.e ∧ t.big.e < 65537)) ∧
      (∀ n ∈ [t.big.p, t.big.q], ∃ ds ds', isProbablePrime n s.mrRounds.toNat ds = some (true, ds')))) ∧
  (∀ s : State, s.rsaBits.toNat % 2 ≠ 0 ∨ s.rsaBits.toNat < 16 ∨ s.params.rsaMaxBits < s.rsaBits.toNat ∨
      s.mrRounds = 0#8 →
    exec .keygen s = .next { s with err := .badarg, phase := .idle, done := true })

/-- 44 R304, R305: with N ≥ 2 and X < N, MODEXP_PUB and MODEXP_PRIV complete with Y = X^E mod N and X^D mod N; otherwise
they raise RANGE with Y kept. -/
def Obligations.ModexpCommandsRaiseToThePower : Prop :=
  decode 0x00000014#32 = .ok .modexpPub ∧ decode 0x00000015#32 = .ok .modexpPriv ∧
  ∀ s : State, s.getBig .n < 2 ^ s.params.rsaMaxBits →
    (2 ≤ s.getBig .n → s.getBig .x < s.getBig .n →
      exec .modexpPub s = .next { s with
        big := { s.big with y := s.getBig .x ^ s.getBig .e % s.getBig .n }, err := .ok, phase := .idle,
        done := true } ∧
      exec .modexpPriv s = .next { s with
        big := { s.big with y := s.getBig .x ^ s.getBig .d % s.getBig .n }, err := .ok, phase := .idle,
        done := true }) ∧
    (s.getBig .n < 2 ∨ s.getBig .n ≤ s.getBig .x →
      exec .modexpPub s = .next { s with err := .range, phase := .idle, done := true } ∧
      exec .modexpPriv s = .next { s with err := .range, phase := .idle, done := true })

/-- 44 R306: WRAPKEY writes the shortest big-endian string of c = OS2IP(KEYBYTES)^E mod N to the buffer from offset 0,
its length to DATA_LEN and c to Y, and nothing else; it raises KEYLEN, then RANGE, with nothing written. -/
def Obligations.WrapkeyEnciphersTheKey : Prop :=
  decode 0x00000016#32 = .ok .wrapkey ∧
  ∀ (s : State) (m c len : Nat), s.Inv → m = os2ip s.keyString → c = m ^ s.getBig .e % s.getBig .n →
    len = (bitlen c + 7) / 8 →
    (s.keyBytes.toNat = 16 ∨ s.keyBytes.toNat = 24 ∨ s.keyBytes.toNat = 32 →
      (2 ≤ s.getBig .n → m < s.getBig .n →
        ∃ t, exec .wrapkey s = .next t ∧
          t = { s with buf := t.buf, dataLen := t.dataLen, big := { s.big with y := c }, err := .ok, phase := .idle,
                       done := true } ∧
          t.dataLen.toNat = len ∧ os2ip (t.memRead 0 len) = c ∧ (0 < len → t.readByte 0 ≠ 0#8) ∧
          (∀ a, len ≤ a → t.readByte a = s.readByte a)) ∧
      (s.getBig .n < 2 ∨ s.getBig .n ≤ m →
        exec .wrapkey s = .next { s with err := .range, phase := .idle, done := true })) ∧
    (s.keyBytes.toNat ≠ 16 → s.keyBytes.toNat ≠ 24 → s.keyBytes.toNat ≠ 32 →
      exec .wrapkey s = .next { s with err := .keylen, phase := .idle, done := true })

/-- 44 R307: UNWRAPKEY writes m = OS2IP(message)^D mod N to Y and the low-order KEY_BYTES bytes of m, then zero bytes,
to K, and clears KS_VALID; it raises KEYLEN, then LENGTH, then RANGE, with nothing written. -/
def Obligations.UnwrapkeyRecoversTheKey : Prop :=
  decode 0x00000017#32 = .ok .unwrapkey ∧
  ∀ (s : State) (L c m : Nat), s.getBig .n < 2 ^ s.params.rsaMaxBits → L = s.keyBytes.toNat →
    c = os2ip (s.memRead 0 s.dataLen.toNat) → m = c ^ s.getBig .d % s.getBig .n →
    (L = 16 ∨ L = 24 ∨ L = 32 →
      (s.params.bufBytes < s.dataLen.toNat →
        exec .unwrapkey s = .next { s with err := .length, phase := .idle, done := true }) ∧
      (s.dataLen.toNat ≤ s.params.bufBytes → s.getBig .n < 2 ∨ s.getBig .n ≤ c →
        exec .unwrapkey s = .next { s with err := .range, phase := .idle, done := true }) ∧
      (s.dataLen.toNat ≤ s.params.bufBytes → 2 ≤ s.getBig .n → c < s.getBig .n →
        ∃ t, exec .unwrapkey s = .next t ∧
          t = { s with key := t.key, big := { s.big with y := m }, ksValid := false, err := .ok, phase := .idle,
                       done := true } ∧
          os2ip t.keyString = m % 256 ^ L ∧
          (t.key.toList.flatMap wordBytes).drop L = List.replicate (32 - L) 0#8)) ∧
    (L ≠ 16 → L ≠ 24 → L ≠ 32 →
      exec .unwrapkey s = .next { s with err := .keylen, phase := .idle, done := true })

/-- 43 R262: the RSA correctness theorem for ModExp. -/
def Obligations.RsaTransformsUndoEachOther : Prop :=
  ∀ p q e d m : Nat, Nat.Prime p → Nat.Prime q → p ≠ q → e * d % ((p - 1) * (q - 1)) = 1 → m < p * q →
    modExp (modExp m e (p * q)) d (p * q) = m

/-- 44 R310: with N = PQ for distinct primes and (E·D) mod (P−1)(Q−1) = 1, a key below N that WRAPKEY wraps, UNWRAPKEY
accepted on the state it leaves restores. -/
def Obligations.UnwrapkeyUndoesWrapkey : Prop :=
  ∀ (s : State) (p q : Nat), s.Inv → Nat.Prime p → Nat.Prime q → p ≠ q → s.getBig .n = p * q →
    s.getBig .e * s.getBig .d % ((p - 1) * (q - 1)) = 1 →
    s.keyBytes.toNat = 16 ∨ s.keyBytes.toNat = 24 ∨ s.keyBytes.toNat = 32 → os2ip s.keyString < s.getBig .n →
    ∃ t u, exec .wrapkey s = .next t ∧ t.err = .ok ∧ exec .unwrapkey (t.accept (encode .unwrapkey)) = .next u ∧
      u.err = .ok ∧ u.keyString = s.keyString

/-! The whole machine. -/

/-- 30 R104: a command changes no location outside its "writes" column, STATUS apart; a buffer word counts as one
location. -/
def Obligations.CommandsWriteOnlyTheirWriteSets : Prop :=
  ∀ i s t l, exec i s = .next t → l ≠ .status → ¬ writesOf s.params i l → t.locWord l = s.locWord l

/-- 10 R26, 40 R131, 00 R6: no command changes IRQ_EN, WERR, LAST_CMD, DIN, KEY_BYTES, MR_ROUNDS, RSA_BITS or the
parameters, and only PRIMETEST changes RESULT. -/
def Obligations.CommandsLeaveControlStateAlone : Prop :=
  ∀ i s t, exec i s = .next t →
    t.irqEn = s.irqEn ∧ t.werr = s.werr ∧ t.lastCmd = s.lastCmd ∧ t.din = s.din ∧ t.keyBytes = s.keyBytes ∧
    t.mrRounds = s.mrRounds ∧ t.rsaBits = s.rsaBits ∧ t.params = s.params ∧ t.epoch = s.epoch ∧
    t.turns = s.turns ∧ t.response = s.response ∧ (i ≠ .primetest → t.result = s.result)

/-- 40 R135, 60 R354: a command that raises an error writes no result: beside ERR, BUSY and DONE it changes only the
schedule that EnsureSchedule built before a later check failed, KS_VALID where a key expansion failed with KEYLEN, and,
for DECRYPT's PADDING, the buffer. An EnsureSchedule that fails finds KS_VALID = 0 and leaves it so. -/
def Obligations.ErrorsWriteNoResults : Prop :=
  ∀ i s t, exec i s = .next t → t.phase = .idle → s.phase = .busy (.instr i) → t.err ≠ .ok →
    (t.err = .keylen →
      t = { s with ksValid := if i = .keyexp then false else s.ksValid, err := .keylen, phase := .idle, done := true } ∧
      (i ∈ [Instr.encBlock, .decBlock, .ecbEnc, .ecbDec, .encrypt, .decrypt] → s.ksValid = false)) ∧
    (t.err ≠ .keylen → i ∈ [Instr.ecbEnc, .ecbDec, .encrypt, .decrypt] →
      t = { s.scheduled with buf := t.buf, err := t.err, phase := .idle, done := true } ∧
      (¬ (i = .decrypt ∧ t.err = .padding) → t.buf = s.buf)) ∧
    (t.err ≠ .keylen → i ∉ [Instr.ecbEnc, .ecbDec, .encrypt, .decrypt] →
      t = { s with err := t.err, phase := .idle, done := true })

/-- 60 R350, R351: a completion reports OK or one of the errors of its command, and so a code of at most 6; BADCMD is
reported by no command, and no code is above 7. -/
def Obligations.CommandsReportOnlyTheirErrors : Prop :=
  (∀ i s t, exec i s = .next t → s.phase = .busy (.instr i) → t.phase = .idle →
    (t.err = .ok ∨ t.err ∈ errorsOf i) ∧ (errBits t.err).toNat ≤ 6) ∧
  (∀ e, (errBits e).toNat ≤ 7)

/-- 10 R41: KS_VALID is cleared, and NR then reads 0, by a host write to KEYi or KEY_BYTES while IDLE, a completed
UNWRAPKEY, a failed key expansion (which KEYEXP alone attempts where KS_VALID = 1) and RST; nothing else clears it. -/
def Obligations.OnlyFourThingsClearKsValid : Prop :=
  (∀ (s : State) off w ts, s.phase = .idle → s.nextAccess off (.write w) ts →
    (locate off = .keyBytes ∨ ∃ i, locate off = .key i) →
    ∃ t, step s = .next t ∧ t.ksValid = false ∧ t.locWord .nr = 0#32) ∧
  (∀ s t : State, exec .unwrapkey s = .next t → t.err = .ok → t.ksValid = false ∧ t.locWord .nr = 0#32) ∧
  (∀ i, ∀ s t : State, i ∈ [Instr.keyexp, .encBlock, .decBlock, .ecbEnc, .ecbDec, .encrypt, .decrypt] →
    exec i s = .next t → t.err = .keylen → t.ksValid = false ∧ t.locWord .nr = 0#32) ∧
  (∀ (s : State) ts, s.turns = .rst :: ts → ∃ t, step s = .next t ∧ t.ksValid = false ∧ t.locWord .nr = 0#32) ∧
  (∀ s t : State, step s = .next t → s.ksValid = true → t.ksValid = false →
    (∃ off w ts, s.phase = .idle ∧ s.nextAccess off (.write w) ts ∧
      (locate off = .keyBytes ∨ ∃ i, locate off = .key i)) ∨
    (s.phase = .busy (.instr .unwrapkey) ∧ t.err = .ok) ∨
    (s.phase = .busy (.instr .keyexp) ∧ t.err = .keylen) ∨
    (∃ ts, s.turns = .rst :: ts))

/-- The invariant holds right after reset, for every legal machine (70 R402). -/
def Obligations.ResetMeetsTheInvariant : Prop :=
  State.reset.Inv ∧ ∀ p : Params, p.valid = true → (State.resetWith p).Inv

/-- Every step keeps the invariant: the buffer stays canonical and within BUF_BYTES (20 R71), the big-number registers
within RSA_MAX_BITS bits (43 R250), KS_VALID = 1 says that KS and NR are the expansion of the current key (10 R40), and
while BUSY DONE, ERR and LAST_CMD are as acceptance left them (40 R131). -/
def Obligations.EveryStepKeepsTheInvariant : Prop :=
  ∀ s t : State, s.Inv → step s = .next t → t.Inv
end

