-- ==== Sys2Proof/Laws/Bytes.lean ====
section
/-! SUPPORT. Packing and unpacking undo each other; integers and byte strings; big-number words. -/

namespace Sys2Proof.Machine

/-! Words and bytes. -/

theorem getLsbD_packWord (a b c d : Byte) (i : Nat) :
    (packWord a b c d).getLsbD i =
      if i < 8 then d.getLsbD i else if i < 16 then c.getLsbD (i - 8)
      else if i < 24 then b.getLsbD (i - 16) else a.getLsbD (i - 24) := by
  have h : packWord a b c d = ((a ++ b : BitVec (8 + 8)) ++ c : BitVec (8 + 8 + 8)) ++ d := rfl
  rw [h, BitVec.getLsbD_append, BitVec.getLsbD_append, BitVec.getLsbD_append]
  split_ifs <;> first | rfl | omega

@[simp] theorem wordByte_packWord_0 (a b c d : Byte) : wordByte (packWord a b c d) 0 = a := by
  apply BitVec.eq_of_getLsbD_eq
  intro i hi
  simp [wordByte, getLsbD_packWord, hi, show ¬ 24 + i < 8 by omega, show ¬ 24 + i < 16 by omega]

@[simp] theorem wordByte_packWord_1 (a b c d : Byte) : wordByte (packWord a b c d) 1 = b := by
  apply BitVec.eq_of_getLsbD_eq
  intro i hi
  simp [wordByte, getLsbD_packWord, hi, show 16 + i < 24 by omega, show ¬ 16 + i < 8 by omega]

@[simp] theorem wordByte_packWord_2 (a b c d : Byte) : wordByte (packWord a b c d) 2 = c := by
  apply BitVec.eq_of_getLsbD_eq
  intro i hi
  simp [wordByte, getLsbD_packWord, hi, show 8 + i < 16 by omega]

@[simp] theorem wordByte_packWord_3 (a b c d : Byte) : wordByte (packWord a b c d) 3 = d := by
  apply BitVec.eq_of_getLsbD_eq
  intro i hi
  simp [wordByte, getLsbD_packWord, hi]

@[simp] theorem packWord_wordByte (w : Word) :
    packWord (wordByte w 0) (wordByte w 1) (wordByte w 2) (wordByte w 3) = w := by
  apply BitVec.eq_of_getLsbD_eq
  intro i hi
  rw [getLsbD_packWord]
  simp only [wordByte, BitVec.getLsbD_extractLsb']
  split
  · simp [*]
  · split
    · simp [show i - 8 < 8 by omega, show 8 + (i - 8) = i by omega]
    · split
      · simp [show i - 16 < 8 by omega, show 16 + (i - 16) = i by omega]
      · simp [show i - 24 < 8 by omega, show 24 + (i - 24) = i by omega]

@[simp] theorem wordByte_xor (v w : Word) (i : Nat) : wordByte (v ^^^ w) i = wordByte v i ^^^ wordByte w i := by
  apply BitVec.eq_of_getLsbD_eq
  intro j hj
  simp [wordByte, hj]

/-- Two words with the same four bytes are equal. -/
theorem word_ext {v w : Word} (h0 : wordByte v 0 = wordByte w 0) (h1 : wordByte v 1 = wordByte w 1)
    (h2 : wordByte v 2 = wordByte w 2) (h3 : wordByte v 3 = wordByte w 3) : v = w := by
  rw [← packWord_wordByte v, ← packWord_wordByte w, h0, h1, h2, h3]

@[simp] theorem wordOfBytes_wordBytes (w : Word) : wordOfBytes (wordBytes w) 0 = w := by
  simp [wordOfBytes, wordBytes]

@[simp] theorem length_wordBytes (w : Word) : (wordBytes w).length = 4 := rfl

/-! Blocks and bytes. -/

@[simp] theorem length_blockBytes (b : Block) : (blockBytes b).length = 16 := rfl

@[simp] theorem blockOfBytes_blockBytes (b : Block) : blockOfBytes (blockBytes b) = b := by
  simp [blockOfBytes, blockBytes, wordOfBytes, wordBytes]

/-- A string of 16 bytes is the string of its block. -/
theorem blockBytes_blockOfBytes {bs : List Byte} (h : bs.length = 16) : blockBytes (blockOfBytes bs) = bs := by
  apply List.ext_getElem (by simp [h])
  intro i h1 h2
  simp only [length_blockBytes] at h1
  simp only [blockBytes, blockOfBytes, wordBytes, wordOfBytes, wordByte_packWord_0, wordByte_packWord_1,
    wordByte_packWord_2, wordByte_packWord_3]
  interval_cases i <;> simp [h]

/-! Integers and byte strings. -/

theorem os2ip_append (bs cs : List Byte) : os2ip (bs ++ cs) = os2ip bs * 256 ^ cs.length + os2ip cs := by
  induction cs using List.reverseRecOn with
  | nil => simp [os2ip]
  | append_singleton cs c ih =>
    rw [← List.append_assoc]
    simp only [os2ip, List.foldl_append, List.foldl_cons, List.foldl_nil, List.length_append, List.length_cons,
      List.length_nil] at *
    rw [ih]; ring

@[simp] theorem os2ip_nil : os2ip [] = 0 := rfl

@[simp] theorem os2ip_singleton (b : Byte) : os2ip [b] = b.toNat := by simp [os2ip]

theorem os2ip_cons (b : Byte) (bs : List Byte) : os2ip (b :: bs) = b.toNat * 256 ^ bs.length + os2ip bs := by
  rw [← List.singleton_append, os2ip_append, os2ip_singleton]

theorem os2ip_lt (bs : List Byte) : os2ip bs < 256 ^ bs.length := by
  induction bs with
  | nil => simp
  | cons b bs ih =>
    rw [os2ip_cons, List.length_cons, pow_succ]
    have := b.isLt
    nlinarith

@[simp] theorem os2ip_replicate_zero (n : Nat) : os2ip (List.replicate n 0#8) = 0 := by
  induction n with
  | zero => rfl
  | succ n ih => rw [List.replicate_succ, os2ip_cons, ih]; simp

@[simp] theorem length_i2osp (x len : Nat) : (i2osp x len).length = len := by
  induction len generalizing x with
  | zero => rfl
  | succ len ih => simp [i2osp, ih]

theorem os2ip_i2osp (x len : Nat) : os2ip (i2osp x len) = x % 256 ^ len := by
  induction len generalizing x with
  | zero => simp [i2osp, Nat.mod_one]
  | succ len ih =>
    rw [i2osp, os2ip_append, ih, os2ip_singleton, List.length_singleton, pow_one, BitVec.toNat_ofNat,
      show (2 : Nat) ^ 8 = 256 by norm_num, pow_succ', Nat.mod_mul]
    ring

/-- A byte string is determined by its length and its integer. -/
theorem os2ip_inj {bs cs : List Byte} (hl : bs.length = cs.length) (h : os2ip bs = os2ip cs) : bs = cs := by
  induction bs generalizing cs with
  | nil => simpa using hl.symm
  | cons b bs ih =>
    cases cs with
    | nil => simp at hl
    | cons c cs =>
      simp only [List.length_cons, Nat.add_right_cancel_iff] at hl
      rw [os2ip_cons, os2ip_cons, hl] at h
      have h1 := os2ip_lt bs
      have h2 := os2ip_lt cs
      rw [hl] at h1
      have hp : 0 < 256 ^ cs.length := by positivity
      have hb : b.toNat = c.toNat := by
        have e1 : (b.toNat * 256 ^ cs.length + os2ip bs) / 256 ^ cs.length = b.toNat := by
          rw [mul_comm, Nat.mul_add_div hp, Nat.div_eq_of_lt h1, add_zero]
        have e2 : (c.toNat * 256 ^ cs.length + os2ip cs) / 256 ^ cs.length = c.toNat := by
          rw [mul_comm, Nat.mul_add_div hp, Nat.div_eq_of_lt h2, add_zero]
        rw [← e1, h, e2]
      rw [hb] at h
      rw [BitVec.eq_of_toNat_eq hb, ih hl (by omega)]

/-! Bit lengths (00 R8). -/

theorem lt_two_pow_bitlen (x : Nat) : x < 2 ^ bitlen x := by
  unfold bitlen
  split
  · simp [*]
  · exact Nat.lt_log2_self

theorem two_pow_pred_bitlen_le {x : Nat} (h : x ≠ 0) : 2 ^ (bitlen x - 1) ≤ x := by
  simpa [bitlen, h] using Nat.log2_self_le h

theorem bitlen_le_iff {x k : Nat} : bitlen x ≤ k ↔ x < 2 ^ k := by
  constructor
  · intro h
    exact lt_of_lt_of_le (lt_two_pow_bitlen x) (Nat.pow_le_pow_right (by norm_num) h)
  · intro h
    unfold bitlen
    split
    · omega
    · rename_i hx
      exact (Nat.log2_lt hx).mpr h

/-- MinBytes(x) is a string of `x`, as short as can be (00 R9). -/
theorem os2ip_minBytes (x : Nat) : os2ip (minBytes x) = x := by
  rw [minBytes, os2ip_i2osp]
  apply Nat.mod_eq_of_lt
  rw [show (256 : Nat) = 2 ^ 8 by norm_num, ← pow_mul]
  exact lt_of_lt_of_le (lt_two_pow_bitlen x) (Nat.pow_le_pow_right (by norm_num) (by omega))

@[simp] theorem length_minBytes (x : Nat) : (minBytes x).length = (bitlen x + 7) / 8 := by simp [minBytes]

/-- MinBytes never has a leading zero byte (43 R252). -/
theorem head_minBytes_ne_zero {x : Nat} {b : Byte} {bs : List Byte} (h : minBytes x = b :: bs) : b ≠ 0#8 := by
  rintro rfl
  have hx := os2ip_minBytes x
  have hl := length_minBytes x
  rw [h, os2ip_cons] at hx
  rw [h, List.length_cons] at hl
  have hlt := os2ip_lt bs
  simp only [BitVec.toNat_ofNat, Nat.zero_mod, zero_mul, zero_add] at hx
  rw [hx, show (256 : Nat) = 2 ^ 8 by norm_num, ← pow_mul] at hlt
  have := bitlen_le_iff.mpr hlt
  omega

/-! Big-number words (10 R36, R37). -/

theorem bigWord_setBigWord_same (v i : Nat) (w : Word) : bigWord (setBigWord v i w) i = w := by
  apply BitVec.eq_of_toNat_eq
  have hw := w.isLt
  have hp : 0 < 2 ^ (32 * i) := by positivity
  have hlow : v % 2 ^ (32 * i) < 2 ^ (32 * i) := Nat.mod_lt _ hp
  have : setBigWord v i w / 2 ^ (32 * i) = w.toNat + v / 2 ^ (32 * i + 32) * 2 ^ 32 := by
    rw [setBigWord, show v % 2 ^ (32 * i) + w.toNat * 2 ^ (32 * i) + v / 2 ^ (32 * i + 32) * 2 ^ (32 * i + 32)
      = v % 2 ^ (32 * i) + 2 ^ (32 * i) * (w.toNat + v / 2 ^ (32 * i + 32) * 2 ^ 32) by rw [pow_add]; ring,
      Nat.add_mul_div_left _ _ hp, Nat.div_eq_of_lt hlow, zero_add]
  rw [bigWord, this, BitVec.toNat_ofNat, Nat.add_mul_mod_self_right, Nat.mod_eq_of_lt hw]

theorem testBit_setBigWord (v i : Nat) (w : Word) (k : Nat) :
    (setBigWord v i w).testBit k =
      if k < 32 * i then v.testBit k else if k < 32 * i + 32 then w.getLsbD (k - 32 * i) else v.testBit k := by
  have hp : 0 < 2 ^ (32 * i) := by positivity
  have hlow : v % 2 ^ (32 * i) < 2 ^ (32 * i) := Nat.mod_lt _ hp
  have hw : w.toNat < 2 ^ 32 := BitVec.isLt w
  have e : setBigWord v i w = 2 ^ (32 * i) * (2 ^ 32 * (v / 2 ^ (32 * i + 32)) + w.toNat) + v % 2 ^ (32 * i) := by
    rw [setBigWord, pow_add]; ring
  rw [e, Nat.testBit_two_pow_mul_add _ hlow]
  split
  · rename_i h
    rw [Nat.testBit_mod_two_pow]; simp [h]
  · rw [Nat.testBit_two_pow_mul_add _ hw]
    split
    · rw [if_pos (by omega), BitVec.testBit_toNat]
    · rw [if_neg (by omega), Nat.testBit_div_two_pow]; exact congrArg v.testBit (by omega)

theorem getLsbD_bigWord (v i k : Nat) : (bigWord v i).getLsbD k = (decide (k < 32) && v.testBit (32 * i + k)) := by
  rw [bigWord, BitVec.getLsbD_ofNat, Nat.testBit_div_two_pow, add_comm]

theorem bigWord_setBigWord_ne (v : Nat) {i j : Nat} (w : Word) (h : j ≠ i) :
    bigWord (setBigWord v i w) j = bigWord v j := by
  apply BitVec.eq_of_getLsbD_eq
  intro k hk
  rw [getLsbD_bigWord, getLsbD_bigWord, testBit_setBigWord]
  rcases lt_or_gt_of_ne h with h | h
  · rw [if_pos (by omega)]
  · rw [if_neg (by omega), if_neg (by omega)]

/-- A word written below the top keeps the register within its width. -/
theorem setBigWord_lt {v i n : Nat} (w : Word) (hv : v < 2 ^ n) (hi : 32 * i + 32 ≤ n) :
    setBigWord v i w < 2 ^ n := by
  apply Nat.lt_pow_two_of_testBit
  intro k hk
  rw [testBit_setBigWord, if_neg (by omega), if_neg (by omega)]
  exact Nat.testBit_lt_two_pow (lt_of_lt_of_le hv (Nat.pow_le_pow_right (by norm_num) hk))

end Sys2Proof.Machine
end

