-- ==== Sys2Proof/Laws/Aes.lean ====
section
/-! SUPPORT. The AES primitives: linearity of GF(2^8) products, bytes of a block, and the words of a schedule. -/

namespace Sys2Proof.Machine

/-! Products in GF(2^8) (41 R151). -/

/-- A product is the sum of the multiples of `a` that the bits of `b` select. -/
theorem gmul_eq (a b : Byte) :
    gmul a b =
      (if b.getLsbD 0 then a else 0#8) ^^^ (if b.getLsbD 1 then xtime a else 0#8)
        ^^^ (if b.getLsbD 2 then xtime (xtime a) else 0#8)
        ^^^ (if b.getLsbD 3 then xtime (xtime (xtime a)) else 0#8)
        ^^^ (if b.getLsbD 4 then xtime (xtime (xtime (xtime a))) else 0#8)
        ^^^ (if b.getLsbD 5 then xtime (xtime (xtime (xtime (xtime a)))) else 0#8)
        ^^^ (if b.getLsbD 6 then xtime (xtime (xtime (xtime (xtime (xtime a))))) else 0#8)
        ^^^ (if b.getLsbD 7 then xtime (xtime (xtime (xtime (xtime (xtime (xtime a)))))) else 0#8) := by
  have step : ∀ (c : Bool) (r x : Byte), (if c = true then r ^^^ x else r) = r ^^^ (if c = true then x else 0#8) := by
    intro c r x; cases c <;> simp
  have hr : List.range 8 = [0, 1, 2, 3, 4, 5, 6, 7] := rfl
  simp only [gmul, hr, List.foldl_cons, List.foldl_nil, step, BitVec.zero_xor]

theorem xtime_xor (a b : Byte) : xtime (a ^^^ b) = xtime a ^^^ xtime b := by
  have h : ∀ x y : Bool, (if (x ^^ y) = true then 0x1B#8 else 0x00#8)
      = (if x = true then 0x1B#8 else 0x00#8) ^^^ (if y = true then 0x1B#8 else 0x00#8) := by decide
  simp only [xtime, BitVec.getLsbD_xor, h, BitVec.shiftLeft_xor_distrib]
  ac_rfl

/-- Products distribute over sums. -/
theorem gmul_xor (a b c : Byte) : gmul a (b ^^^ c) = gmul a b ^^^ gmul a c := by
  have h : ∀ (x y : Bool) (v : Byte), (if (x ^^ y) = true then v else 0#8)
      = (if x = true then v else 0#8) ^^^ (if y = true then v else 0#8) := by
    intro x y v; cases x <;> cases y <;> simp
  simp only [gmul_eq, BitVec.getLsbD_xor, h]
  ac_rfl

@[simp] theorem gmul_one_left (a : Byte) : gmul 0x01#8 a = a := by
  revert a; decide +kernel

/-! Blocks, column by column. -/

/-- Two blocks with the same four columns are equal. -/
theorem block_ext {s t : Block} (h0 : s.c0 = t.c0) (h1 : s.c1 = t.c1) (h2 : s.c2 = t.c2) (h3 : s.c3 = t.c3) :
    s = t := by
  cases s; cases t; simp_all

@[simp] theorem blockByte_blockOf (f : Nat → Nat → Byte) {r c : Nat} (hr : r < 4) (hc : c < 4) :
    blockByte (blockOf f) r c = f r c := by
  interval_cases c <;> interval_cases r <;> simp [blockByte, blockOf, blockCol]

/-- A block is the block of its bytes. -/
theorem blockOf_blockByte (s : Block) : blockOf (blockByte s) = s := by
  apply block_ext <;> simp [blockOf, blockByte, blockCol]

theorem blockOf_congr {f g : Nat → Nat → Byte} (h : ∀ r < 4, ∀ c < 4, f r c = g r c) : blockOf f = blockOf g := by
  simp only [blockOf]
  apply block_ext <;> simp only <;> congr 1 <;> exact h _ (by decide) _ (by decide)

/-- Byte r + 4c of a block's string is its byte at row r and column c (00 R12). -/
theorem getD_blockBytes (s : Block) {r c : Nat} (hr : r < 4) (hc : c < 4) :
    (blockBytes s).getD (r + 4 * c) 0#8 = blockByte s r c := by
  interval_cases c <;> interval_cases r <;> rfl

/-- Adding the same round key twice changes nothing (41 R157). -/
@[simp] theorem addRoundKey_addRoundKey (ks : Vector Word 60) (s : Block) (r : Nat) :
    addRoundKey ks (addRoundKey ks s r) r = s := by
  apply block_ext <;> simp [addRoundKey]

/-- Row r moves left by r and back (41 R155, R158). -/
@[simp] theorem invShiftRows_shiftRows (s : Block) : invShiftRows (shiftRows s) = s := by
  apply block_ext <;> simp [invShiftRows, shiftRows, blockOf, blockByte, blockCol]

@[simp] theorem shiftRows_invShiftRows (s : Block) : shiftRows (invShiftRows s) = s := by
  apply block_ext <;> simp [invShiftRows, shiftRows, blockOf, blockByte, blockCol]

/-! Key expansion (41 R170). -/

theorem length_extendSchedule (nk count : Nat) (ws : List Word) :
    (extendSchedule nk count ws).length = ws.length + count := by
  induction count generalizing ws with
  | zero => rfl
  | succ count ih => rw [extendSchedule, ih]; simp; omega

/-- Extending a schedule keeps the words it has. -/
theorem getD_extendSchedule_lt {nk count i : Nat} {ws : List Word} (h : i < ws.length) :
    (extendSchedule nk count ws).getD i 0#32 = ws.getD i 0#32 := by
  induction count generalizing ws with
  | zero => rfl
  | succ count ih =>
    rw [extendSchedule, ih (by simp; omega)]
    simp [List.getD, List.getElem?_append_left h]

/-- Every further word satisfies the recurrence over the words before it. -/
theorem getD_extendSchedule {nk count i : Nat} {ws : List Word} (hnk : 1 ≤ nk) (hw : nk ≤ ws.length)
    (h1 : ws.length ≤ i) (h2 : i < ws.length + count) (w : Nat → Word)
    (hwd : ∀ j, w j = (extendSchedule nk count ws).getD j 0#32) :
    w i = w (i - nk) ^^^
      (if i % nk = 0 then subWord (rotWord (w (i - 1))) ^^^ rcon (i / nk)
       else if nk = 8 ∧ i % nk = 4 then subWord (w (i - 1))
       else w (i - 1)) := by
  induction count generalizing ws with
  | zero => omega
  | succ count ih =>
    rw [extendSchedule] at hwd
    rcases Nat.lt_or_ge ws.length i with hi | hi
    · exact ih (ws := ws ++ [nextScheduleWord nk ws]) (by simp; omega) (by simp; omega) (by simp; omega) hwd
    · obtain rfl : i = ws.length := by omega
      have hlt : ∀ j < ws.length, w j = ws.getD j 0#32 := by
        intro j hj
        rw [hwd, getD_extendSchedule_lt (by simp; omega)]
        simp [List.getD, List.getElem?_append_left hj]
      rw [hwd ws.length, getD_extendSchedule_lt (by simp), hlt (ws.length - nk) (by omega),
        hlt (ws.length - 1) (by omega)]
      simp [List.getD, nextScheduleWord]

theorem length_expandKey {k : List Byte} {nk : Nat} (hk : k.length = 4 * nk) : (expandKey k).length = 4 * (nk + 7) := by
  rw [expandKey, length_extendSchedule, List.length_map, List.length_range, show k.length / 4 = nk by omega]
  omega

/-- Words 0 to 59 of the store, and 0 past it. -/
theorem ksWord_keySchedule {k : List Byte} {nk : Nat} (hk : k.length = 4 * nk) (h8 : nk ≤ 8) (i : Nat) :
    ksWord (keySchedule k) i = (expandKey k).getD i 0#32 := by
  have hl := length_expandKey hk
  rcases Nat.lt_or_ge i 60 with hi | hi
  · simp [ksWord, keySchedule, List.getD, hi]
  · rw [ksWord, List.getD_eq_default _ _ (by simpa using hi), List.getD_eq_default _ _ (by omega)]

/-- The first Nk words are the key's (41 R170). -/
theorem ksWord_keySchedule_lt {k : List Byte} {nk i : Nat} (hk : k.length = 4 * nk) (h8 : nk ≤ 8) (hi : i < nk) :
    ksWord (keySchedule k) i = wordOfBytes k i := by
  rw [ksWord_keySchedule hk h8, expandKey, getD_extendSchedule_lt (by simp; omega)]
  rw [show k.length / 4 = nk by omega]
  simp [List.getD, hi]

/-- The words after them follow the recurrence (41 R170). -/
theorem ksWord_keySchedule_rec {k : List Byte} {nk i : Nat} (hk : k.length = 4 * nk) (h1 : 1 ≤ nk) (h8 : nk ≤ 8)
    (hi : nk ≤ i) (hi' : i < 4 * (nk + 7)) (ks : Vector Word 60) (hks : ks = keySchedule k) :
    ksWord ks i = ksWord ks (i - nk) ^^^
      (if i % nk = 0 then subWord (rotWord (ksWord ks (i - 1))) ^^^ rcon (i / nk)
       else if nk = 8 ∧ i % nk = 4 then subWord (ksWord ks (i - 1))
       else ksWord ks (i - 1)) := by
  subst hks
  have hq : k.length / 4 = nk := by omega
  refine getD_extendSchedule (ws := (List.range nk).map (wordOfBytes k)) (count := 4 * (nk + 6 + 1) - nk) h1
    (by simp) (by simpa using hi) (by simp; omega) (ksWord (keySchedule k)) ?_
  intro j
  rw [ksWord_keySchedule hk h8, expandKey]
  simp only [hq]

/-- Words past the schedule are 0 (41 R170). -/
theorem ksWord_keySchedule_ge {k : List Byte} {nk i : Nat} (hk : k.length = 4 * nk) (h8 : nk ≤ 8)
    (hi : 4 * (nk + 7) ≤ i) : ksWord (keySchedule k) i = 0#32 := by
  rw [ksWord_keySchedule hk h8, List.getD_eq_default _ _ (by rw [length_expandKey hk]; exact hi)]

/-- Word i of KEYBYTES is KEYi (10 R30). -/
theorem wordOfBytes_flatMap_take {l : List Word} {n i : Nat} (hn : 4 * i + 4 ≤ n) (hi : i < l.length) :
    wordOfBytes ((l.flatMap wordBytes).take n) i = l.getD i 0#32 := by
  have key : ∀ j < 4, ∀ m : Nat, ∀ l : List Word, m < l.length →
      (l.flatMap wordBytes).getD (4 * m + j) 0#8 = (wordBytes (l.getD m 0#32)).getD j 0#8 := by
    intro j hj m
    induction m with
    | zero =>
      intro l hl
      cases l with
      | nil => simp at hl
      | cons w l => interval_cases j <;> simp [wordBytes]
    | succ m ih =>
      intro l hl
      cases l with
      | nil => simp at hl
      | cons w l =>
        have := ih l (by simpa using hl)
        rw [List.flatMap_cons, List.getD_append_right _ _ _ _ (by simp; omega), length_wordBytes,
          show 4 * (m + 1) + j - 4 = 4 * m + j by omega, this]
        simp [List.getD]
  have take : ∀ j < 4, ((l.flatMap wordBytes).take n).getD (4 * i + j) 0#8
      = (wordBytes (l.getD i 0#32)).getD j 0#8 := by
    intro j hj
    rw [← key j hj i l hi, List.getD, List.getD, List.getElem?_take_of_lt (by omega)]
  rw [wordOfBytes, ← Nat.add_zero (4 * i), take 0 (by omega), Nat.add_zero, take 1 (by omega), take 2 (by omega),
    take 3 (by omega)]
  simp [wordBytes]

end Sys2Proof.Machine
end

