-- ==== Sys2Proof/Laws/State.lean ====
section
/-! SUPPORT. One lemma per field per update of the state, each true by rfl. -/

namespace Sys2Proof.Machine

variable (s : State)

/-! `State.memWrite`. -/

@[simp] theorem State.memWrite_params (a : Nat) (bs : List Byte) : (s.memWrite a bs).params = s.params := rfl
@[simp] theorem State.memWrite_irqEn (a : Nat) (bs : List Byte) : (s.memWrite a bs).irqEn = s.irqEn := rfl
@[simp] theorem State.memWrite_phase (a : Nat) (bs : List Byte) : (s.memWrite a bs).phase = s.phase := rfl
@[simp] theorem State.memWrite_done (a : Nat) (bs : List Byte) : (s.memWrite a bs).done = s.done := rfl
@[simp] theorem State.memWrite_ksValid (a : Nat) (bs : List Byte) : (s.memWrite a bs).ksValid = s.ksValid := rfl
@[simp] theorem State.memWrite_result (a : Nat) (bs : List Byte) : (s.memWrite a bs).result = s.result := rfl
@[simp] theorem State.memWrite_werr (a : Nat) (bs : List Byte) : (s.memWrite a bs).werr = s.werr := rfl
@[simp] theorem State.memWrite_err (a : Nat) (bs : List Byte) : (s.memWrite a bs).err = s.err := rfl
@[simp] theorem State.memWrite_lastCmd (a : Nat) (bs : List Byte) : (s.memWrite a bs).lastCmd = s.lastCmd := rfl
@[simp] theorem State.memWrite_keyBytes (a : Nat) (bs : List Byte) : (s.memWrite a bs).keyBytes = s.keyBytes := rfl
@[simp] theorem State.memWrite_dataLen (a : Nat) (bs : List Byte) : (s.memWrite a bs).dataLen = s.dataLen := rfl
@[simp] theorem State.memWrite_nr (a : Nat) (bs : List Byte) : (s.memWrite a bs).nr = s.nr := rfl
@[simp] theorem State.memWrite_mrRounds (a : Nat) (bs : List Byte) : (s.memWrite a bs).mrRounds = s.mrRounds := rfl
@[simp] theorem State.memWrite_rsaBits (a : Nat) (bs : List Byte) : (s.memWrite a bs).rsaBits = s.rsaBits := rfl
@[simp] theorem State.memWrite_key (a : Nat) (bs : List Byte) : (s.memWrite a bs).key = s.key := rfl
@[simp] theorem State.memWrite_din (a : Nat) (bs : List Byte) : (s.memWrite a bs).din = s.din := rfl
@[simp] theorem State.memWrite_dout (a : Nat) (bs : List Byte) : (s.memWrite a bs).dout = s.dout := rfl
@[simp] theorem State.memWrite_ks (a : Nat) (bs : List Byte) : (s.memWrite a bs).ks = s.ks := rfl
@[simp] theorem State.memWrite_big (a : Nat) (bs : List Byte) : (s.memWrite a bs).big = s.big := rfl
@[simp] theorem State.memWrite_buf (a : Nat) (bs : List Byte) : (s.memWrite a bs).buf = s.buf.putBytes a bs := rfl
@[simp] theorem State.memWrite_draws (a : Nat) (bs : List Byte) : (s.memWrite a bs).draws = s.draws := rfl
@[simp] theorem State.memWrite_fresh (a : Nat) (bs : List Byte) : (s.memWrite a bs).fresh = s.fresh := rfl
@[simp] theorem State.memWrite_epoch (a : Nat) (bs : List Byte) : (s.memWrite a bs).epoch = s.epoch := rfl
@[simp] theorem State.memWrite_turns (a : Nat) (bs : List Byte) : (s.memWrite a bs).turns = s.turns := rfl
@[simp] theorem State.memWrite_response (a : Nat) (bs : List Byte) : (s.memWrite a bs).response = s.response := rfl

/-! `State.setBig`. -/

@[simp] theorem State.setBig_params (r : BigReg) (v : Nat) : (s.setBig r v).params = s.params := rfl
@[simp] theorem State.setBig_irqEn (r : BigReg) (v : Nat) : (s.setBig r v).irqEn = s.irqEn := rfl
@[simp] theorem State.setBig_phase (r : BigReg) (v : Nat) : (s.setBig r v).phase = s.phase := rfl
@[simp] theorem State.setBig_done (r : BigReg) (v : Nat) : (s.setBig r v).done = s.done := rfl
@[simp] theorem State.setBig_ksValid (r : BigReg) (v : Nat) : (s.setBig r v).ksValid = s.ksValid := rfl
@[simp] theorem State.setBig_result (r : BigReg) (v : Nat) : (s.setBig r v).result = s.result := rfl
@[simp] theorem State.setBig_werr (r : BigReg) (v : Nat) : (s.setBig r v).werr = s.werr := rfl
@[simp] theorem State.setBig_err (r : BigReg) (v : Nat) : (s.setBig r v).err = s.err := rfl
@[simp] theorem State.setBig_lastCmd (r : BigReg) (v : Nat) : (s.setBig r v).lastCmd = s.lastCmd := rfl
@[simp] theorem State.setBig_keyBytes (r : BigReg) (v : Nat) : (s.setBig r v).keyBytes = s.keyBytes := rfl
@[simp] theorem State.setBig_dataLen (r : BigReg) (v : Nat) : (s.setBig r v).dataLen = s.dataLen := rfl
@[simp] theorem State.setBig_nr (r : BigReg) (v : Nat) : (s.setBig r v).nr = s.nr := rfl
@[simp] theorem State.setBig_mrRounds (r : BigReg) (v : Nat) : (s.setBig r v).mrRounds = s.mrRounds := rfl
@[simp] theorem State.setBig_rsaBits (r : BigReg) (v : Nat) : (s.setBig r v).rsaBits = s.rsaBits := rfl
@[simp] theorem State.setBig_key (r : BigReg) (v : Nat) : (s.setBig r v).key = s.key := rfl
@[simp] theorem State.setBig_din (r : BigReg) (v : Nat) : (s.setBig r v).din = s.din := rfl
@[simp] theorem State.setBig_dout (r : BigReg) (v : Nat) : (s.setBig r v).dout = s.dout := rfl
@[simp] theorem State.setBig_ks (r : BigReg) (v : Nat) : (s.setBig r v).ks = s.ks := rfl
@[simp] theorem State.setBig_big (r : BigReg) (v : Nat) : (s.setBig r v).big = s.big.set r (v % 2 ^ s.params.rsaMaxBits) := rfl
@[simp] theorem State.setBig_buf (r : BigReg) (v : Nat) : (s.setBig r v).buf = s.buf := rfl
@[simp] theorem State.setBig_draws (r : BigReg) (v : Nat) : (s.setBig r v).draws = s.draws := rfl
@[simp] theorem State.setBig_fresh (r : BigReg) (v : Nat) : (s.setBig r v).fresh = s.fresh := rfl
@[simp] theorem State.setBig_epoch (r : BigReg) (v : Nat) : (s.setBig r v).epoch = s.epoch := rfl
@[simp] theorem State.setBig_turns (r : BigReg) (v : Nat) : (s.setBig r v).turns = s.turns := rfl
@[simp] theorem State.setBig_response (r : BigReg) (v : Nat) : (s.setBig r v).response = s.response := rfl

/-! `State.setDataLen`. -/

@[simp] theorem State.setDataLen_params (n : Nat) : (s.setDataLen n).params = s.params := rfl
@[simp] theorem State.setDataLen_irqEn (n : Nat) : (s.setDataLen n).irqEn = s.irqEn := rfl
@[simp] theorem State.setDataLen_phase (n : Nat) : (s.setDataLen n).phase = s.phase := rfl
@[simp] theorem State.setDataLen_done (n : Nat) : (s.setDataLen n).done = s.done := rfl
@[simp] theorem State.setDataLen_ksValid (n : Nat) : (s.setDataLen n).ksValid = s.ksValid := rfl
@[simp] theorem State.setDataLen_result (n : Nat) : (s.setDataLen n).result = s.result := rfl
@[simp] theorem State.setDataLen_werr (n : Nat) : (s.setDataLen n).werr = s.werr := rfl
@[simp] theorem State.setDataLen_err (n : Nat) : (s.setDataLen n).err = s.err := rfl
@[simp] theorem State.setDataLen_lastCmd (n : Nat) : (s.setDataLen n).lastCmd = s.lastCmd := rfl
@[simp] theorem State.setDataLen_keyBytes (n : Nat) : (s.setDataLen n).keyBytes = s.keyBytes := rfl
@[simp] theorem State.setDataLen_dataLen (n : Nat) : (s.setDataLen n).dataLen = BitVec.ofNat 16 n := rfl
@[simp] theorem State.setDataLen_nr (n : Nat) : (s.setDataLen n).nr = s.nr := rfl
@[simp] theorem State.setDataLen_mrRounds (n : Nat) : (s.setDataLen n).mrRounds = s.mrRounds := rfl
@[simp] theorem State.setDataLen_rsaBits (n : Nat) : (s.setDataLen n).rsaBits = s.rsaBits := rfl
@[simp] theorem State.setDataLen_key (n : Nat) : (s.setDataLen n).key = s.key := rfl
@[simp] theorem State.setDataLen_din (n : Nat) : (s.setDataLen n).din = s.din := rfl
@[simp] theorem State.setDataLen_dout (n : Nat) : (s.setDataLen n).dout = s.dout := rfl
@[simp] theorem State.setDataLen_ks (n : Nat) : (s.setDataLen n).ks = s.ks := rfl
@[simp] theorem State.setDataLen_big (n : Nat) : (s.setDataLen n).big = s.big := rfl
@[simp] theorem State.setDataLen_buf (n : Nat) : (s.setDataLen n).buf = s.buf := rfl
@[simp] theorem State.setDataLen_draws (n : Nat) : (s.setDataLen n).draws = s.draws := rfl
@[simp] theorem State.setDataLen_fresh (n : Nat) : (s.setDataLen n).fresh = s.fresh := rfl
@[simp] theorem State.setDataLen_epoch (n : Nat) : (s.setDataLen n).epoch = s.epoch := rfl
@[simp] theorem State.setDataLen_turns (n : Nat) : (s.setDataLen n).turns = s.turns := rfl
@[simp] theorem State.setDataLen_response (n : Nat) : (s.setDataLen n).response = s.response := rfl

/-! `State.setDout`. -/

@[simp] theorem State.setDout_params (b : Block) : (s.setDout b).params = s.params := rfl
@[simp] theorem State.setDout_irqEn (b : Block) : (s.setDout b).irqEn = s.irqEn := rfl
@[simp] theorem State.setDout_phase (b : Block) : (s.setDout b).phase = s.phase := rfl
@[simp] theorem State.setDout_done (b : Block) : (s.setDout b).done = s.done := rfl
@[simp] theorem State.setDout_ksValid (b : Block) : (s.setDout b).ksValid = s.ksValid := rfl
@[simp] theorem State.setDout_result (b : Block) : (s.setDout b).result = s.result := rfl
@[simp] theorem State.setDout_werr (b : Block) : (s.setDout b).werr = s.werr := rfl
@[simp] theorem State.setDout_err (b : Block) : (s.setDout b).err = s.err := rfl
@[simp] theorem State.setDout_lastCmd (b : Block) : (s.setDout b).lastCmd = s.lastCmd := rfl
@[simp] theorem State.setDout_keyBytes (b : Block) : (s.setDout b).keyBytes = s.keyBytes := rfl
@[simp] theorem State.setDout_dataLen (b : Block) : (s.setDout b).dataLen = s.dataLen := rfl
@[simp] theorem State.setDout_nr (b : Block) : (s.setDout b).nr = s.nr := rfl
@[simp] theorem State.setDout_mrRounds (b : Block) : (s.setDout b).mrRounds = s.mrRounds := rfl
@[simp] theorem State.setDout_rsaBits (b : Block) : (s.setDout b).rsaBits = s.rsaBits := rfl
@[simp] theorem State.setDout_key (b : Block) : (s.setDout b).key = s.key := rfl
@[simp] theorem State.setDout_din (b : Block) : (s.setDout b).din = s.din := rfl
@[simp] theorem State.setDout_dout (b : Block) : (s.setDout b).dout = b := rfl
@[simp] theorem State.setDout_ks (b : Block) : (s.setDout b).ks = s.ks := rfl
@[simp] theorem State.setDout_big (b : Block) : (s.setDout b).big = s.big := rfl
@[simp] theorem State.setDout_buf (b : Block) : (s.setDout b).buf = s.buf := rfl
@[simp] theorem State.setDout_draws (b : Block) : (s.setDout b).draws = s.draws := rfl
@[simp] theorem State.setDout_fresh (b : Block) : (s.setDout b).fresh = s.fresh := rfl
@[simp] theorem State.setDout_epoch (b : Block) : (s.setDout b).epoch = s.epoch := rfl
@[simp] theorem State.setDout_turns (b : Block) : (s.setDout b).turns = s.turns := rfl
@[simp] theorem State.setDout_response (b : Block) : (s.setDout b).response = s.response := rfl

/-! `State.setKey`. -/

@[simp] theorem State.setKey_params (k : List Byte) : (s.setKey k).params = s.params := rfl
@[simp] theorem State.setKey_irqEn (k : List Byte) : (s.setKey k).irqEn = s.irqEn := rfl
@[simp] theorem State.setKey_phase (k : List Byte) : (s.setKey k).phase = s.phase := rfl
@[simp] theorem State.setKey_done (k : List Byte) : (s.setKey k).done = s.done := rfl
@[simp] theorem State.setKey_ksValid (k : List Byte) : (s.setKey k).ksValid = s.ksValid := rfl
@[simp] theorem State.setKey_result (k : List Byte) : (s.setKey k).result = s.result := rfl
@[simp] theorem State.setKey_werr (k : List Byte) : (s.setKey k).werr = s.werr := rfl
@[simp] theorem State.setKey_err (k : List Byte) : (s.setKey k).err = s.err := rfl
@[simp] theorem State.setKey_lastCmd (k : List Byte) : (s.setKey k).lastCmd = s.lastCmd := rfl
@[simp] theorem State.setKey_keyBytes (k : List Byte) : (s.setKey k).keyBytes = s.keyBytes := rfl
@[simp] theorem State.setKey_dataLen (k : List Byte) : (s.setKey k).dataLen = s.dataLen := rfl
@[simp] theorem State.setKey_nr (k : List Byte) : (s.setKey k).nr = s.nr := rfl
@[simp] theorem State.setKey_mrRounds (k : List Byte) : (s.setKey k).mrRounds = s.mrRounds := rfl
@[simp] theorem State.setKey_rsaBits (k : List Byte) : (s.setKey k).rsaBits = s.rsaBits := rfl
@[simp] theorem State.setKey_key (k : List Byte) : (s.setKey k).key = Vector.ofFn fun i => wordOfBytes k i.val := rfl
@[simp] theorem State.setKey_din (k : List Byte) : (s.setKey k).din = s.din := rfl
@[simp] theorem State.setKey_dout (k : List Byte) : (s.setKey k).dout = s.dout := rfl
@[simp] theorem State.setKey_ks (k : List Byte) : (s.setKey k).ks = s.ks := rfl
@[simp] theorem State.setKey_big (k : List Byte) : (s.setKey k).big = s.big := rfl
@[simp] theorem State.setKey_buf (k : List Byte) : (s.setKey k).buf = s.buf := rfl
@[simp] theorem State.setKey_draws (k : List Byte) : (s.setKey k).draws = s.draws := rfl
@[simp] theorem State.setKey_fresh (k : List Byte) : (s.setKey k).fresh = s.fresh := rfl
@[simp] theorem State.setKey_epoch (k : List Byte) : (s.setKey k).epoch = s.epoch := rfl
@[simp] theorem State.setKey_turns (k : List Byte) : (s.setKey k).turns = s.turns := rfl
@[simp] theorem State.setKey_response (k : List Byte) : (s.setKey k).response = s.response := rfl

/-! `State.setSchedule`. -/

@[simp] theorem State.setSchedule_params (w : Vector Word 60) (n : Nat) : (s.setSchedule w n).params = s.params := rfl
@[simp] theorem State.setSchedule_irqEn (w : Vector Word 60) (n : Nat) : (s.setSchedule w n).irqEn = s.irqEn := rfl
@[simp] theorem State.setSchedule_phase (w : Vector Word 60) (n : Nat) : (s.setSchedule w n).phase = s.phase := rfl
@[simp] theorem State.setSchedule_done (w : Vector Word 60) (n : Nat) : (s.setSchedule w n).done = s.done := rfl
@[simp] theorem State.setSchedule_ksValid (w : Vector Word 60) (n : Nat) : (s.setSchedule w n).ksValid = true := rfl
@[simp] theorem State.setSchedule_result (w : Vector Word 60) (n : Nat) : (s.setSchedule w n).result = s.result := rfl
@[simp] theorem State.setSchedule_werr (w : Vector Word 60) (n : Nat) : (s.setSchedule w n).werr = s.werr := rfl
@[simp] theorem State.setSchedule_err (w : Vector Word 60) (n : Nat) : (s.setSchedule w n).err = s.err := rfl
@[simp] theorem State.setSchedule_lastCmd (w : Vector Word 60) (n : Nat) : (s.setSchedule w n).lastCmd = s.lastCmd := rfl
@[simp] theorem State.setSchedule_keyBytes (w : Vector Word 60) (n : Nat) : (s.setSchedule w n).keyBytes = s.keyBytes := rfl
@[simp] theorem State.setSchedule_dataLen (w : Vector Word 60) (n : Nat) : (s.setSchedule w n).dataLen = s.dataLen := rfl
@[simp] theorem State.setSchedule_nr (w : Vector Word 60) (n : Nat) : (s.setSchedule w n).nr = BitVec.ofNat 8 n := rfl
@[simp] theorem State.setSchedule_mrRounds (w : Vector Word 60) (n : Nat) : (s.setSchedule w n).mrRounds = s.mrRounds := rfl
@[simp] theorem State.setSchedule_rsaBits (w : Vector Word 60) (n : Nat) : (s.setSchedule w n).rsaBits = s.rsaBits := rfl
@[simp] theorem State.setSchedule_key (w : Vector Word 60) (n : Nat) : (s.setSchedule w n).key = s.key := rfl
@[simp] theorem State.setSchedule_din (w : Vector Word 60) (n : Nat) : (s.setSchedule w n).din = s.din := rfl
@[simp] theorem State.setSchedule_dout (w : Vector Word 60) (n : Nat) : (s.setSchedule w n).dout = s.dout := rfl
@[simp] theorem State.setSchedule_ks (w : Vector Word 60) (n : Nat) : (s.setSchedule w n).ks = w := rfl
@[simp] theorem State.setSchedule_big (w : Vector Word 60) (n : Nat) : (s.setSchedule w n).big = s.big := rfl
@[simp] theorem State.setSchedule_buf (w : Vector Word 60) (n : Nat) : (s.setSchedule w n).buf = s.buf := rfl
@[simp] theorem State.setSchedule_draws (w : Vector Word 60) (n : Nat) : (s.setSchedule w n).draws = s.draws := rfl
@[simp] theorem State.setSchedule_fresh (w : Vector Word 60) (n : Nat) : (s.setSchedule w n).fresh = s.fresh := rfl
@[simp] theorem State.setSchedule_epoch (w : Vector Word 60) (n : Nat) : (s.setSchedule w n).epoch = s.epoch := rfl
@[simp] theorem State.setSchedule_turns (w : Vector Word 60) (n : Nat) : (s.setSchedule w n).turns = s.turns := rfl
@[simp] theorem State.setSchedule_response (w : Vector Word 60) (n : Nat) : (s.setSchedule w n).response = s.response := rfl

/-! `State.clearKsValid`. -/

@[simp] theorem State.clearKsValid_params : (s.clearKsValid).params = s.params := rfl
@[simp] theorem State.clearKsValid_irqEn : (s.clearKsValid).irqEn = s.irqEn := rfl
@[simp] theorem State.clearKsValid_phase : (s.clearKsValid).phase = s.phase := rfl
@[simp] theorem State.clearKsValid_done : (s.clearKsValid).done = s.done := rfl
@[simp] theorem State.clearKsValid_ksValid : (s.clearKsValid).ksValid = false := rfl
@[simp] theorem State.clearKsValid_result : (s.clearKsValid).result = s.result := rfl
@[simp] theorem State.clearKsValid_werr : (s.clearKsValid).werr = s.werr := rfl
@[simp] theorem State.clearKsValid_err : (s.clearKsValid).err = s.err := rfl
@[simp] theorem State.clearKsValid_lastCmd : (s.clearKsValid).lastCmd = s.lastCmd := rfl
@[simp] theorem State.clearKsValid_keyBytes : (s.clearKsValid).keyBytes = s.keyBytes := rfl
@[simp] theorem State.clearKsValid_dataLen : (s.clearKsValid).dataLen = s.dataLen := rfl
@[simp] theorem State.clearKsValid_nr : (s.clearKsValid).nr = s.nr := rfl
@[simp] theorem State.clearKsValid_mrRounds : (s.clearKsValid).mrRounds = s.mrRounds := rfl
@[simp] theorem State.clearKsValid_rsaBits : (s.clearKsValid).rsaBits = s.rsaBits := rfl
@[simp] theorem State.clearKsValid_key : (s.clearKsValid).key = s.key := rfl
@[simp] theorem State.clearKsValid_din : (s.clearKsValid).din = s.din := rfl
@[simp] theorem State.clearKsValid_dout : (s.clearKsValid).dout = s.dout := rfl
@[simp] theorem State.clearKsValid_ks : (s.clearKsValid).ks = s.ks := rfl
@[simp] theorem State.clearKsValid_big : (s.clearKsValid).big = s.big := rfl
@[simp] theorem State.clearKsValid_buf : (s.clearKsValid).buf = s.buf := rfl
@[simp] theorem State.clearKsValid_draws : (s.clearKsValid).draws = s.draws := rfl
@[simp] theorem State.clearKsValid_fresh : (s.clearKsValid).fresh = s.fresh := rfl
@[simp] theorem State.clearKsValid_epoch : (s.clearKsValid).epoch = s.epoch := rfl
@[simp] theorem State.clearKsValid_turns : (s.clearKsValid).turns = s.turns := rfl
@[simp] theorem State.clearKsValid_response : (s.clearKsValid).response = s.response := rfl

/-! `State.setKeyPair`. -/

@[simp] theorem State.setKeyPair_params (kp : KeyPair) : (s.setKeyPair kp).params = s.params := rfl
@[simp] theorem State.setKeyPair_irqEn (kp : KeyPair) : (s.setKeyPair kp).irqEn = s.irqEn := rfl
@[simp] theorem State.setKeyPair_phase (kp : KeyPair) : (s.setKeyPair kp).phase = s.phase := rfl
@[simp] theorem State.setKeyPair_done (kp : KeyPair) : (s.setKeyPair kp).done = s.done := rfl
@[simp] theorem State.setKeyPair_ksValid (kp : KeyPair) : (s.setKeyPair kp).ksValid = s.ksValid := rfl
@[simp] theorem State.setKeyPair_result (kp : KeyPair) : (s.setKeyPair kp).result = s.result := rfl
@[simp] theorem State.setKeyPair_werr (kp : KeyPair) : (s.setKeyPair kp).werr = s.werr := rfl
@[simp] theorem State.setKeyPair_err (kp : KeyPair) : (s.setKeyPair kp).err = s.err := rfl
@[simp] theorem State.setKeyPair_lastCmd (kp : KeyPair) : (s.setKeyPair kp).lastCmd = s.lastCmd := rfl
@[simp] theorem State.setKeyPair_keyBytes (kp : KeyPair) : (s.setKeyPair kp).keyBytes = s.keyBytes := rfl
@[simp] theorem State.setKeyPair_dataLen (kp : KeyPair) : (s.setKeyPair kp).dataLen = s.dataLen := rfl
@[simp] theorem State.setKeyPair_nr (kp : KeyPair) : (s.setKeyPair kp).nr = s.nr := rfl
@[simp] theorem State.setKeyPair_mrRounds (kp : KeyPair) : (s.setKeyPair kp).mrRounds = s.mrRounds := rfl
@[simp] theorem State.setKeyPair_rsaBits (kp : KeyPair) : (s.setKeyPair kp).rsaBits = s.rsaBits := rfl
@[simp] theorem State.setKeyPair_key (kp : KeyPair) : (s.setKeyPair kp).key = s.key := rfl
@[simp] theorem State.setKeyPair_din (kp : KeyPair) : (s.setKeyPair kp).din = s.din := rfl
@[simp] theorem State.setKeyPair_dout (kp : KeyPair) : (s.setKeyPair kp).dout = s.dout := rfl
@[simp] theorem State.setKeyPair_ks (kp : KeyPair) : (s.setKeyPair kp).ks = s.ks := rfl
@[simp] theorem State.setKeyPair_big (kp : KeyPair) : (s.setKeyPair kp).big = { s.big with
    p := kp.p % 2 ^ s.params.rsaMaxBits, q := kp.q % 2 ^ s.params.rsaMaxBits, n := kp.n % 2 ^ s.params.rsaMaxBits,
    phi := kp.phi % 2 ^ s.params.rsaMaxBits, e := kp.e % 2 ^ s.params.rsaMaxBits, d := kp.d % 2 ^ s.params.rsaMaxBits } := rfl
@[simp] theorem State.setKeyPair_buf (kp : KeyPair) : (s.setKeyPair kp).buf = s.buf := rfl
@[simp] theorem State.setKeyPair_draws (kp : KeyPair) : (s.setKeyPair kp).draws = s.draws := rfl
@[simp] theorem State.setKeyPair_fresh (kp : KeyPair) : (s.setKeyPair kp).fresh = s.fresh := rfl
@[simp] theorem State.setKeyPair_epoch (kp : KeyPair) : (s.setKeyPair kp).epoch = s.epoch := rfl
@[simp] theorem State.setKeyPair_turns (kp : KeyPair) : (s.setKeyPair kp).turns = s.turns := rfl
@[simp] theorem State.setKeyPair_response (kp : KeyPair) : (s.setKeyPair kp).response = s.response := rfl

/-! `State.setResult`. -/

@[simp] theorem State.setResult_params (b : Bool) : (s.setResult b).params = s.params := rfl
@[simp] theorem State.setResult_irqEn (b : Bool) : (s.setResult b).irqEn = s.irqEn := rfl
@[simp] theorem State.setResult_phase (b : Bool) : (s.setResult b).phase = s.phase := rfl
@[simp] theorem State.setResult_done (b : Bool) : (s.setResult b).done = s.done := rfl
@[simp] theorem State.setResult_ksValid (b : Bool) : (s.setResult b).ksValid = s.ksValid := rfl
@[simp] theorem State.setResult_result (b : Bool) : (s.setResult b).result = b := rfl
@[simp] theorem State.setResult_werr (b : Bool) : (s.setResult b).werr = s.werr := rfl
@[simp] theorem State.setResult_err (b : Bool) : (s.setResult b).err = s.err := rfl
@[simp] theorem State.setResult_lastCmd (b : Bool) : (s.setResult b).lastCmd = s.lastCmd := rfl
@[simp] theorem State.setResult_keyBytes (b : Bool) : (s.setResult b).keyBytes = s.keyBytes := rfl
@[simp] theorem State.setResult_dataLen (b : Bool) : (s.setResult b).dataLen = s.dataLen := rfl
@[simp] theorem State.setResult_nr (b : Bool) : (s.setResult b).nr = s.nr := rfl
@[simp] theorem State.setResult_mrRounds (b : Bool) : (s.setResult b).mrRounds = s.mrRounds := rfl
@[simp] theorem State.setResult_rsaBits (b : Bool) : (s.setResult b).rsaBits = s.rsaBits := rfl
@[simp] theorem State.setResult_key (b : Bool) : (s.setResult b).key = s.key := rfl
@[simp] theorem State.setResult_din (b : Bool) : (s.setResult b).din = s.din := rfl
@[simp] theorem State.setResult_dout (b : Bool) : (s.setResult b).dout = s.dout := rfl
@[simp] theorem State.setResult_ks (b : Bool) : (s.setResult b).ks = s.ks := rfl
@[simp] theorem State.setResult_big (b : Bool) : (s.setResult b).big = s.big := rfl
@[simp] theorem State.setResult_buf (b : Bool) : (s.setResult b).buf = s.buf := rfl
@[simp] theorem State.setResult_draws (b : Bool) : (s.setResult b).draws = s.draws := rfl
@[simp] theorem State.setResult_fresh (b : Bool) : (s.setResult b).fresh = s.fresh := rfl
@[simp] theorem State.setResult_epoch (b : Bool) : (s.setResult b).epoch = s.epoch := rfl
@[simp] theorem State.setResult_turns (b : Bool) : (s.setResult b).turns = s.turns := rfl
@[simp] theorem State.setResult_response (b : Bool) : (s.setResult b).response = s.response := rfl

/-! `State.leaveDraws`. -/

@[simp] theorem State.leaveDraws_params (ds : List Nat) : (s.leaveDraws ds).params = s.params := rfl
@[simp] theorem State.leaveDraws_irqEn (ds : List Nat) : (s.leaveDraws ds).irqEn = s.irqEn := rfl
@[simp] theorem State.leaveDraws_phase (ds : List Nat) : (s.leaveDraws ds).phase = s.phase := rfl
@[simp] theorem State.leaveDraws_done (ds : List Nat) : (s.leaveDraws ds).done = s.done := rfl
@[simp] theorem State.leaveDraws_ksValid (ds : List Nat) : (s.leaveDraws ds).ksValid = s.ksValid := rfl
@[simp] theorem State.leaveDraws_result (ds : List Nat) : (s.leaveDraws ds).result = s.result := rfl
@[simp] theorem State.leaveDraws_werr (ds : List Nat) : (s.leaveDraws ds).werr = s.werr := rfl
@[simp] theorem State.leaveDraws_err (ds : List Nat) : (s.leaveDraws ds).err = s.err := rfl
@[simp] theorem State.leaveDraws_lastCmd (ds : List Nat) : (s.leaveDraws ds).lastCmd = s.lastCmd := rfl
@[simp] theorem State.leaveDraws_keyBytes (ds : List Nat) : (s.leaveDraws ds).keyBytes = s.keyBytes := rfl
@[simp] theorem State.leaveDraws_dataLen (ds : List Nat) : (s.leaveDraws ds).dataLen = s.dataLen := rfl
@[simp] theorem State.leaveDraws_nr (ds : List Nat) : (s.leaveDraws ds).nr = s.nr := rfl
@[simp] theorem State.leaveDraws_mrRounds (ds : List Nat) : (s.leaveDraws ds).mrRounds = s.mrRounds := rfl
@[simp] theorem State.leaveDraws_rsaBits (ds : List Nat) : (s.leaveDraws ds).rsaBits = s.rsaBits := rfl
@[simp] theorem State.leaveDraws_key (ds : List Nat) : (s.leaveDraws ds).key = s.key := rfl
@[simp] theorem State.leaveDraws_din (ds : List Nat) : (s.leaveDraws ds).din = s.din := rfl
@[simp] theorem State.leaveDraws_dout (ds : List Nat) : (s.leaveDraws ds).dout = s.dout := rfl
@[simp] theorem State.leaveDraws_ks (ds : List Nat) : (s.leaveDraws ds).ks = s.ks := rfl
@[simp] theorem State.leaveDraws_big (ds : List Nat) : (s.leaveDraws ds).big = s.big := rfl
@[simp] theorem State.leaveDraws_buf (ds : List Nat) : (s.leaveDraws ds).buf = s.buf := rfl
@[simp] theorem State.leaveDraws_draws (ds : List Nat) : (s.leaveDraws ds).draws = ds := rfl
@[simp] theorem State.leaveDraws_fresh (ds : List Nat) : (s.leaveDraws ds).fresh = s.fresh := rfl
@[simp] theorem State.leaveDraws_epoch (ds : List Nat) : (s.leaveDraws ds).epoch = s.epoch := rfl
@[simp] theorem State.leaveDraws_turns (ds : List Nat) : (s.leaveDraws ds).turns = s.turns := rfl
@[simp] theorem State.leaveDraws_response (ds : List Nat) : (s.leaveDraws ds).response = s.response := rfl

/-! `State.supplyDraws`. -/

@[simp] theorem State.supplyDraws_params (n : Nat) : (s.supplyDraws n).params = s.params := rfl
@[simp] theorem State.supplyDraws_irqEn (n : Nat) : (s.supplyDraws n).irqEn = s.irqEn := rfl
@[simp] theorem State.supplyDraws_phase (n : Nat) : (s.supplyDraws n).phase = s.phase := rfl
@[simp] theorem State.supplyDraws_done (n : Nat) : (s.supplyDraws n).done = s.done := rfl
@[simp] theorem State.supplyDraws_ksValid (n : Nat) : (s.supplyDraws n).ksValid = s.ksValid := rfl
@[simp] theorem State.supplyDraws_result (n : Nat) : (s.supplyDraws n).result = s.result := rfl
@[simp] theorem State.supplyDraws_werr (n : Nat) : (s.supplyDraws n).werr = s.werr := rfl
@[simp] theorem State.supplyDraws_err (n : Nat) : (s.supplyDraws n).err = s.err := rfl
@[simp] theorem State.supplyDraws_lastCmd (n : Nat) : (s.supplyDraws n).lastCmd = s.lastCmd := rfl
@[simp] theorem State.supplyDraws_keyBytes (n : Nat) : (s.supplyDraws n).keyBytes = s.keyBytes := rfl
@[simp] theorem State.supplyDraws_dataLen (n : Nat) : (s.supplyDraws n).dataLen = s.dataLen := rfl
@[simp] theorem State.supplyDraws_nr (n : Nat) : (s.supplyDraws n).nr = s.nr := rfl
@[simp] theorem State.supplyDraws_mrRounds (n : Nat) : (s.supplyDraws n).mrRounds = s.mrRounds := rfl
@[simp] theorem State.supplyDraws_rsaBits (n : Nat) : (s.supplyDraws n).rsaBits = s.rsaBits := rfl
@[simp] theorem State.supplyDraws_key (n : Nat) : (s.supplyDraws n).key = s.key := rfl
@[simp] theorem State.supplyDraws_din (n : Nat) : (s.supplyDraws n).din = s.din := rfl
@[simp] theorem State.supplyDraws_dout (n : Nat) : (s.supplyDraws n).dout = s.dout := rfl
@[simp] theorem State.supplyDraws_ks (n : Nat) : (s.supplyDraws n).ks = s.ks := rfl
@[simp] theorem State.supplyDraws_big (n : Nat) : (s.supplyDraws n).big = s.big := rfl
@[simp] theorem State.supplyDraws_buf (n : Nat) : (s.supplyDraws n).buf = s.buf := rfl
@[simp] theorem State.supplyDraws_draws (n : Nat) : (s.supplyDraws n).draws = s.draws ++ (List.range n).map (fun i => Config.freeDraw (s.fresh + i)) := rfl
@[simp] theorem State.supplyDraws_fresh (n : Nat) : (s.supplyDraws n).fresh = s.fresh + n := rfl
@[simp] theorem State.supplyDraws_epoch (n : Nat) : (s.supplyDraws n).epoch = s.epoch := rfl
@[simp] theorem State.supplyDraws_turns (n : Nat) : (s.supplyDraws n).turns = s.turns := rfl
@[simp] theorem State.supplyDraws_response (n : Nat) : (s.supplyDraws n).response = s.response := rfl

/-! `State.accept`. -/

@[simp] theorem State.accept_params (w : Word) : (s.accept w).params = s.params := rfl
@[simp] theorem State.accept_irqEn (w : Word) : (s.accept w).irqEn = s.irqEn := rfl
@[simp] theorem State.accept_phase (w : Word) : (s.accept w).phase = .busy (decodeCommand w) := rfl
@[simp] theorem State.accept_done (w : Word) : (s.accept w).done = false := rfl
@[simp] theorem State.accept_ksValid (w : Word) : (s.accept w).ksValid = s.ksValid := rfl
@[simp] theorem State.accept_result (w : Word) : (s.accept w).result = s.result := rfl
@[simp] theorem State.accept_werr (w : Word) : (s.accept w).werr = s.werr := rfl
@[simp] theorem State.accept_err (w : Word) : (s.accept w).err = .ok := rfl
@[simp] theorem State.accept_lastCmd (w : Word) : (s.accept w).lastCmd = w.extractLsb' 0 8 := rfl
@[simp] theorem State.accept_keyBytes (w : Word) : (s.accept w).keyBytes = s.keyBytes := rfl
@[simp] theorem State.accept_dataLen (w : Word) : (s.accept w).dataLen = s.dataLen := rfl
@[simp] theorem State.accept_nr (w : Word) : (s.accept w).nr = s.nr := rfl
@[simp] theorem State.accept_mrRounds (w : Word) : (s.accept w).mrRounds = s.mrRounds := rfl
@[simp] theorem State.accept_rsaBits (w : Word) : (s.accept w).rsaBits = s.rsaBits := rfl
@[simp] theorem State.accept_key (w : Word) : (s.accept w).key = s.key := rfl
@[simp] theorem State.accept_din (w : Word) : (s.accept w).din = s.din := rfl
@[simp] theorem State.accept_dout (w : Word) : (s.accept w).dout = s.dout := rfl
@[simp] theorem State.accept_ks (w : Word) : (s.accept w).ks = s.ks := rfl
@[simp] theorem State.accept_big (w : Word) : (s.accept w).big = s.big := rfl
@[simp] theorem State.accept_buf (w : Word) : (s.accept w).buf = s.buf := rfl
@[simp] theorem State.accept_draws (w : Word) : (s.accept w).draws = s.draws := rfl
@[simp] theorem State.accept_fresh (w : Word) : (s.accept w).fresh = s.fresh := rfl
@[simp] theorem State.accept_epoch (w : Word) : (s.accept w).epoch = s.epoch := rfl
@[simp] theorem State.accept_turns (w : Word) : (s.accept w).turns = s.turns := rfl
@[simp] theorem State.accept_response (w : Word) : (s.accept w).response = s.response := rfl

/-! `State.complete`. -/

@[simp] theorem State.complete_params : (s.complete).params = s.params := rfl
@[simp] theorem State.complete_irqEn : (s.complete).irqEn = s.irqEn := rfl
@[simp] theorem State.complete_phase : (s.complete).phase = .idle := rfl
@[simp] theorem State.complete_done : (s.complete).done = true := rfl
@[simp] theorem State.complete_ksValid : (s.complete).ksValid = s.ksValid := rfl
@[simp] theorem State.complete_result : (s.complete).result = s.result := rfl
@[simp] theorem State.complete_werr : (s.complete).werr = s.werr := rfl
@[simp] theorem State.complete_err : (s.complete).err = .ok := rfl
@[simp] theorem State.complete_lastCmd : (s.complete).lastCmd = s.lastCmd := rfl
@[simp] theorem State.complete_keyBytes : (s.complete).keyBytes = s.keyBytes := rfl
@[simp] theorem State.complete_dataLen : (s.complete).dataLen = s.dataLen := rfl
@[simp] theorem State.complete_nr : (s.complete).nr = s.nr := rfl
@[simp] theorem State.complete_mrRounds : (s.complete).mrRounds = s.mrRounds := rfl
@[simp] theorem State.complete_rsaBits : (s.complete).rsaBits = s.rsaBits := rfl
@[simp] theorem State.complete_key : (s.complete).key = s.key := rfl
@[simp] theorem State.complete_din : (s.complete).din = s.din := rfl
@[simp] theorem State.complete_dout : (s.complete).dout = s.dout := rfl
@[simp] theorem State.complete_ks : (s.complete).ks = s.ks := rfl
@[simp] theorem State.complete_big : (s.complete).big = s.big := rfl
@[simp] theorem State.complete_buf : (s.complete).buf = s.buf := rfl
@[simp] theorem State.complete_draws : (s.complete).draws = s.draws := rfl
@[simp] theorem State.complete_fresh : (s.complete).fresh = s.fresh := rfl
@[simp] theorem State.complete_epoch : (s.complete).epoch = s.epoch := rfl
@[simp] theorem State.complete_turns : (s.complete).turns = s.turns := rfl
@[simp] theorem State.complete_response : (s.complete).response = s.response := rfl

/-! `State.raise`. -/

@[simp] theorem State.raise_params (e : ErrCode) : (s.raise e).params = s.params := rfl
@[simp] theorem State.raise_irqEn (e : ErrCode) : (s.raise e).irqEn = s.irqEn := rfl
@[simp] theorem State.raise_phase (e : ErrCode) : (s.raise e).phase = .idle := rfl
@[simp] theorem State.raise_done (e : ErrCode) : (s.raise e).done = true := rfl
@[simp] theorem State.raise_ksValid (e : ErrCode) : (s.raise e).ksValid = s.ksValid := rfl
@[simp] theorem State.raise_result (e : ErrCode) : (s.raise e).result = s.result := rfl
@[simp] theorem State.raise_werr (e : ErrCode) : (s.raise e).werr = s.werr := rfl
@[simp] theorem State.raise_err (e : ErrCode) : (s.raise e).err = e := rfl
@[simp] theorem State.raise_lastCmd (e : ErrCode) : (s.raise e).lastCmd = s.lastCmd := rfl
@[simp] theorem State.raise_keyBytes (e : ErrCode) : (s.raise e).keyBytes = s.keyBytes := rfl
@[simp] theorem State.raise_dataLen (e : ErrCode) : (s.raise e).dataLen = s.dataLen := rfl
@[simp] theorem State.raise_nr (e : ErrCode) : (s.raise e).nr = s.nr := rfl
@[simp] theorem State.raise_mrRounds (e : ErrCode) : (s.raise e).mrRounds = s.mrRounds := rfl
@[simp] theorem State.raise_rsaBits (e : ErrCode) : (s.raise e).rsaBits = s.rsaBits := rfl
@[simp] theorem State.raise_key (e : ErrCode) : (s.raise e).key = s.key := rfl
@[simp] theorem State.raise_din (e : ErrCode) : (s.raise e).din = s.din := rfl
@[simp] theorem State.raise_dout (e : ErrCode) : (s.raise e).dout = s.dout := rfl
@[simp] theorem State.raise_ks (e : ErrCode) : (s.raise e).ks = s.ks := rfl
@[simp] theorem State.raise_big (e : ErrCode) : (s.raise e).big = s.big := rfl
@[simp] theorem State.raise_buf (e : ErrCode) : (s.raise e).buf = s.buf := rfl
@[simp] theorem State.raise_draws (e : ErrCode) : (s.raise e).draws = s.draws := rfl
@[simp] theorem State.raise_fresh (e : ErrCode) : (s.raise e).fresh = s.fresh := rfl
@[simp] theorem State.raise_epoch (e : ErrCode) : (s.raise e).epoch = s.epoch := rfl
@[simp] theorem State.raise_turns (e : ErrCode) : (s.raise e).turns = s.turns := rfl
@[simp] theorem State.raise_response (e : ErrCode) : (s.raise e).response = s.response := rfl

/-! `State.raiseKeylen`. -/

@[simp] theorem State.raiseKeylen_params : (s.raiseKeylen).params = s.params := rfl
@[simp] theorem State.raiseKeylen_irqEn : (s.raiseKeylen).irqEn = s.irqEn := rfl
@[simp] theorem State.raiseKeylen_phase : (s.raiseKeylen).phase = .idle := rfl
@[simp] theorem State.raiseKeylen_done : (s.raiseKeylen).done = true := rfl
@[simp] theorem State.raiseKeylen_ksValid : (s.raiseKeylen).ksValid = false := rfl
@[simp] theorem State.raiseKeylen_result : (s.raiseKeylen).result = s.result := rfl
@[simp] theorem State.raiseKeylen_werr : (s.raiseKeylen).werr = s.werr := rfl
@[simp] theorem State.raiseKeylen_err : (s.raiseKeylen).err = .keylen := rfl
@[simp] theorem State.raiseKeylen_lastCmd : (s.raiseKeylen).lastCmd = s.lastCmd := rfl
@[simp] theorem State.raiseKeylen_keyBytes : (s.raiseKeylen).keyBytes = s.keyBytes := rfl
@[simp] theorem State.raiseKeylen_dataLen : (s.raiseKeylen).dataLen = s.dataLen := rfl
@[simp] theorem State.raiseKeylen_nr : (s.raiseKeylen).nr = s.nr := rfl
@[simp] theorem State.raiseKeylen_mrRounds : (s.raiseKeylen).mrRounds = s.mrRounds := rfl
@[simp] theorem State.raiseKeylen_rsaBits : (s.raiseKeylen).rsaBits = s.rsaBits := rfl
@[simp] theorem State.raiseKeylen_key : (s.raiseKeylen).key = s.key := rfl
@[simp] theorem State.raiseKeylen_din : (s.raiseKeylen).din = s.din := rfl
@[simp] theorem State.raiseKeylen_dout : (s.raiseKeylen).dout = s.dout := rfl
@[simp] theorem State.raiseKeylen_ks : (s.raiseKeylen).ks = s.ks := rfl
@[simp] theorem State.raiseKeylen_big : (s.raiseKeylen).big = s.big := rfl
@[simp] theorem State.raiseKeylen_buf : (s.raiseKeylen).buf = s.buf := rfl
@[simp] theorem State.raiseKeylen_draws : (s.raiseKeylen).draws = s.draws := rfl
@[simp] theorem State.raiseKeylen_fresh : (s.raiseKeylen).fresh = s.fresh := rfl
@[simp] theorem State.raiseKeylen_epoch : (s.raiseKeylen).epoch = s.epoch := rfl
@[simp] theorem State.raiseKeylen_turns : (s.raiseKeylen).turns = s.turns := rfl
@[simp] theorem State.raiseKeylen_response : (s.raiseKeylen).response = s.response := rfl

/-! `State.clearFlags`. -/

@[simp] theorem State.clearFlags_params (w : Word) : (s.clearFlags w).params = s.params := rfl
@[simp] theorem State.clearFlags_irqEn (w : Word) : (s.clearFlags w).irqEn = s.irqEn := rfl
@[simp] theorem State.clearFlags_phase (w : Word) : (s.clearFlags w).phase = s.phase := rfl
@[simp] theorem State.clearFlags_done (w : Word) : (s.clearFlags w).done = (s.done && !w.getLsbD 1) := rfl
@[simp] theorem State.clearFlags_ksValid (w : Word) : (s.clearFlags w).ksValid = s.ksValid := rfl
@[simp] theorem State.clearFlags_result (w : Word) : (s.clearFlags w).result = s.result := rfl
@[simp] theorem State.clearFlags_werr (w : Word) : (s.clearFlags w).werr = (s.werr && !w.getLsbD 4) := rfl
@[simp] theorem State.clearFlags_err (w : Word) : (s.clearFlags w).err = s.err := rfl
@[simp] theorem State.clearFlags_lastCmd (w : Word) : (s.clearFlags w).lastCmd = s.lastCmd := rfl
@[simp] theorem State.clearFlags_keyBytes (w : Word) : (s.clearFlags w).keyBytes = s.keyBytes := rfl
@[simp] theorem State.clearFlags_dataLen (w : Word) : (s.clearFlags w).dataLen = s.dataLen := rfl
@[simp] theorem State.clearFlags_nr (w : Word) : (s.clearFlags w).nr = s.nr := rfl
@[simp] theorem State.clearFlags_mrRounds (w : Word) : (s.clearFlags w).mrRounds = s.mrRounds := rfl
@[simp] theorem State.clearFlags_rsaBits (w : Word) : (s.clearFlags w).rsaBits = s.rsaBits := rfl
@[simp] theorem State.clearFlags_key (w : Word) : (s.clearFlags w).key = s.key := rfl
@[simp] theorem State.clearFlags_din (w : Word) : (s.clearFlags w).din = s.din := rfl
@[simp] theorem State.clearFlags_dout (w : Word) : (s.clearFlags w).dout = s.dout := rfl
@[simp] theorem State.clearFlags_ks (w : Word) : (s.clearFlags w).ks = s.ks := rfl
@[simp] theorem State.clearFlags_big (w : Word) : (s.clearFlags w).big = s.big := rfl
@[simp] theorem State.clearFlags_buf (w : Word) : (s.clearFlags w).buf = s.buf := rfl
@[simp] theorem State.clearFlags_draws (w : Word) : (s.clearFlags w).draws = s.draws := rfl
@[simp] theorem State.clearFlags_fresh (w : Word) : (s.clearFlags w).fresh = s.fresh := rfl
@[simp] theorem State.clearFlags_epoch (w : Word) : (s.clearFlags w).epoch = s.epoch := rfl
@[simp] theorem State.clearFlags_turns (w : Word) : (s.clearFlags w).turns = s.turns := rfl
@[simp] theorem State.clearFlags_response (w : Word) : (s.clearFlags w).response = s.response := rfl

/-! `State.setCtrl`. -/

@[simp] theorem State.setCtrl_params (w : Word) : (s.setCtrl w).params = s.params := rfl
@[simp] theorem State.setCtrl_irqEn (w : Word) : (s.setCtrl w).irqEn = w.getLsbD 0 := rfl
@[simp] theorem State.setCtrl_phase (w : Word) : (s.setCtrl w).phase = s.phase := rfl
@[simp] theorem State.setCtrl_done (w : Word) : (s.setCtrl w).done = s.done := rfl
@[simp] theorem State.setCtrl_ksValid (w : Word) : (s.setCtrl w).ksValid = s.ksValid := rfl
@[simp] theorem State.setCtrl_result (w : Word) : (s.setCtrl w).result = s.result := rfl
@[simp] theorem State.setCtrl_werr (w : Word) : (s.setCtrl w).werr = s.werr := rfl
@[simp] theorem State.setCtrl_err (w : Word) : (s.setCtrl w).err = s.err := rfl
@[simp] theorem State.setCtrl_lastCmd (w : Word) : (s.setCtrl w).lastCmd = s.lastCmd := rfl
@[simp] theorem State.setCtrl_keyBytes (w : Word) : (s.setCtrl w).keyBytes = s.keyBytes := rfl
@[simp] theorem State.setCtrl_dataLen (w : Word) : (s.setCtrl w).dataLen = s.dataLen := rfl
@[simp] theorem State.setCtrl_nr (w : Word) : (s.setCtrl w).nr = s.nr := rfl
@[simp] theorem State.setCtrl_mrRounds (w : Word) : (s.setCtrl w).mrRounds = s.mrRounds := rfl
@[simp] theorem State.setCtrl_rsaBits (w : Word) : (s.setCtrl w).rsaBits = s.rsaBits := rfl
@[simp] theorem State.setCtrl_key (w : Word) : (s.setCtrl w).key = s.key := rfl
@[simp] theorem State.setCtrl_din (w : Word) : (s.setCtrl w).din = s.din := rfl
@[simp] theorem State.setCtrl_dout (w : Word) : (s.setCtrl w).dout = s.dout := rfl
@[simp] theorem State.setCtrl_ks (w : Word) : (s.setCtrl w).ks = s.ks := rfl
@[simp] theorem State.setCtrl_big (w : Word) : (s.setCtrl w).big = s.big := rfl
@[simp] theorem State.setCtrl_buf (w : Word) : (s.setCtrl w).buf = s.buf := rfl
@[simp] theorem State.setCtrl_draws (w : Word) : (s.setCtrl w).draws = s.draws := rfl
@[simp] theorem State.setCtrl_fresh (w : Word) : (s.setCtrl w).fresh = s.fresh := rfl
@[simp] theorem State.setCtrl_epoch (w : Word) : (s.setCtrl w).epoch = s.epoch := rfl
@[simp] theorem State.setCtrl_turns (w : Word) : (s.setCtrl w).turns = s.turns := rfl
@[simp] theorem State.setCtrl_response (w : Word) : (s.setCtrl w).response = s.response := rfl

/-! `State.setTurns`. -/

@[simp] theorem State.setTurns_params (ts : List Turn) : (s.setTurns ts).params = s.params := rfl
@[simp] theorem State.setTurns_irqEn (ts : List Turn) : (s.setTurns ts).irqEn = s.irqEn := rfl
@[simp] theorem State.setTurns_phase (ts : List Turn) : (s.setTurns ts).phase = s.phase := rfl
@[simp] theorem State.setTurns_done (ts : List Turn) : (s.setTurns ts).done = s.done := rfl
@[simp] theorem State.setTurns_ksValid (ts : List Turn) : (s.setTurns ts).ksValid = s.ksValid := rfl
@[simp] theorem State.setTurns_result (ts : List Turn) : (s.setTurns ts).result = s.result := rfl
@[simp] theorem State.setTurns_werr (ts : List Turn) : (s.setTurns ts).werr = s.werr := rfl
@[simp] theorem State.setTurns_err (ts : List Turn) : (s.setTurns ts).err = s.err := rfl
@[simp] theorem State.setTurns_lastCmd (ts : List Turn) : (s.setTurns ts).lastCmd = s.lastCmd := rfl
@[simp] theorem State.setTurns_keyBytes (ts : List Turn) : (s.setTurns ts).keyBytes = s.keyBytes := rfl
@[simp] theorem State.setTurns_dataLen (ts : List Turn) : (s.setTurns ts).dataLen = s.dataLen := rfl
@[simp] theorem State.setTurns_nr (ts : List Turn) : (s.setTurns ts).nr = s.nr := rfl
@[simp] theorem State.setTurns_mrRounds (ts : List Turn) : (s.setTurns ts).mrRounds = s.mrRounds := rfl
@[simp] theorem State.setTurns_rsaBits (ts : List Turn) : (s.setTurns ts).rsaBits = s.rsaBits := rfl
@[simp] theorem State.setTurns_key (ts : List Turn) : (s.setTurns ts).key = s.key := rfl
@[simp] theorem State.setTurns_din (ts : List Turn) : (s.setTurns ts).din = s.din := rfl
@[simp] theorem State.setTurns_dout (ts : List Turn) : (s.setTurns ts).dout = s.dout := rfl
@[simp] theorem State.setTurns_ks (ts : List Turn) : (s.setTurns ts).ks = s.ks := rfl
@[simp] theorem State.setTurns_big (ts : List Turn) : (s.setTurns ts).big = s.big := rfl
@[simp] theorem State.setTurns_buf (ts : List Turn) : (s.setTurns ts).buf = s.buf := rfl
@[simp] theorem State.setTurns_draws (ts : List Turn) : (s.setTurns ts).draws = s.draws := rfl
@[simp] theorem State.setTurns_fresh (ts : List Turn) : (s.setTurns ts).fresh = s.fresh := rfl
@[simp] theorem State.setTurns_epoch (ts : List Turn) : (s.setTurns ts).epoch = s.epoch := rfl
@[simp] theorem State.setTurns_turns (ts : List Turn) : (s.setTurns ts).turns = ts := rfl
@[simp] theorem State.setTurns_response (ts : List Turn) : (s.setTurns ts).response = s.response := rfl

/-! `State.respond`. -/

@[simp] theorem State.respond_params (r : Option Response) : (s.respond r).params = s.params := rfl
@[simp] theorem State.respond_irqEn (r : Option Response) : (s.respond r).irqEn = s.irqEn := rfl
@[simp] theorem State.respond_phase (r : Option Response) : (s.respond r).phase = s.phase := rfl
@[simp] theorem State.respond_done (r : Option Response) : (s.respond r).done = s.done := rfl
@[simp] theorem State.respond_ksValid (r : Option Response) : (s.respond r).ksValid = s.ksValid := rfl
@[simp] theorem State.respond_result (r : Option Response) : (s.respond r).result = s.result := rfl
@[simp] theorem State.respond_werr (r : Option Response) : (s.respond r).werr = s.werr := rfl
@[simp] theorem State.respond_err (r : Option Response) : (s.respond r).err = s.err := rfl
@[simp] theorem State.respond_lastCmd (r : Option Response) : (s.respond r).lastCmd = s.lastCmd := rfl
@[simp] theorem State.respond_keyBytes (r : Option Response) : (s.respond r).keyBytes = s.keyBytes := rfl
@[simp] theorem State.respond_dataLen (r : Option Response) : (s.respond r).dataLen = s.dataLen := rfl
@[simp] theorem State.respond_nr (r : Option Response) : (s.respond r).nr = s.nr := rfl
@[simp] theorem State.respond_mrRounds (r : Option Response) : (s.respond r).mrRounds = s.mrRounds := rfl
@[simp] theorem State.respond_rsaBits (r : Option Response) : (s.respond r).rsaBits = s.rsaBits := rfl
@[simp] theorem State.respond_key (r : Option Response) : (s.respond r).key = s.key := rfl
@[simp] theorem State.respond_din (r : Option Response) : (s.respond r).din = s.din := rfl
@[simp] theorem State.respond_dout (r : Option Response) : (s.respond r).dout = s.dout := rfl
@[simp] theorem State.respond_ks (r : Option Response) : (s.respond r).ks = s.ks := rfl
@[simp] theorem State.respond_big (r : Option Response) : (s.respond r).big = s.big := rfl
@[simp] theorem State.respond_buf (r : Option Response) : (s.respond r).buf = s.buf := rfl
@[simp] theorem State.respond_draws (r : Option Response) : (s.respond r).draws = s.draws := rfl
@[simp] theorem State.respond_fresh (r : Option Response) : (s.respond r).fresh = s.fresh := rfl
@[simp] theorem State.respond_epoch (r : Option Response) : (s.respond r).epoch = s.epoch := rfl
@[simp] theorem State.respond_turns (r : Option Response) : (s.respond r).turns = s.turns := rfl
@[simp] theorem State.respond_response (r : Option Response) : (s.respond r).response = r := rfl

/-! `State.respondFree`. -/

@[simp] theorem State.respondFree_params : (s.respondFree).params = s.params := rfl
@[simp] theorem State.respondFree_irqEn : (s.respondFree).irqEn = s.irqEn := rfl
@[simp] theorem State.respondFree_phase : (s.respondFree).phase = s.phase := rfl
@[simp] theorem State.respondFree_done : (s.respondFree).done = s.done := rfl
@[simp] theorem State.respondFree_ksValid : (s.respondFree).ksValid = s.ksValid := rfl
@[simp] theorem State.respondFree_result : (s.respondFree).result = s.result := rfl
@[simp] theorem State.respondFree_werr : (s.respondFree).werr = s.werr := rfl
@[simp] theorem State.respondFree_err : (s.respondFree).err = s.err := rfl
@[simp] theorem State.respondFree_lastCmd : (s.respondFree).lastCmd = s.lastCmd := rfl
@[simp] theorem State.respondFree_keyBytes : (s.respondFree).keyBytes = s.keyBytes := rfl
@[simp] theorem State.respondFree_dataLen : (s.respondFree).dataLen = s.dataLen := rfl
@[simp] theorem State.respondFree_nr : (s.respondFree).nr = s.nr := rfl
@[simp] theorem State.respondFree_mrRounds : (s.respondFree).mrRounds = s.mrRounds := rfl
@[simp] theorem State.respondFree_rsaBits : (s.respondFree).rsaBits = s.rsaBits := rfl
@[simp] theorem State.respondFree_key : (s.respondFree).key = s.key := rfl
@[simp] theorem State.respondFree_din : (s.respondFree).din = s.din := rfl
@[simp] theorem State.respondFree_dout : (s.respondFree).dout = s.dout := rfl
@[simp] theorem State.respondFree_ks : (s.respondFree).ks = s.ks := rfl
@[simp] theorem State.respondFree_big : (s.respondFree).big = s.big := rfl
@[simp] theorem State.respondFree_buf : (s.respondFree).buf = s.buf := rfl
@[simp] theorem State.respondFree_draws : (s.respondFree).draws = s.draws := rfl
@[simp] theorem State.respondFree_fresh : (s.respondFree).fresh = s.fresh + 1 := rfl
@[simp] theorem State.respondFree_epoch : (s.respondFree).epoch = s.epoch := rfl
@[simp] theorem State.respondFree_turns : (s.respondFree).turns = s.turns := rfl
@[simp] theorem State.respondFree_response : (s.respondFree).response = some ⟨false, Config.freeRead s.fresh⟩ := rfl

/-! `State.dropWrite`. -/

@[simp] theorem State.dropWrite_params : (s.dropWrite).params = s.params := rfl
@[simp] theorem State.dropWrite_irqEn : (s.dropWrite).irqEn = s.irqEn := rfl
@[simp] theorem State.dropWrite_phase : (s.dropWrite).phase = s.phase := rfl
@[simp] theorem State.dropWrite_done : (s.dropWrite).done = s.done := rfl
@[simp] theorem State.dropWrite_ksValid : (s.dropWrite).ksValid = s.ksValid := rfl
@[simp] theorem State.dropWrite_result : (s.dropWrite).result = s.result := rfl
@[simp] theorem State.dropWrite_werr : (s.dropWrite).werr = true := rfl
@[simp] theorem State.dropWrite_err : (s.dropWrite).err = s.err := rfl
@[simp] theorem State.dropWrite_lastCmd : (s.dropWrite).lastCmd = s.lastCmd := rfl
@[simp] theorem State.dropWrite_keyBytes : (s.dropWrite).keyBytes = s.keyBytes := rfl
@[simp] theorem State.dropWrite_dataLen : (s.dropWrite).dataLen = s.dataLen := rfl
@[simp] theorem State.dropWrite_nr : (s.dropWrite).nr = s.nr := rfl
@[simp] theorem State.dropWrite_mrRounds : (s.dropWrite).mrRounds = s.mrRounds := rfl
@[simp] theorem State.dropWrite_rsaBits : (s.dropWrite).rsaBits = s.rsaBits := rfl
@[simp] theorem State.dropWrite_key : (s.dropWrite).key = s.key := rfl
@[simp] theorem State.dropWrite_din : (s.dropWrite).din = s.din := rfl
@[simp] theorem State.dropWrite_dout : (s.dropWrite).dout = s.dout := rfl
@[simp] theorem State.dropWrite_ks : (s.dropWrite).ks = s.ks := rfl
@[simp] theorem State.dropWrite_big : (s.dropWrite).big = s.big := rfl
@[simp] theorem State.dropWrite_buf : (s.dropWrite).buf = s.buf := rfl
@[simp] theorem State.dropWrite_draws : (s.dropWrite).draws = s.draws := rfl
@[simp] theorem State.dropWrite_fresh : (s.dropWrite).fresh = s.fresh := rfl
@[simp] theorem State.dropWrite_epoch : (s.dropWrite).epoch = s.epoch := rfl
@[simp] theorem State.dropWrite_turns : (s.dropWrite).turns = s.turns := rfl
@[simp] theorem State.dropWrite_response : (s.dropWrite).response = s.response := rfl

end Sys2Proof.Machine
end

