-- ==== Sys2Proof/Laws/Memory.lean ====
section
/-! SUPPORT. A read after a write of a big-number register and of the buffer; the buffer's canonical form and the range
of its offsets. -/

namespace Sys2Proof.Machine

/-- A big-number register after a write of one (10 R36). -/
theorem BigRegs.get_set (g : BigRegs) (r r' : BigReg) (v : Nat) :
    (g.set r v).get r' = if r' = r then v else g.get r' := by
  cases r <;> cases r' <;> rfl

theorem Memory.get?_put (m : Memory) (a : Nat) (b : Byte) (a' : Nat) :
    (m.put a b).get? a' = if a' = a then some b else m.get? a' := by
  induction m with
  | nil => simp only [Memory.put, Memory.get?]
  | cons c m ih =>
    obtain ⟨x, y⟩ := c
    simp only [Memory.put]
    split
    · simp only [Memory.get?]
    · split
      · subst_vars
        simp only [Memory.get?]
        split <;> rfl
      · simp only [Memory.get?, ih]
        split
        · rw [if_neg (by omega)]
        · rfl

/-- What a buffer byte is after a write of a byte string. -/
theorem Memory.get?_putBytes (m : Memory) (a : Nat) (bs : List Byte) (a' : Nat) :
    (m.putBytes a bs).get? a' = if a ≤ a' ∧ a' < a + bs.length then bs[a' - a]? else m.get? a' := by
  induction bs generalizing m a with
  | nil => simp only [Memory.putBytes, List.length_nil]; rw [if_neg (by omega)]
  | cons b bs ih =>
    rw [Memory.putBytes, ih, Memory.get?_put, List.length_cons]
    by_cases h : a' = a
    · subst h; simp
    · by_cases h' : a + 1 ≤ a' ∧ a' < a + 1 + bs.length
      · rw [if_pos h', if_pos (by omega), show a' - a = (a' - (a + 1)) + 1 by omega, List.getElem?_cons_succ]
      · rw [if_neg h', if_neg h, if_neg (by omega)]

theorem Memory.mem_put {m : Memory} {a : Nat} {b : Byte} {c : Host.Cell} (h : c ∈ m.put a b) :
    c = (a, b) ∨ c ∈ m := by
  induction m with
  | nil => simpa [Memory.put] using h
  | cons d m ih =>
    simp only [Memory.put] at h
    split at h
    · simpa using h
    · split at h
      · simp only [List.mem_cons] at h ⊢; tauto
      · simp only [List.mem_cons] at h ⊢
        rcases h with h | h
        · tauto
        · rcases ih h with h | h <;> tauto

/-- A write keeps the canonical form. -/
theorem Memory.wf_put {m : Memory} (h : m.wf) (a : Nat) (b : Byte) : (m.put a b).wf := by
  induction m with
  | nil => simp [Memory.put, Memory.wf]
  | cons c m ih =>
    simp only [Memory.wf, List.pairwise_cons] at h ⊢
    simp only [Memory.put]
    split
    · rename_i hlt
      simp only [List.pairwise_cons, List.mem_cons]
      refine ⟨?_, h⟩
      rintro d (rfl | hd)
      · exact hlt
      · exact lt_trans hlt (h.1 d hd)
    · split
      · rename_i heq
        simp only [List.pairwise_cons]
        exact ⟨fun d hd => by rw [heq]; exact h.1 d hd, h.2⟩
      · simp only [List.pairwise_cons]
        refine ⟨fun d hd => ?_, ih h.2⟩
        rcases Memory.mem_put hd with rfl | hd
        · simp only; omega
        · exact h.1 d hd

theorem Memory.wf_putBytes {m : Memory} (h : m.wf) (a : Nat) (bs : List Byte) : (m.putBytes a bs).wf := by
  induction bs generalizing m a with
  | nil => exact h
  | cons b bs ih => exact ih (Memory.wf_put h a b) (a + 1)

/-- A write lists only offsets that were listed or that it writes. -/
theorem Memory.mem_putBytes {m : Memory} {a : Nat} {bs : List Byte} {c : Host.Cell} (h : c ∈ m.putBytes a bs) :
    c ∈ m ∨ (a ≤ c.1 ∧ c.1 < a + bs.length) := by
  induction bs generalizing m a with
  | nil => exact .inl h
  | cons b bs ih =>
    rw [List.length_cons]
    rcases ih h with h | h
    · rcases Memory.mem_put h with rfl | h
      · right; simp only; omega
      · exact .inl h
    · right; omega

/-- A write below `n` keeps every listed offset below `n`. -/
theorem Memory.inRange_putBytes {m : Memory} {n : Nat} (h : ∀ c ∈ m, c.1 < n) {a : Nat} {bs : List Byte}
    (hn : a + bs.length ≤ n) : ∀ c ∈ m.putBytes a bs, c.1 < n := by
  intro c hc
  rcases Memory.mem_putBytes hc with hc | hc
  · exact h c hc
  · omega

/-- Reset leaves a canonical buffer: nothing is listed (70 R401). -/
theorem State.wf_buf_reset : State.reset.buf.wf := List.Pairwise.nil

variable (s : State)

/-- MemRead after MemWrite, byte by byte. -/
theorem State.readByte_memWrite (a : Nat) (bs : List Byte) (a' : Nat) :
    (s.memWrite a bs).readByte a' =
      if a ≤ a' ∧ a' < a + bs.length then bs.getD (a' - a) 0#8 else s.readByte a' := by
  simp only [State.readByte, State.memWrite, Memory.get?_putBytes]
  split
  · rename_i h
    rw [List.getElem?_eq_getElem (by omega), Option.getD_some, List.getD_eq_getElem _ _ (by omega)]
  · rfl

@[simp] theorem State.length_memRead (a n : Nat) : (s.memRead a n).length = n := by simp [State.memRead]

@[simp] theorem State.getElem_memRead (a n i : Nat) (h : i < (s.memRead a n).length) :
    (s.memRead a n)[i] = s.readByte (a + i) := by simp [State.memRead]

/-- MemRead depends on the buffer and the reset epoch alone. -/
theorem State.readByte_congr {s t : State} (hb : t.buf = s.buf) (he : t.epoch = s.epoch) (a : Nat) :
    t.readByte a = s.readByte a := by simp only [State.readByte, hb, he]

theorem State.memRead_congr {s t : State} {a n : Nat} (h : ∀ i < n, t.readByte (a + i) = s.readByte (a + i)) :
    t.memRead a n = s.memRead a n := by
  apply List.ext_getElem (by simp)
  intro i h1 _
  rw [State.getElem_memRead, State.getElem_memRead]
  exact h i (by simpa using h1)

end Sys2Proof.Machine
end

