-- ==== Sys2Proof/Laws/Bus.lean ====
section
/-! SUPPORT. Everything a turn, a host access, a read and a write can do. -/

namespace Sys2Proof.Machine

variable (s : State)

/-! What a location reads does not depend on the turns or on the latest answer. -/

@[simp] theorem State.locWord_setTurns (ts : List Turn) (l : Loc) : (s.setTurns ts).locWord l = s.locWord l := by
  cases l <;> rfl

@[simp] theorem State.locWord_respond (r : Option Response) (l : Loc) : (s.respond r).locWord l = s.locWord l := by
  cases l <;> rfl

@[simp] theorem State.locWord_respondFree (l : Loc) : s.respondFree.locWord l = s.locWord l := by
  cases l <;> rfl

/-- What a location's word is read from, the parameters and the reset epoch apart. -/
def State.sameAt (t s : State) : Loc → Prop
  | .id | .cfg | .cmd | .reserved => True
  | .ctrl     => t.irqEn = s.irqEn
  | .status   => t.statusWord = s.statusWord
  | .keyBytes => t.keyBytes = s.keyBytes
  | .dataLen  => t.dataLen = s.dataLen
  | .nr       => t.ksValid = s.ksValid ∧ t.nr = s.nr
  | .mrRounds => t.mrRounds = s.mrRounds
  | .rsaBits  => t.rsaBits = s.rsaBits
  | .key _    => t.key = s.key
  | .din _    => t.din = s.din
  | .dout _   => t.dout = s.dout
  | .ks _     => t.ks = s.ks
  | .big r _  => t.getBig r = s.getBig r
  | .buf _    => t.buf = s.buf

theorem State.locWord_congr {s t : State} {l : Loc} (hp : t.params = s.params) (he : t.epoch = s.epoch)
    (h : t.sameAt s l) : t.locWord l = s.locWord l := by
  cases l <;> simp only [State.sameAt] at h
  case buf j =>
    simp only [State.locWord, hp, State.memRead_congr (s := s) (t := t) fun i _ => State.readByte_congr h he _]
  all_goals simp only [State.locWord, State.cfgWord, State.ctrlWord, State.nrWord, h, hp]

@[simp] theorem State.inWriteSet_setTurns (ts : List Turn) (op : Command) (l : Loc) :
    (s.setTurns ts).inWriteSet op l = s.inWriteSet op l := (rfl)

@[simp] theorem State.isBusy_setTurns (ts : List Turn) : (s.setTurns ts).isBusy = s.isBusy := (rfl)

theorem State.isBusy_of_idle (h : s.phase = .idle) : s.isBusy = false := by simp only [State.isBusy, h]

theorem State.isBusy_of_busy {op : Command} (h : s.phase = .busy op) : s.isBusy = true := by
  simp only [State.isBusy, h]

theorem State.readsFree_of_idle (h : s.phase = .idle) (l : Loc) : s.readsFree l = false := by
  simp only [State.readsFree, h]

theorem State.readsFree_of_busy {op : Command} (h : s.phase = .busy op) (l : Loc) :
    s.readsFree l = s.inWriteSet op l := by simp only [State.readsFree, h]

@[simp] theorem State.readsFree_setTurns (ts : List Turn) (l : Loc) :
    (s.setTurns ts).readsFree l = s.readsFree l := (rfl)

/-- A window word holds a pad byte (42 R205). -/
theorem padWord_iff (len j : Nat) : (∃ a, 4 * j ≤ a ∧ a < 4 * j + 4 ∧ len ≤ a ∧ a < len + (16 - len % 16)) ↔
    (len < 4 * j + 4 ∧ 4 * j < len + padCount len) := by
  simp only [padCount]
  exact ⟨fun ⟨a, h⟩ => by omega, fun h => ⟨max (4 * j) len, by omega⟩⟩

/-- The write set is the one the statements name (30 R104, 40 R138). -/
theorem State.inWriteSet_iff {op : Command} {l : Loc} : s.inWriteSet op l = true ↔ s.writing op l := by
  rcases op with i | _
  · cases l with
    | big r k => cases r <;> cases i <;>
        simp [State.inWriteSet, State.writing, writesOf, isSchedule, isBuffer, isBigReg, isDout, isKey, isPadWord,
          Params.rsaWords]
    | buf j => cases i <;>
        simp [State.inWriteSet, State.writing, writesOf, isSchedule, isBuffer, isBigReg, isDout, isKey, isPadWord,
          padWord_iff]
    | _ =>
      simp only [State.writing, writesOf, reduceCtorEq, false_implies, implies_true, and_true]
      cases i <;> simp [State.inWriteSet, isSchedule, isBuffer, isBigReg, isDout, isKey, isPadWord]
  · simp only [State.inWriteSet, State.writing, Bool.false_eq_true]

/-- Only aperture words below RSA_WORDS are in a write set (10 R37). -/
theorem State.hasBigWord_of_inWriteSet {op : Command} {r : BigReg} {i : Fin 128}
    (h : s.inWriteSet op (.big r i) = true) : hasBigWord s.params i.val := by
  rw [State.inWriteSet_iff] at h
  cases op
  · cases r <;> exact h.1.1
  · cases h

/-- Only window words below BUF_BYTES are in a write set (20 R70, R71). -/
theorem State.hasBufWord_of_inWriteSet {op : Command} {j : Fin 4096}
    (h : s.inWriteSet op (.buf j) = true) : hasBufWord s.params j.val := by
  rw [State.inWriteSet_iff] at h
  cases op
  · exact h.1.1
  · cases h

theorem State.store_of_idle (h : s.phase = .idle) (l : Loc) (w : Word) : s.store l w = s.storeIdle l w := by
  simp only [State.store, s.isBusy_of_idle h, Bool.false_eq_true, if_false]

theorem State.store_of_busy {op : Command} (h : s.phase = .busy op) (l : Loc) (w : Word) :
    s.store l w = s.storeBusy l w := by
  simp only [State.store, s.isBusy_of_busy h, if_true]

/-- A write while BUSY changes IRQ_EN, DONE and WERR at most (40 R137). -/
theorem State.storeBusy_cases (l : Loc) (w : Word) :
    (l = .ctrl ∧ s.storeBusy l w = s.setCtrl w) ∨ (l = .status ∧ s.storeBusy l w = s.clearFlags w) ∨
    (l = .reserved ∧ s.storeBusy l w = s) ∨
    (l ≠ .ctrl ∧ l ≠ .status ∧ l ≠ .reserved ∧ s.storeBusy l w = s.dropWrite) := by
  cases l <;> simp [State.storeBusy]

/-- A read can return the current value, or a free value where the location is being written (40 R138). -/
theorem State.load_cases (l : Loc) :
    (s.readsFree l = false ∧ s.load l = s.respond (some ⟨false, s.locWord l⟩)) ∨
    (s.readsFree l = true ∧ s.load l = s.respondFree) := by
  simp only [State.load]
  split
  · exact .inr ⟨by assumption, rfl⟩
  · rename_i h
    exact .inl ⟨by simpa using h, rfl⟩

/-- An aperture word past RSA_WORDS reads 0 in every phase (10 R37). -/
theorem State.load_big_of_not {r : BigReg} {i : Fin 128} (h : ¬ hasBigWord s.params i.val) :
    s.load (.big r i) = s.respond (some ⟨false, 0#32⟩) := by
  rcases s.load_cases (.big r i) with ⟨_, e⟩ | ⟨hf, _⟩
  · rw [e, State.locWord, if_neg h]
  · rcases hp : s.phase with _ | op
    · rw [s.readsFree_of_idle hp] at hf; cases hf
    · rw [s.readsFree_of_busy hp] at hf; exact absurd (s.hasBigWord_of_inWriteSet hf) h

/-- A window word past BUF_BYTES reads 0 in every phase (20 R70). -/
theorem State.load_buf_of_not {j : Fin 4096} (h : ¬ hasBufWord s.params j.val) :
    s.load (.buf j) = s.respond (some ⟨false, 0#32⟩) := by
  rcases s.load_cases (.buf j) with ⟨_, e⟩ | ⟨hf, _⟩
  · rw [e, State.locWord, if_neg h]
  · rcases hp : s.phase with _ | op
    · rw [s.readsFree_of_idle hp] at hf; cases hf
    · rw [s.readsFree_of_busy hp] at hf; exact absurd (s.hasBufWord_of_inWriteSet hf) h

/-- What a host access can do (20 R75, R78). -/
theorem State.hostAccess_cases (a : Access) :
    (decodeAddr s.params a.addr = none ∧ s.hostAccess a = s.respond none) ∨
    ∃ off, decodeAddr s.params a.addr = some off ∧
      ((accessWellFormed off a.lanes = false ∧ s.hostAccess a = s.respond (some ⟨true, 0#32⟩)) ∨
       (accessWellFormed off a.lanes = true ∧ a.dir = .read ∧ s.hostAccess a = s.load (locate off)) ∨
       (accessWellFormed off a.lanes = true ∧ ∃ w, a.dir = .write w ∧
          s.hostAccess a = (s.store (locate off) w).respond (some ⟨false, 0#32⟩))) := by
  simp only [State.hostAccess]
  rcases hd : decodeAddr s.params a.addr with _ | off
  · exact .inl ⟨rfl, rfl⟩
  · refine .inr ⟨off, rfl, ?_⟩
    rcases hw : accessWellFormed off a.lanes with _ | _
    · exact .inl ⟨rfl, by simp [hw]⟩
    · rcases hdir : a.dir with _ | w
      · exact .inr (.inl ⟨rfl, rfl, by simp [hw]⟩)
      · exact .inr (.inr ⟨rfl, w, rfl, by simp [hw]⟩)

theorem accessWellFormed_iff {off : Offset} {lanes : BitVec 4} :
    accessWellFormed off lanes = true ↔ offsetAligned off = true ∧ lanes = 0xF#4 := by
  simp [accessWellFormed, allLanes]

/-- A served host access is the read or the write of its location. -/
theorem step_of_nextAccess {off : Offset} {dir : Dir} {ts : List Turn} (h : s.nextAccess off dir ts) :
    step s = .next (match dir with
      | .read    => (s.setTurns ts).load (locate off)
      | .write w => ((s.setTurns ts).store (locate off) w).respond (some ⟨false, 0#32⟩)) := by
  obtain ⟨addr, ht, hd, ha⟩ := h
  have hw : accessWellFormed off 0xF#4 = true := accessWellFormed_iff.mpr ⟨ha, rfl⟩
  simp only [step, takeTurn, ht, State.hostAccess, State.setTurns_params, hd, hw, if_true]
  cases dir <;> rfl

/-- What the engine's turn can do. -/
theorem engineTurn_cases :
    (s.phase = .idle ∧ engineTurn s = .next s) ∨
    (s.phase = .busy .badCmd ∧ engineTurn s = .next (s.raise .badcmd)) ∨
    ∃ i, s.phase = .busy (.instr i) ∧ engineTurn s = exec i s := by
  simp only [engineTurn]
  rcases h : s.phase with _ | _ | i
  · exact .inl ⟨rfl, rfl⟩
  · exact .inr (.inr ⟨_, rfl, rfl⟩)
  · exact .inr (.inl ⟨rfl, rfl⟩)

/-- What a step can do: an engine's turn, a host access, or RST. -/
theorem step_cases :
    (∃ ts, (s.turns = ts ∧ ts = [] ∨ s.turns = .engine :: ts) ∧ step s = engineTurn (s.setTurns ts)) ∨
    (∃ a ts, s.turns = .host a :: ts ∧ step s = .next ((s.setTurns ts).hostAccess a)) ∨
    (∃ ts, s.turns = .rst :: ts ∧ step s = .next (s.setTurns ts).assertRst) := by
  simp only [step, takeTurn]
  rcases h : s.turns with _ | ⟨_ | a | _, ts⟩
  · refine .inl ⟨[], .inl ⟨rfl, rfl⟩, ?_⟩
    have : s.setTurns [] = s := by rw [← h]; rfl
    rw [this]
  · exact .inl ⟨ts, .inr rfl, rfl⟩
  · exact .inr (.inl ⟨a, ts, rfl, rfl⟩)
  · exact .inr (.inr ⟨ts, rfl, rfl⟩)

end Sys2Proof.Machine
end

