-- ==== Sys2Proof/Laws/Operands.lean ====
section
/-! SUPPORT. What the shared operand operations can do: key and schedule, padding, the block loop. -/

namespace Sys2Proof.Machine

variable (s : State)

/-! The key and the schedule. -/

theorem roundsOf_eq_some_iff {n r : Nat} :
    roundsOf n = some r ↔ (n = 16 ∨ n = 24 ∨ n = 32) ∧ r = n / 4 + 6 := by
  unfold roundsOf
  split <;> simp_all [eq_comm]

theorem roundsOf_isNone_iff {n : Nat} : (roundsOf n).isNone = true ↔ n ≠ 16 ∧ n ≠ 24 ∧ n ≠ 32 := by
  unfold roundsOf
  split <;> simp_all

theorem roundsOf_of_valid {n : Nat} (h : n = 16 ∨ n = 24 ∨ n = 32) : roundsOf n = some (n / 4 + 6) :=
  roundsOf_eq_some_iff.mpr ⟨h, rfl⟩

theorem roundsOf_of_invalid {n : Nat} (h : ¬ (n = 16 ∨ n = 24 ∨ n = 32)) : roundsOf n = none := by
  rw [← Option.isNone_iff_eq_none, roundsOf_isNone_iff]; omega

/-- KEYBYTES depends on KEY and KEY_BYTES alone. -/
theorem State.keyString_congr {s t : State} (hk : t.key = s.key) (hb : t.keyBytes = s.keyBytes) :
    t.keyString = s.keyString := by simp only [State.keyString, hk, hb]

theorem length_flatMap_wordBytes (l : List Word) : (l.flatMap wordBytes).length = 4 * l.length := by
  induction l with
  | nil => rfl
  | cons w l ih => simp [ih]; omega

theorem State.length_keyString (h : s.keyBytes.toNat ≤ 32) : s.keyString.length = s.keyBytes.toNat := by
  simp only [State.keyString, List.length_take, length_flatMap_wordBytes, Vector.length_toList]; omega

theorem State.expand_of_valid (h : s.keyBytes.toNat = 16 ∨ s.keyBytes.toNat = 24 ∨ s.keyBytes.toNat = 32) :
    s.expand = some (s.setSchedule (keySchedule s.keyString) (s.keyBytes.toNat / 4 + 6)) := by
  simp only [State.expand, roundsOf_of_valid h]

theorem State.expand_of_invalid (h : ¬ (s.keyBytes.toNat = 16 ∨ s.keyBytes.toNat = 24 ∨ s.keyBytes.toNat = 32)) :
    s.expand = none := by
  simp only [State.expand, roundsOf_of_invalid h]

/-- EnsureSchedule where a schedule is stored or can be built. -/
theorem State.ensureSchedule_of_ready (h : s.keyReady) : s.ensureSchedule = some s.scheduled := by
  unfold State.ensureSchedule State.scheduled
  split
  · rfl
  · rename_i hv
    rw [s.expand_of_valid (h.resolve_left hv)]; rfl

/-- EnsureSchedule where none can be built. -/
theorem State.ensureSchedule_of_not_ready (h : ¬ s.keyReady) : s.ensureSchedule = none := by
  unfold State.keyReady at h
  push Not at h
  simp only [State.ensureSchedule, if_neg h.1]
  exact s.expand_of_invalid (by omega)

theorem withSchedule_of_ready (rest : State → State) (h : s.keyReady) :
    withSchedule s rest = rest s.scheduled := by
  simp only [withSchedule, s.ensureSchedule_of_ready h]

theorem withSchedule_of_not_ready (rest : State → State) (h : ¬ s.keyReady) :
    withSchedule s rest = s.raiseKeylen := by
  simp only [withSchedule, s.ensureSchedule_of_not_ready h]

/-- What an AES command can do: KEYLEN, or the rest of it on the state EnsureSchedule leaves (42 R201). -/
theorem withSchedule_cases (rest : State → State) :
    (¬ s.keyReady ∧ s.ksValid = false ∧ withSchedule s rest = s.raiseKeylen) ∨
    (s.keyReady ∧ withSchedule s rest = rest s.scheduled) := by
  by_cases h : s.keyReady
  · exact .inr ⟨h, withSchedule_of_ready s rest h⟩
  · refine .inl ⟨h, ?_, withSchedule_of_not_ready s rest h⟩
    simp only [State.keyReady, not_or, Bool.not_eq_true] at h
    exact h.1

/-- EnsureSchedule changes KS, NR and KS_VALID alone. -/
theorem State.scheduled_eq :
    s.scheduled = { s with ks := s.scheduled.ks, nr := s.scheduled.nr, ksValid := s.scheduled.ksValid } := by
  unfold State.scheduled; split <;> rfl

@[simp] theorem State.scheduled_params : s.scheduled.params = s.params := by rw [s.scheduled_eq]
@[simp] theorem State.scheduled_phase : s.scheduled.phase = s.phase := by rw [s.scheduled_eq]
@[simp] theorem State.scheduled_dataLen : s.scheduled.dataLen = s.dataLen := by rw [s.scheduled_eq]
@[simp] theorem State.scheduled_keyBytes : s.scheduled.keyBytes = s.keyBytes := by rw [s.scheduled_eq]
@[simp] theorem State.scheduled_key : s.scheduled.key = s.key := by rw [s.scheduled_eq]
@[simp] theorem State.scheduled_din : s.scheduled.din = s.din := by rw [s.scheduled_eq]
@[simp] theorem State.scheduled_big : s.scheduled.big = s.big := by rw [s.scheduled_eq]
@[simp] theorem State.scheduled_buf : s.scheduled.buf = s.buf := by rw [s.scheduled_eq]
@[simp] theorem State.scheduled_epoch : s.scheduled.epoch = s.epoch := by rw [s.scheduled_eq]
@[simp] theorem State.scheduled_ksValid : s.scheduled.ksValid = true := by
  unfold State.scheduled; split <;> simp_all

@[simp] theorem State.scheduled_readByte (a : Nat) : s.scheduled.readByte a = s.readByte a :=
  State.readByte_congr s.scheduled_buf s.scheduled_epoch a

@[simp] theorem State.scheduled_memRead (a n : Nat) : s.scheduled.memRead a n = s.memRead a n :=
  State.memRead_congr fun _ _ => s.scheduled_readByte _

/-- The state EnsureSchedule leaves keeps the promise of KS_VALID. -/
theorem State.scheduled_current (h : s.keyReady) (hs : s.ksValid = true → s.scheduleCurrent) :
    s.scheduled.scheduleCurrent := by
  unfold State.scheduled
  split
  · exact hs ‹_›
  · rename_i hv
    have hb := h.resolve_left hv
    refine ⟨?_, rfl⟩
    simp only [BitVec.toNat_ofNat]
    rw [roundsOf_of_valid hb, Nat.mod_eq_of_lt (by omega)]

/-! Padding. -/

theorem padCount_pos (len : Nat) : 1 ≤ padCount len := by unfold padCount; omega

theorem padCount_le (len : Nat) : padCount len ≤ 16 := by unfold padCount; omega

@[simp] theorem length_padBytes (len : Nat) : (padBytes len).length = padCount len := by simp [padBytes]

theorem add_padCount_mod (len : Nat) : (len + padCount len) % 16 = 0 := by unfold padCount; omega

theorem getD_padBytes {len i : Nat} (h : i < padCount len) :
    (padBytes len).getD i 0#8 = BitVec.ofNat 8 (padCount len) := by
  simp [padBytes, h]

/-- A message that ends with p bytes of value p, 1 ≤ p ≤ 16, is padded. -/
theorem State.checkPadding_of_padded {len p : Nat} (hl : len ≠ 0) (hp : p = (s.readByte (len - 1)).toNat)
    (h1 : 1 ≤ p) (h16 : p ≤ 16) (hall : ∀ i, 1 ≤ i → i ≤ p → s.readByte (len - i) = BitVec.ofNat 8 p) :
    s.checkPadding len = some p := by
  have hp0 : s.readByte (len - 1) = BitVec.ofNat 8 p := hall 1 le_rfl h1
  have hne : s.readByte (len - 1) ≠ 0#8 := by
    intro h0; rw [h0] at hp; simp at hp; omega
  simp only [State.checkPadding, if_neg hl, ← hp]
  rw [if_neg (by rintro (h | h); exact hne h; omega), if_pos]
  simp only [List.all_eq_true, List.mem_range, beq_iff_eq]
  intro i hi
  rw [hall (i + 1) (by omega) (by omega), hp0]

/-- Every other message is not. -/
theorem State.checkPadding_of_not_padded {len p : Nat} (hp : p = (s.readByte (len - 1)).toNat)
    (h : len = 0 ∨ p = 0 ∨ 16 < p ∨ ∃ i, 1 ≤ i ∧ i ≤ p ∧ s.readByte (len - i) ≠ BitVec.ofNat 8 p) :
    s.checkPadding len = none := by
  unfold State.checkPadding
  split
  · rfl
  · rename_i hl
    simp only
    split
    · rfl
    · rename_i hz
      push Not at hz
      rw [← hp] at hz ⊢
      have hb : s.readByte (len - 1) = BitVec.ofNat 8 p := by rw [hp]; simp
      rw [if_neg]
      rcases h with h | h | h | ⟨i, h1, h2, h3⟩
      · exact absurd h hl
      · exact absurd (by rw [hb, h]) hz.1
      · omega
      · simp only [List.all_eq_true, List.mem_range, beq_iff_eq, not_forall]
        refine ⟨i - 1, by omega, ?_⟩
        rw [show i - 1 + 1 = i by omega, hb]; exact h3

/-- What the padding check can answer (42 R206). -/
theorem State.checkPadding_cases (len : Nat) :
    s.checkPadding len = none ∨ ∃ p, s.checkPadding len = some p ∧ 1 ≤ p ∧ p ≤ 16 := by
  unfold State.checkPadding
  split
  · exact .inl rfl
  · simp only
    split
    · exact .inl rfl
    · rename_i hz
      push Not at hz
      split
      · refine .inr ⟨_, rfl, ?_, hz.2⟩
        rcases Nat.eq_zero_or_pos (s.readByte (len - 1)).toNat with h | h
        · exact absurd (BitVec.eq_of_toNat_eq (by simpa using h)) hz.1
        · exact h
      · exact .inl rfl

/-! The block loop. -/

/-- The block loop writes the buffer alone. -/
theorem State.mapBlocks_eq (f : Block → Block) (n : Nat) :
    s.mapBlocks f n = { s with buf := (s.mapBlocks f n).buf } := by
  induction n with
  | zero => rfl
  | succ n ih => rw [State.mapBlocks]; simp only [State.memWrite]; rw [ih]

@[simp] theorem State.mapBlocks_params (f : Block → Block) (n : Nat) : (s.mapBlocks f n).params = s.params := by
  rw [s.mapBlocks_eq]
@[simp] theorem State.mapBlocks_epoch (f : Block → Block) (n : Nat) : (s.mapBlocks f n).epoch = s.epoch := by
  rw [s.mapBlocks_eq]
@[simp] theorem State.mapBlocks_dataLen (f : Block → Block) (n : Nat) : (s.mapBlocks f n).dataLen = s.dataLen := by
  rw [s.mapBlocks_eq]

/-- What a byte is after the block loop: its block's transform within the message, unchanged past it. -/
theorem State.readByte_mapBlocks (f : Block → Block) (n a : Nat) :
    (s.mapBlocks f n).readByte a =
      if a < 16 * n then
        (blockBytes (f (blockOfBytes (s.memRead (16 * (a / 16)) 16)))).getD (a - 16 * (a / 16)) 0#8
      else s.readByte a := by
  induction n with
  | zero => simp [State.mapBlocks]
  | succ n ih =>
    have hread : (s.mapBlocks f n).memRead (16 * n) 16 = s.memRead (16 * n) 16 := by
      apply State.memRead_congr
      intro i hi
      have hn : ∀ a, 16 * n ≤ a → (s.mapBlocks f n).readByte a = s.readByte a := by
        clear ih
        intro a ha
        induction n with
        | zero => rfl
        | succ n ih =>
          rw [State.mapBlocks, State.readByte_memWrite, if_neg (by simp; omega)]
          exact ih (by omega)
      exact hn _ (by omega)
    rw [State.mapBlocks, State.readByte_memWrite, hread, length_blockBytes]
    split
    · rename_i h
      rw [if_pos (by omega), show a / 16 = n by omega]
    · rename_i h
      rw [ih]
      split
      · rw [if_pos (by omega)]
      · rw [if_neg (by omega)]

/-- Block `i` of the message after the block loop. -/
theorem State.memRead_mapBlocks (f : Block → Block) {n i : Nat} (hi : i < n) :
    (s.mapBlocks f n).memRead (16 * i) 16 = blockBytes (f (blockOfBytes (s.memRead (16 * i) 16))) := by
  apply List.ext_getElem (by simp)
  intro j h1 h2
  simp only [State.length_memRead] at h1
  rw [State.getElem_memRead, State.readByte_mapBlocks, if_pos (by omega), show (16 * i + j) / 16 = i by omega,
    show 16 * i + j - 16 * i = j by omega, List.getD_eq_getElem _ _ h2]

/-- Past the message the block loop changes nothing. -/
theorem State.readByte_mapBlocks_ge (f : Block → Block) {n a : Nat} (h : 16 * n ≤ a) :
    (s.mapBlocks f n).readByte a = s.readByte a := by
  rw [State.readByte_mapBlocks, if_neg (by omega)]

theorem State.wf_mapBlocks (f : Block → Block) (n : Nat) (h : s.buf.wf) : (s.mapBlocks f n).buf.wf := by
  induction n with
  | zero => exact h
  | succ n ih => exact Memory.wf_putBytes ih _ _

theorem State.inRange_mapBlocks (f : Block → Block) {n m : Nat} (h : ∀ c ∈ s.buf, c.1 < m) (hn : 16 * n ≤ m) :
    ∀ c ∈ (s.mapBlocks f n).buf, c.1 < m := by
  induction n with
  | zero => exact h
  | succ n ih => exact Memory.inRange_putBytes (ih (by omega)) (by simp; omega)

end Sys2Proof.Machine
end

