-- ==== Sys2Proof/Laws/Rsa.lean ====
section
/-! SUPPORT. What the loops of the RSA primitives compute, and that their fuel and their supply of draws suffice. -/

namespace Sys2Proof.Machine

/-! Splitting off the twos (43 R256). -/

theorem splitTwos_spec {fuel m : Nat} (hm : 1 ≤ m) (hf : m < 2 ^ fuel) :
    (splitTwos fuel m).1 % 2 = 1 ∧ m = (splitTwos fuel m).1 * 2 ^ (splitTwos fuel m).2 := by
  induction fuel generalizing m with
  | zero => simp at hf; omega
  | succ fuel ih =>
    rw [splitTwos]
    split
    · rename_i h2
      have := ih (m := m / 2) (by omega) (by rw [pow_succ] at hf; omega)
      refine ⟨this.1, ?_⟩
      simp only
      rw [pow_succ, ← mul_assoc, ← this.2]; omega
    · simp; omega

/-- An odd part and its power of two are unique. -/
theorem odd_mul_two_pow_inj {d d' r r' : Nat} (hd : d % 2 = 1) (hd' : d' % 2 = 1)
    (h : d * 2 ^ r = d' * 2 ^ r') : d = d' ∧ r = r' := by
  have even : ∀ x k, x * 2 ^ (k + 1) = 2 * (x * 2 ^ k) := by intro x k; rw [pow_succ]; ring
  induction r generalizing r' with
  | zero =>
    cases r' with
    | zero => simpa using h
    | succ r' => rw [even, pow_zero, mul_one] at h; omega
  | succ r ih =>
    cases r' with
    | zero => rw [even, pow_zero, mul_one] at h; omega
    | succ r' =>
      rw [even, even] at h
      have := ih (r' := r') (by omega)
      exact ⟨this.1, by omega⟩

theorem splitTwos_eq {n d r : Nat} (hn : 2 ≤ n) (hd : d % 2 = 1) (h : n - 1 = d * 2 ^ r) :
    splitTwos (bitlen (n - 1)) (n - 1) = (d, r) := by
  have hs := splitTwos_spec (fuel := bitlen (n - 1)) (m := n - 1) (by omega) (lt_two_pow_bitlen _)
  have := odd_mul_two_pow_inj hs.1 hd (hs.2.symm.trans h)
  exact Prod.ext this.1 this.2

/-! Trial division (43 R256). -/

/-- Trial division settles nothing exactly where no prime of the list is n or divides it. -/
theorem trialDivision_eq_none_iff {n : Nat} {ps : List Nat} :
    trialDivision n ps = none ↔ ∀ p ∈ ps, n % p ≠ 0 ∧ n ≠ p := by
  induction ps with
  | nil => simp [trialDivision]
  | cons p ps ih =>
    rw [trialDivision]
    split
    · simp [*]
    · split
      · simp [*]
      · simp [*]

/-- SMALL_PRIMES is the primes up to 97 (43 R255). -/
theorem mem_smallPrimes_iff {p : Nat} : p ∈ Config.smallPrimes ↔ p.Prime ∧ p ≤ 97 := by
  have key : ∀ p < 98, p ∈ Config.smallPrimes ↔ p.Prime := by decide
  have le : ∀ p ∈ Config.smallPrimes, p < 98 := by decide
  exact ⟨fun h => ⟨(key p (le p h)).mp h, Nat.le_of_lt_succ (le p h)⟩,
    fun h => (key p (Nat.lt_succ_of_le h.2)).mpr h.1⟩

/-- Trial division accepts only a number of the list. -/
theorem mem_of_trialDivision {n : Nat} {ps : List Nat} (h : trialDivision n ps = some true) : n ∈ ps := by
  induction ps with
  | nil => simp [trialDivision] at h
  | cons p ps ih =>
    rw [trialDivision] at h
    split at h
    · simp [*]
    · split at h
      · simp at h
      · exact List.mem_cons_of_mem _ (ih h)

/-- Trial division rejects only a number with a divisor in the list. -/
theorem exists_of_trialDivision {n : Nat} {ps : List Nat} (h : trialDivision n ps = some false) :
    ∃ p ∈ ps, n % p = 0 := by
  induction ps with
  | nil => simp [trialDivision] at h
  | cons p ps ih =>
    rw [trialDivision] at h
    split at h
    · simp at h
    · split at h
      · exact ⟨p, by simp, by assumption⟩
      · obtain ⟨q, hq, h⟩ := ih h
        exact ⟨q, by simp [hq], h⟩

/-! Squaring (43 R256). -/

theorem squaringReaches_iff {n j x : Nat} :
    squaringReaches n j x = true ↔ ∃ i, 1 ≤ i ∧ i ≤ j ∧ x ^ 2 ^ i % n = n - 1 := by
  induction j generalizing x with
  | zero => simp [squaringReaches]
  | succ j ih =>
    have key : ∀ i, (x * x % n) ^ 2 ^ i % n = x ^ 2 ^ (i + 1) % n := by
      intro i
      rw [← Nat.pow_mod, ← pow_two, ← pow_mul, ← pow_succ']
    rw [squaringReaches]
    split
    · rename_i h
      simp only [true_iff]
      exact ⟨1, le_rfl, by omega, by simpa [pow_two] using h⟩
    · rename_i h
      rw [ih]
      constructor
      · rintro ⟨i, h1, h2, h3⟩
        exact ⟨i + 1, by omega, by omega, by rw [← key]; exact h3⟩
      · rintro ⟨i, h1, h2, h3⟩
        rcases Nat.lt_or_ge 1 i with hi | hi
        · refine ⟨i - 1, by omega, by omega, ?_⟩
          rw [key, show i - 1 + 1 = i by omega]; exact h3
        · obtain rfl : i = 1 := by omega
          exact absurd (by simpa [pow_two] using h3) h

/-! The supply of draws. -/

/-- k rounds are settled by k draws. -/
theorem millerRabin_isSome {n d r k : Nat} {ds : List Nat} (h : k ≤ ds.length) :
    (millerRabin n d r k ds).isSome = true := by
  induction k generalizing ds with
  | zero => rfl
  | succ k ih =>
    cases ds with
    | nil => simp at h
    | cons v ds =>
      rw [millerRabin]
      split
      · exact ih (by simpa using h)
      · rfl

/-- What k rounds answer on the draws `ds`: each passes and takes a draw, or the last one taken is the first that fails
(43 R256). -/
theorem millerRabin_spec {n d r k : Nat} {ds rest : List Nat} {b : Bool}
    (h : millerRabin n d r k ds = some (b, rest)) :
    ∃ taken, taken ≤ k ∧ taken ≤ ds.length ∧ rest = ds.drop taken ∧
      (b = true → taken = k ∧ ∀ v ∈ ds.take k, roundPasses n d r (drawRange 2 (n - 2) v) = true) ∧
      (b = false → 1 ≤ taken ∧ (∀ v ∈ ds.take (taken - 1), roundPasses n d r (drawRange 2 (n - 2) v) = true) ∧
        roundPasses n d r (drawRange 2 (n - 2) (ds.getD (taken - 1) 0)) = false) := by
  induction k generalizing ds with
  | zero =>
    simp only [millerRabin, Option.some.injEq, Prod.mk.injEq] at h
    obtain ⟨rfl, rfl⟩ := h
    exact ⟨0, le_rfl, Nat.zero_le _, rfl, by simp, by simp⟩
  | succ k ih =>
    cases ds with
    | nil => simp [millerRabin] at h
    | cons v ds =>
      rw [millerRabin] at h
      split at h
      · rename_i hv
        obtain ⟨taken, h1, h2, h3, h4, h5⟩ := ih h
        refine ⟨taken + 1, by omega, by simpa using h2, by simpa using h3, fun hb => ?_, fun hb => ?_⟩
        · obtain ⟨rfl, h4⟩ := h4 hb
          exact ⟨rfl, by simpa [hv] using h4⟩
        · obtain ⟨h5, h6, h7⟩ := h5 hb
          obtain ⟨m, rfl⟩ : ∃ m, taken = m + 1 := ⟨taken - 1, by omega⟩
          exact ⟨by omega, by simpa [hv] using h6, by simpa using h7⟩
      · rename_i hv
        simp only [Option.some.injEq, Prod.mk.injEq] at h
        obtain ⟨rfl, rfl⟩ := h
        exact ⟨1, by omega, by simp, rfl, by simp, fun _ => ⟨le_rfl, by simp, by simpa using hv⟩⟩

/-- Where the draws do not settle k rounds, they are too few and each of them passes its round. -/
theorem millerRabin_none {n d r k : Nat} {ds : List Nat} (h : millerRabin n d r k ds = none) :
    ds.length < k ∧ ∀ v ∈ ds, roundPasses n d r (drawRange 2 (n - 2) v) = true := by
  induction k generalizing ds with
  | zero => simp [millerRabin] at h
  | succ k ih =>
    cases ds with
    | nil => simp
    | cons v ds =>
      rw [millerRabin] at h
      split at h
      · rename_i hv
        obtain ⟨h1, h2⟩ := ih h
        exact ⟨by simpa using h1, by simpa [hv] using h2⟩
      · simp at h

/-- The rounds take their draws from the front and leave the rest. -/
theorem millerRabin_suffix {n d r k : Nat} {ds rest : List Nat} {b : Bool}
    (h : millerRabin n d r k ds = some (b, rest)) : ∃ pre, ds = pre ++ rest ∧ pre.length ≤ k := by
  induction k generalizing ds with
  | zero => simp only [millerRabin, Option.some.injEq, Prod.mk.injEq] at h; exact ⟨[], by simp [h.2], by simp⟩
  | succ k ih =>
    cases ds with
    | nil => simp [millerRabin] at h
    | cons v ds =>
      rw [millerRabin] at h
      split at h
      · obtain ⟨pre, hp, hl⟩ := ih h
        exact ⟨v :: pre, by simp [hp], by simpa using hl⟩
      · simp only [Option.some.injEq, Prod.mk.injEq] at h
        exact ⟨[v], by simp [h.2], by simp⟩

/-- Further draws behind those a test takes change nothing but what it leaves. -/
theorem millerRabin_append {n d r k : Nat} {ds rest more : List Nat} {b : Bool}
    (h : millerRabin n d r k ds = some (b, rest)) : millerRabin n d r k (ds ++ more) = some (b, rest ++ more) := by
  induction k generalizing ds with
  | zero => simp_all [millerRabin]
  | succ k ih =>
    cases ds with
    | nil => simp [millerRabin] at h
    | cons v ds =>
      rw [List.cons_append, millerRabin]
      rw [millerRabin] at h
      split at h
      · rw [if_pos ‹_›]; exact ih h
      · rw [if_neg ‹_›]; simp_all

theorem isProbablePrime_isSome {n k : Nat} {ds : List Nat} (h : k ≤ ds.length) :
    (isProbablePrime n k ds).isSome = true := by
  rw [isProbablePrime]
  split
  · rfl
  · split
    · rfl
    · exact millerRabin_isSome h

theorem isProbablePrime_suffix {n k : Nat} {ds rest : List Nat} {b : Bool}
    (h : isProbablePrime n k ds = some (b, rest)) : ∃ pre, ds = pre ++ rest ∧ pre.length ≤ k := by
  rw [isProbablePrime] at h
  split at h
  · simp only [Option.some.injEq, Prod.mk.injEq] at h; exact ⟨[], by simp [h.2], by simp⟩
  · split at h
    · simp only [Option.some.injEq, Prod.mk.injEq] at h; exact ⟨[], by simp [h.2], by simp⟩
    · exact millerRabin_suffix h

theorem isProbablePrime_append {n k : Nat} {ds rest more : List Nat} {b : Bool}
    (h : isProbablePrime n k ds = some (b, rest)) : isProbablePrime n k (ds ++ more) = some (b, rest ++ more) := by
  rw [isProbablePrime] at h ⊢
  split at h
  · simp_all
  · rw [if_neg ‹_›]
    split at h
    · simp_all
    · exact millerRabin_append h

theorem length_of_isProbablePrime {n k : Nat} {ds rest : List Nat} {b : Bool}
    (h : isProbablePrime n k ds = some (b, rest)) : rest.length ≤ ds.length := by
  obtain ⟨pre, rfl, -⟩ := isProbablePrime_suffix h
  simp

/-! GenPrime (43 R258). -/

/-- More fuel than the draws need changes nothing. -/
theorem genPrimeLoop_fuel {h k f f' : Nat} {ds : List Nat} (hf : ds.length < f) (hf' : ds.length < f') :
    genPrimeLoop h k f ds = genPrimeLoop h k f' ds := by
  induction f generalizing f' ds with
  | zero => omega
  | succ f ih =>
    cases f' with
    | zero => omega
    | succ f' =>
      cases ds with
      | nil => rfl
      | cons v ds =>
        rw [genPrimeLoop, genPrimeLoop]
        simp only [List.length_cons] at hf hf'
        split
        · rfl
        · rfl
        · rename_i rest hr
          have := length_of_isProbablePrime hr
          exact ih (by omega) (by omega)

/-- GenPrime takes its first candidate from the first draw (43 R258). -/
theorem genPrime_cons (h k v : Nat) (ds : List Nat) :
    genPrime h k (v :: ds) =
      match isProbablePrime (candidate h v) k ds with
      | none               => none
      | some (true, rest)  => some (candidate h v, rest)
      | some (false, rest) => genPrime h k rest := by
  rw [genPrime, genPrimeLoop]
  rcases hr : isProbablePrime (candidate h v) k ds with _ | ⟨_ | _, rest⟩
  · rfl
  · have := length_of_isProbablePrime hr
    exact genPrimeLoop_fuel (by simp; omega) (by omega)
  · rfl

@[simp] theorem genPrime_nil (h k : Nat) : genPrime h k [] = none := rfl

/-- What GenPrime can answer: a candidate that passed the test on the draws behind its own, and fewer draws than it was
given. -/
theorem genPrime_spec {h k c : Nat} {ds rest : List Nat} (hg : genPrime h k ds = some (c, rest)) :
    rest.length < ds.length ∧
      ∃ v us, c = candidate h v ∧ isProbablePrime c k us = some (true, rest) ∧ (v :: us) <:+ ds := by
  generalize hn : ds.length = n
  induction n using Nat.strong_induction_on generalizing ds with
  | _ n ih =>
    cases ds with
    | nil => simp at hg
    | cons v ds =>
      rw [genPrime_cons] at hg
      simp only [List.length_cons] at hn
      split at hg
      · simp at hg
      · rename_i rest' hr
        simp only [Option.some.injEq, Prod.mk.injEq] at hg
        obtain ⟨rfl, rfl⟩ := hg
        have := length_of_isProbablePrime hr
        exact ⟨by omega, v, ds, rfl, hr, List.suffix_rfl⟩
      · rename_i rest' hr
        have := length_of_isProbablePrime hr
        obtain ⟨pre, hpre, -⟩ := isProbablePrime_suffix hr
        obtain ⟨h1, v', us, h2, h3, h4⟩ := ih rest'.length (by omega) hg rfl
        exact ⟨by omega, v', us, h2, h3, h4.trans ⟨v :: pre, by rw [hpre]; rfl⟩⟩

/-- The shape of a candidate: odd, of exactly h bits (43 R258). -/
theorem candidate_spec {h v : Nat} (hh : 1 ≤ h) :
    candidate h v % 2 = 1 ∧ 2 ^ (h - 1) ≤ candidate h v ∧ candidate h v < 2 ^ h := by
  refine ⟨?_, ?_, ?_⟩
  · have : (candidate h v).testBit 0 = true := by simp [candidate]
    rw [Nat.testBit_zero] at this
    simpa using this
  · have : 2 ^ (h - 1) ≤ drawBits h v ||| 2 ^ (h - 1) := Nat.right_le_or
    exact this.trans Nat.left_le_or
  · have h1 : drawBits h v < 2 ^ h := Nat.mod_lt _ (by positivity)
    have h2 : 2 ^ (h - 1) < 2 ^ h := Nat.pow_lt_pow_right (by norm_num) (by omega)
    have h3 : 1 < 2 ^ h := Nat.one_lt_two_pow (by omega)
    exact Nat.or_lt_two_pow (Nat.or_lt_two_pow h1 h2) h3

/-- What the draw of q can answer: a value of GenPrime's other than p. -/
theorem genOther_spec {h k p q fuel : Nat} {ds rest : List Nat} (hg : genOther h k p fuel ds = some (q, rest)) :
    q ≠ p ∧ ∃ us, genPrime h k us = some (q, rest) := by
  induction fuel generalizing ds with
  | zero => simp [genOther] at hg
  | succ fuel ih =>
    rw [genOther] at hg
    split at hg
    · simp at hg
    · split at hg
      · exact ih hg
      · simp only [Option.some.injEq, Prod.mk.injEq] at hg
        obtain ⟨rfl, rfl⟩ := hg
        exact ⟨by assumption, _, by assumption⟩

/-- What the draws of a keypair can answer: two different values of GenPrime's (43 R260). -/
theorem keyPrimes_spec {b k p q : Nat} {ds rest : List Nat} (hg : keyPrimes b k ds = some (p, q, rest)) :
    q ≠ p ∧ (∃ us vs, genPrime (b / 2) k us = some (p, vs)) ∧ ∃ us, genPrime (b / 2) k us = some (q, rest) := by
  rw [keyPrimes] at hg
  split at hg
  · simp at hg
  · rename_i hp
    split at hg
    · simp at hg
    · rename_i hq
      simp only [Option.some.injEq, Prod.mk.injEq] at hg
      obtain ⟨rfl, rfl, rfl⟩ := hg
      obtain ⟨hne, us, hus⟩ := genOther_spec hq
      exact ⟨hne, ⟨_, _, hp⟩, us, hus⟩

end Sys2Proof.Machine
end

