-- ==== Sys2Proof/Laws/Exec.lean ====
section
/-! SUPPORT. Everything each command can do, one lemma per command or shared transform: proofs cite these and unfold no
meaning. -/

namespace Sys2Proof.Machine

variable (s : State)

/-! The AES commands. -/

theorem execKeyexp_cases :
    (¬ (s.keyBytes.toNat = 16 ∨ s.keyBytes.toNat = 24 ∨ s.keyBytes.toNat = 32) ∧
      execKeyexp s = .next s.raiseKeylen) ∨
    ((s.keyBytes.toNat = 16 ∨ s.keyBytes.toNat = 24 ∨ s.keyBytes.toNat = 32) ∧
      execKeyexp s = .next (s.setSchedule (keySchedule s.keyString) (s.keyBytes.toNat / 4 + 6)).complete) := by
  by_cases h : s.keyBytes.toNat = 16 ∨ s.keyBytes.toNat = 24 ∨ s.keyBytes.toNat = 32
  · exact .inr ⟨h, by simp only [execKeyexp, s.expand_of_valid h]⟩
  · exact .inl ⟨h, by simp only [execKeyexp, s.expand_of_invalid h]⟩

theorem execPad_cases :
    (s.params.bufBytes < s.dataLen.toNat + padCount s.dataLen.toNat ∧ execPad s = .next (s.raise .length)) ∨
    (s.dataLen.toNat + padCount s.dataLen.toNat ≤ s.params.bufBytes ∧
      execPad s = .next ((s.memWrite s.dataLen.toNat (padBytes s.dataLen.toNat)).setDataLen
        (s.dataLen.toNat + padCount s.dataLen.toNat)).complete) := by
  simp only [execPad]
  split
  · exact .inl ⟨by omega, rfl⟩
  · split
    · exact .inl ⟨by omega, rfl⟩
    · exact .inr ⟨by omega, rfl⟩

theorem execUnpad_cases :
    (s.params.bufBytes < s.dataLen.toNat ∧ execUnpad s = .next (s.raise .length)) ∨
    (s.dataLen.toNat ≤ s.params.bufBytes ∧ (s.dataLen.toNat % 16 ≠ 0 ∨ s.checkPadding s.dataLen.toNat = none) ∧
      execUnpad s = .next (s.raise .padding)) ∨
    (s.dataLen.toNat ≤ s.params.bufBytes ∧ s.dataLen.toNat % 16 = 0 ∧
      ∃ p, s.checkPadding s.dataLen.toNat = some p ∧ execUnpad s = .next (s.setDataLen (s.dataLen.toNat - p)).complete) := by
  simp only [execUnpad]
  split
  · exact .inl ⟨by omega, rfl⟩
  · split
    · exact .inr (.inl ⟨by omega, .inl (by omega), rfl⟩)
    · split
      · rename_i h
        exact .inr (.inl ⟨by omega, .inr h, rfl⟩)
      · rename_i p h
        exact .inr (.inr ⟨by omega, by omega, p, h, rfl⟩)

theorem ecbTransform_cases (f : Block → Block) :
    ((s.params.bufBytes < s.dataLen.toNat ∨ s.dataLen.toNat % 16 ≠ 0) ∧ ecbTransform s f = s.raise .length) ∨
    (s.dataLen.toNat ≤ s.params.bufBytes ∧ s.dataLen.toNat % 16 = 0 ∧
      ecbTransform s f = (s.mapBlocks f (s.dataLen.toNat / 16)).complete) := by
  simp only [ecbTransform]
  split
  · exact .inl ⟨.inl (by omega), rfl⟩
  · split
    · exact .inl ⟨.inr (by omega), rfl⟩
    · exact .inr ⟨by omega, by omega, rfl⟩

theorem encryptMessage_cases :
    (s.params.bufBytes < s.dataLen.toNat + padCount s.dataLen.toNat ∧ encryptMessage s = s.raise .length) ∨
    (s.dataLen.toNat + padCount s.dataLen.toNat ≤ s.params.bufBytes ∧
      encryptMessage s =
        (((s.memWrite s.dataLen.toNat (padBytes s.dataLen.toNat)).mapBlocks s.encryptBlock
          ((s.dataLen.toNat + padCount s.dataLen.toNat) / 16)).setDataLen
          (s.dataLen.toNat + padCount s.dataLen.toNat)).complete) := by
  simp only [encryptMessage]
  split
  · exact .inl ⟨by omega, rfl⟩
  · split
    · exact .inl ⟨by omega, rfl⟩
    · exact .inr ⟨by omega, rfl⟩

theorem decryptMessage_cases :
    ((s.params.bufBytes < s.dataLen.toNat ∨ s.dataLen.toNat % 16 ≠ 0) ∧ decryptMessage s = s.raise .length) ∨
    (s.dataLen.toNat ≤ s.params.bufBytes ∧ s.dataLen.toNat % 16 = 0 ∧
      ∃ plain : State, plain = s.mapBlocks s.decryptBlock (s.dataLen.toNat / 16) ∧
        ((plain.checkPadding s.dataLen.toNat = none ∧ decryptMessage s = plain.raise .padding) ∨
         ∃ p, plain.checkPadding s.dataLen.toNat = some p ∧
          decryptMessage s = (plain.setDataLen (s.dataLen.toNat - p)).complete)) := by
  simp only [decryptMessage]
  split
  · exact .inl ⟨.inl (by omega), rfl⟩
  · split
    · exact .inl ⟨.inr (by omega), rfl⟩
    · refine .inr ⟨by omega, by omega, _, rfl, ?_⟩
      split
      · rename_i h
        exact .inl ⟨h, rfl⟩
      · rename_i p h
        exact .inr ⟨p, h, rfl⟩

/-! The RSA commands. -/

/-- PRIMETEST always completes: BADARG, or a verdict on the draws there are or on k more (44 R300). -/
theorem execPrimetest_cases :
    (s.rounds = 0 ∧ execPrimetest s = .next (s.raise .badarg)) ∨
    (s.rounds ≠ 0 ∧ ∃ v, isProbablePrime (s.getBig .x) s.rounds s.draws = some v ∧
      execPrimetest s = .next (finishPrimetest s v)) ∨
    (s.rounds ≠ 0 ∧ isProbablePrime (s.getBig .x) s.rounds s.draws = none ∧
      ∃ v, isProbablePrime (s.getBig .x) s.rounds (s.supplyDraws s.rounds).draws = some v ∧
        execPrimetest s = .next (finishPrimetest (s.supplyDraws s.rounds) v)) := by
  simp only [execPrimetest]
  split
  · exact .inl ⟨by assumption, rfl⟩
  · rename_i hk
    split
    · rename_i v h
      exact .inr (.inl ⟨hk, v, h, rfl⟩)
    · rename_i h
      refine .inr (.inr ⟨hk, h, ?_⟩)
      have hs : (isProbablePrime (s.getBig .x) s.rounds (s.supplyDraws s.rounds).draws).isSome = true :=
        isProbablePrime_isSome (by simp)
      obtain ⟨v, hv⟩ := Option.isSome_iff_exists.mp hs
      refine ⟨v, hv, ?_⟩
      have hv' : isProbablePrime ((s.supplyDraws s.rounds).getBig .x) (s.supplyDraws s.rounds).rounds
          (s.supplyDraws s.rounds).draws = some v := hv
      rw [hv']

theorem execGenprime_cases :
    ((s.rsaBits.toNat < 2 ∨ s.params.rsaMaxBits < s.rsaBits.toNat ∨ s.rounds = 0) ∧
      execGenprime s = .next (s.raise .badarg)) ∨
    (2 ≤ s.rsaBits.toNat ∧ s.rsaBits.toNat ≤ s.params.rsaMaxBits ∧ s.rounds ≠ 0 ∧
      ((∃ c ds, genPrime s.rsaBits.toNat s.rounds s.draws = some (c, ds) ∧
          execGenprime s = .next ((s.setBig .x c).leaveDraws ds).complete) ∨
       (genPrime s.rsaBits.toNat s.rounds s.draws = none ∧
          execGenprime s = .next (s.supplyDraws (s.rounds + 1))))) := by
  simp only [execGenprime]
  split
  · exact .inl ⟨by omega, rfl⟩
  · split
    · exact .inl ⟨by omega, rfl⟩
    · refine .inr ⟨by omega, by omega, by assumption, ?_⟩
      split
      · rename_i c ds h
        exact .inl ⟨c, ds, h, rfl⟩
      · rename_i h
        exact .inr ⟨h, rfl⟩

theorem execModinv_cases :
    (s.getBig .phi < 2 ∧ execModinv s = .next (s.raise .range)) ∨
    (2 ≤ s.getBig .phi ∧
      ((modInv (s.getBig .e) (s.getBig .phi) = none ∧ execModinv s = .next (s.raise .noinv)) ∨
       ∃ y, modInv (s.getBig .e) (s.getBig .phi) = some y ∧ execModinv s = .next (s.setBig .y y).complete)) := by
  simp only [execModinv]
  split
  · exact .inl ⟨by omega, rfl⟩
  · refine .inr ⟨by omega, ?_⟩
    split
    · rename_i h
      exact .inl ⟨h, rfl⟩
    · rename_i y h
      exact .inr ⟨y, h, rfl⟩

theorem execKeygen_cases :
    ((s.rsaBits.toNat % 2 ≠ 0 ∨ s.rsaBits.toNat < 16 ∨ s.params.rsaMaxBits < s.rsaBits.toNat ∨ s.rounds = 0) ∧
      execKeygen s = .next (s.raise .badarg)) ∨
    (s.rsaBits.toNat % 2 = 0 ∧ 16 ≤ s.rsaBits.toNat ∧ s.rsaBits.toNat ≤ s.params.rsaMaxBits ∧ s.rounds ≠ 0 ∧
      ((keyPrimes s.rsaBits.toNat s.rounds s.draws = none ∧ execKeygen s = .next (s.supplyDraws (s.rounds + 1))) ∨
       ∃ p q ds, keyPrimes s.rsaBits.toNat s.rounds s.draws = some (p, q, ds) ∧
        ((keyPairOf p q = none ∧ execKeygen s = .next ((s.leaveDraws ds).raise .noinv)) ∨
         ∃ kp, keyPairOf p q = some kp ∧ execKeygen s = .next ((s.setKeyPair kp).leaveDraws ds).complete))) := by
  by_cases hb : s.rsaBits.toNat % 2 ≠ 0 ∨ s.rsaBits.toNat < 16 ∨ s.params.rsaMaxBits < s.rsaBits.toNat
  · exact .inl ⟨by omega, if_pos hb⟩
  · by_cases hk : s.rounds = 0
    · exact .inl ⟨by omega, (if_neg hb).trans (if_pos hk)⟩
    · refine .inr ⟨by omega, by omega, by omega, hk, ?_⟩
      rcases h : keyPrimes s.rsaBits.toNat s.rounds s.draws with _ | ⟨p, q, ds⟩
      · exact .inl ⟨rfl, (if_neg hb).trans ((if_neg hk).trans (by simp only [h]))⟩
      · refine .inr ⟨p, q, ds, rfl, ?_⟩
        rcases h' : keyPairOf p q with _ | kp
        · exact .inl ⟨rfl, (if_neg hb).trans ((if_neg hk).trans (by simp only [h, h']))⟩
        · exact .inr ⟨kp, rfl, (if_neg hb).trans ((if_neg hk).trans (by simp only [h, h']))⟩

theorem modexpTransform_cases (e : Nat) :
    ((s.getBig .n < 2 ∨ s.getBig .n ≤ s.getBig .x) ∧ modexpTransform s e = s.raise .range) ∨
    (2 ≤ s.getBig .n ∧ s.getBig .x < s.getBig .n ∧
      modexpTransform s e = (s.setBig .y (modExp (s.getBig .x) e (s.getBig .n))).complete) := by
  simp only [modexpTransform]
  split
  · exact .inl ⟨.inl (by omega), rfl⟩
  · split
    · exact .inl ⟨.inr (by omega), rfl⟩
    · exact .inr ⟨by omega, by omega, rfl⟩

theorem execWrapkey_cases :
    (¬ (s.keyBytes.toNat = 16 ∨ s.keyBytes.toNat = 24 ∨ s.keyBytes.toNat = 32) ∧
      execWrapkey s = .next (s.raise .keylen)) ∨
    ((s.keyBytes.toNat = 16 ∨ s.keyBytes.toNat = 24 ∨ s.keyBytes.toNat = 32) ∧
      (((s.getBig .n < 2 ∨ s.getBig .n ≤ os2ip s.keyString) ∧ execWrapkey s = .next (s.raise .range)) ∨
       (2 ≤ s.getBig .n ∧ os2ip s.keyString < s.getBig .n ∧
        ∃ c, c = modExp (os2ip s.keyString) (s.getBig .e) (s.getBig .n) ∧
          execWrapkey s =
            .next (((s.memWrite 0 (minBytes c)).setDataLen (minBytes c).length).setBig .y c).complete))) := by
  by_cases h : s.keyBytes.toNat = 16 ∨ s.keyBytes.toNat = 24 ∨ s.keyBytes.toNat = 32
  · refine .inr ⟨h, ?_⟩
    simp only [execWrapkey, roundsOf_of_valid h, Option.isNone_some, Bool.false_eq_true, if_false]
    split
    · exact .inl ⟨.inl (by omega), rfl⟩
    · split
      · exact .inl ⟨.inr (by omega), rfl⟩
      · exact .inr ⟨by omega, by omega, _, rfl, rfl⟩
  · exact .inl ⟨h, by simp only [execWrapkey, roundsOf_of_invalid h, Option.isNone_none, if_true]⟩

theorem execUnwrapkey_cases :
    (¬ (s.keyBytes.toNat = 16 ∨ s.keyBytes.toNat = 24 ∨ s.keyBytes.toNat = 32) ∧
      execUnwrapkey s = .next (s.raise .keylen)) ∨
    ((s.keyBytes.toNat = 16 ∨ s.keyBytes.toNat = 24 ∨ s.keyBytes.toNat = 32) ∧
      ((s.params.bufBytes < s.dataLen.toNat ∧ execUnwrapkey s = .next (s.raise .length)) ∨
       (s.dataLen.toNat ≤ s.params.bufBytes ∧
        ∃ c, c = os2ip (s.memRead 0 s.dataLen.toNat) ∧
          (((s.getBig .n < 2 ∨ s.getBig .n ≤ c) ∧ execUnwrapkey s = .next (s.raise .range)) ∨
           (2 ≤ s.getBig .n ∧ c < s.getBig .n ∧
            ∃ m, m = modExp c (s.getBig .d) (s.getBig .n) ∧
              execUnwrapkey s =
                .next (((s.setKey (keyFromInt m s.keyBytes.toNat)).setBig .y m).clearKsValid).complete))))) := by
  by_cases h : s.keyBytes.toNat = 16 ∨ s.keyBytes.toNat = 24 ∨ s.keyBytes.toNat = 32
  · refine .inr ⟨h, ?_⟩
    simp only [execUnwrapkey, roundsOf_of_valid h, Option.isNone_some, Bool.false_eq_true, if_false]
    split
    · exact .inl ⟨by omega, rfl⟩
    · refine .inr ⟨by omega, _, rfl, ?_⟩
      split
      · exact .inl ⟨.inl (by omega), rfl⟩
      · split
        · exact .inl ⟨.inr (by omega), rfl⟩
        · exact .inr ⟨by omega, by omega, _, rfl, rfl⟩
  · exact .inl ⟨h, by simp only [execUnwrapkey, roundsOf_of_invalid h, Option.isNone_none, if_true]⟩

/-! The products of the modular exponentiation stay below the modulus. -/

theorem modExpFrom_lt {b e m i r : Nat} (hm : 0 < m) (hr : r < m) : modExpFrom b e m i r < m := by
  induction i generalizing r with
  | zero => exact hr
  | succ i ih => rw [modExpFrom]; split <;> exact ih (Nat.mod_lt _ hm)

theorem modExp_lt (b e : Nat) {m : Nat} (hm : 2 ≤ m) : modExp b e m < m :=
  modExpFrom_lt (by omega) (by omega)

/-! All commands at once. -/

/-- The results a command can have, by what it writes; an invariant needs one case for each. -/
inductive ExecResult (s : State) : Instr → State → Prop
  | nop : ExecResult s .nop s.complete
  | keyexpError : ExecResult s .keyexp s.raiseKeylen
  | keyexp (valid : s.keyBytes.toNat = 16 ∨ s.keyBytes.toNat = 24 ∨ s.keyBytes.toNat = 32) :
      ExecResult s .keyexp (s.setSchedule (keySchedule s.keyString) (s.keyBytes.toNat / 4 + 6)).complete
  | aesKeylen (i : Instr) (mem : i ∈ [Instr.encBlock, .decBlock, .ecbEnc, .ecbDec, .encrypt, .decrypt])
      (invalid : s.ksValid = false) : ExecResult s i s.raiseKeylen
  | block (i : Instr) (b : Block) (mem : i ∈ [Instr.encBlock, .decBlock]) (ready : s.keyReady) :
      ExecResult s i (s.scheduled.setDout b).complete
  | pad (fits : s.dataLen.toNat + padCount s.dataLen.toNat ≤ s.params.bufBytes) :
      ExecResult s .pad ((s.memWrite s.dataLen.toNat (padBytes s.dataLen.toNat)).setDataLen
        (s.dataLen.toNat + padCount s.dataLen.toNat)).complete
  | unpad (len : Nat) : ExecResult s .unpad (s.setDataLen len).complete
  | messageLength (i : Instr) (mem : i ∈ [Instr.ecbEnc, .ecbDec, .encrypt, .decrypt]) (ready : s.keyReady) :
      ExecResult s i (s.scheduled.raise .length)
  | ecb (i : Instr) (f : Block → Block) (n : Nat) (mem : i ∈ [Instr.ecbEnc, .ecbDec]) (ready : s.keyReady)
      (fits : 16 * n ≤ s.params.bufBytes) : ExecResult s i (s.scheduled.mapBlocks f n).complete
  | encrypt (f : Block → Block) (n len : Nat) (ready : s.keyReady) (fits : 16 * n ≤ s.params.bufBytes)
      (padFits : s.dataLen.toNat + padCount s.dataLen.toNat ≤ s.params.bufBytes) :
      ExecResult s .encrypt (((s.scheduled.memWrite s.dataLen.toNat (padBytes s.dataLen.toNat)).mapBlocks f n).setDataLen
        len).complete
  | decryptPadding (f : Block → Block) (n : Nat) (ready : s.keyReady) (fits : 16 * n ≤ s.params.bufBytes) :
      ExecResult s .decrypt ((s.scheduled.mapBlocks f n).raise .padding)
  | decrypt (f : Block → Block) (n len : Nat) (ready : s.keyReady) (fits : 16 * n ≤ s.params.bufBytes) :
      ExecResult s .decrypt ((s.scheduled.mapBlocks f n).setDataLen len).complete
  | primetest (v : Bool × List Nat) : ExecResult s .primetest (finishPrimetest s v)
  | primetestSupplied (v : Bool × List Nat) : ExecResult s .primetest (finishPrimetest (s.supplyDraws s.rounds) v)
  | waiting (i : Instr) (n : Nat) (mem : i ∈ [Instr.genprime, .keygen]) : ExecResult s i (s.supplyDraws n)
  | genprime (c : Nat) (ds : List Nat) : ExecResult s .genprime ((s.setBig .x c).leaveDraws ds).complete
  | keygenNoinv (p q : Nat) (ds : List Nat) (bits : 16 ≤ s.rsaBits.toNat)
      (drawn : keyPrimes s.rsaBits.toNat s.rounds s.draws = some (p, q, ds)) (noPair : keyPairOf p q = none) :
      ExecResult s .keygen ((s.leaveDraws ds).raise .noinv)
  | keygen (kp : KeyPair) (ds : List Nat) : ExecResult s .keygen ((s.setKeyPair kp).leaveDraws ds).complete
  | toY (i : Instr) (y : Nat) (mem : i ∈ [Instr.modinv, .modexpPub, .modexpPriv]) :
      ExecResult s i (s.setBig .y y).complete
  | wrapkey (c len : Nat) (below : c < s.getBig .n) :
      ExecResult s .wrapkey (((s.memWrite 0 (minBytes c)).setDataLen len).setBig .y c).complete
  | unwrapkey (k : List Byte) (m : Nat) :
      ExecResult s .unwrapkey (((s.setKey k).setBig .y m).clearKsValid).complete
  | plainError (i : Instr) (e : ErrCode)
      (mem : (i, e) ∈ [(Instr.pad, ErrCode.length), (.unpad, .length), (.unpad, .padding), (.primetest, .badarg),
        (.genprime, .badarg), (.keygen, .badarg), (.modinv, .range), (.modinv, .noinv), (.modexpPub, .range),
        (.modexpPriv, .range), (.wrapkey, .keylen), (.wrapkey, .range), (.unwrapkey, .keylen), (.unwrapkey, .length),
        (.unwrapkey, .range)]) : ExecResult s i (s.raise e)

/-- The results of ECB_ENC and ECB_DEC once the schedule is ensured. -/
theorem execResult_ecbTransform {i : Instr} (f : Block → Block) (mem : i ∈ [Instr.ecbEnc, .ecbDec])
    (ready : s.keyReady) : ExecResult s i (ecbTransform s.scheduled f) := by
  rcases ecbTransform_cases s.scheduled f with ⟨_, e⟩ | ⟨h1, h2, e⟩ <;> rw [e]
  · exact .messageLength _ (by simp only [List.mem_cons, List.not_mem_nil, or_false] at mem ⊢; tauto) ready
  · exact .ecb _ _ _ mem ready (by simp only [State.scheduled_dataLen, State.scheduled_params] at *; omega)

/-- If a command answers a next state, that state is one of `ExecResult`. -/
theorem exec_result {i : Instr} {s t : State} (h : exec i s = .next t) : ExecResult s i t := by
  cases i <;> simp only [exec] at h
  case nop => cases h; exact .nop
  case keyexp =>
    rcases execKeyexp_cases s with ⟨_, e⟩ | ⟨hv, e⟩ <;> rw [e] at h <;> cases h
    · exact .keyexpError
    · exact .keyexp hv
  case encBlock | decBlock =>
    simp only [execEncBlock, execDecBlock, Host.Outcome.next.injEq] at h
    subst h
    rcases withSchedule_cases s _ with ⟨_, hv, e⟩ | ⟨hv, e⟩ <;> rw [e]
    · exact .aesKeylen _ (by decide) hv
    · exact .block _ _ (by decide) hv
  case pad =>
    rcases execPad_cases s with ⟨_, e⟩ | ⟨hf, e⟩ <;> rw [e] at h <;> cases h
    · exact .plainError _ _ (by decide)
    · exact .pad hf
  case unpad =>
    rcases execUnpad_cases s with ⟨_, e⟩ | ⟨_, _, e⟩ | ⟨_, _, _, _, e⟩ <;> rw [e] at h <;> cases h
    · exact .plainError _ _ (by decide)
    · exact .plainError _ _ (by decide)
    · exact .unpad _
  case ecbEnc | ecbDec =>
    simp only [execEcbEnc, execEcbDec, Host.Outcome.next.injEq] at h
    subst h
    rcases withSchedule_cases s _ with ⟨_, hv, e⟩ | ⟨hv, e⟩ <;> rw [e]
    · exact .aesKeylen _ (by decide) hv
    · exact execResult_ecbTransform s _ (by decide) hv
  case encrypt =>
    simp only [execEncrypt, Host.Outcome.next.injEq] at h
    subst h
    rcases withSchedule_cases s encryptMessage with ⟨_, hv, e⟩ | ⟨hv, e⟩ <;> rw [e]
    · exact .aesKeylen _ (by decide) hv
    · rcases encryptMessage_cases s.scheduled with ⟨_, e⟩ | ⟨hf, e⟩ <;> rw [e]
      · exact .messageLength _ (by decide) hv
      · have := add_padCount_mod s.dataLen.toNat
        simp only [State.scheduled_dataLen, State.scheduled_params] at hf ⊢
        exact .encrypt _ _ _ hv (by omega) hf
  case decrypt =>
    simp only [execDecrypt, Host.Outcome.next.injEq] at h
    subst h
    rcases withSchedule_cases s decryptMessage with ⟨_, hv, e⟩ | ⟨hv, e⟩ <;> rw [e]
    · exact .aesKeylen _ (by decide) hv
    · rcases decryptMessage_cases s.scheduled with ⟨_, e⟩ | ⟨hf, h16, _, rfl, ⟨_, e⟩ | ⟨p, _, e⟩⟩ <;> rw [e]
      · exact .messageLength _ (by decide) hv
      · simp only [State.scheduled_dataLen, State.scheduled_params] at *
        exact .decryptPadding _ _ hv (by omega)
      · simp only [State.scheduled_dataLen, State.scheduled_params] at *
        exact .decrypt _ _ _ hv (by omega)
  case primetest =>
    rcases execPrimetest_cases s with ⟨_, e⟩ | ⟨_, v, _, e⟩ | ⟨_, _, v, _, e⟩ <;> rw [e] at h <;> cases h
    · exact .plainError _ _ (by decide)
    · exact .primetest v
    · exact .primetestSupplied v
  case genprime =>
    rcases execGenprime_cases s with ⟨_, e⟩ | ⟨_, _, _, ⟨c, ds, _, e⟩ | ⟨_, e⟩⟩ <;> rw [e] at h <;> cases h
    · exact .plainError _ _ (by decide)
    · exact .genprime c ds
    · exact .waiting _ _ (by decide)
  case modinv =>
    rcases execModinv_cases s with ⟨_, e⟩ | ⟨_, ⟨_, e⟩ | ⟨y, _, e⟩⟩ <;> rw [e] at h <;> cases h
    · exact .plainError _ _ (by decide)
    · exact .plainError _ _ (by decide)
    · exact .toY _ y (by decide)
  case keygen =>
    rcases execKeygen_cases s with ⟨_, e⟩ | ⟨_, hb, _, _, ⟨_, e⟩ | ⟨p, q, ds, hd, ⟨hp, e⟩ | ⟨kp, _, e⟩⟩⟩ <;>
      rw [e] at h <;> cases h
    · exact .plainError _ _ (by decide)
    · exact .waiting _ _ (by decide)
    · exact .keygenNoinv p q ds hb hd hp
    · exact .keygen kp ds
  case modexpPub | modexpPriv =>
    simp only [execModexpPub, execModexpPriv, Host.Outcome.next.injEq] at h
    subst h
    rcases modexpTransform_cases s _ with ⟨_, e⟩ | ⟨_, _, e⟩ <;> rw [e]
    · exact .plainError _ _ (by decide)
    · exact .toY _ _ (by decide)
  case wrapkey =>
    rcases execWrapkey_cases s with ⟨_, e⟩ | ⟨_, ⟨_, e⟩ | ⟨hn, _, c, rfl, e⟩⟩ <;> rw [e] at h <;> cases h
    · exact .plainError _ _ (by decide)
    · exact .plainError _ _ (by decide)
    · exact .wrapkey _ _ (modExp_lt _ _ hn)
  case unwrapkey =>
    rcases execUnwrapkey_cases s with ⟨_, e⟩ | ⟨_, ⟨_, e⟩ | ⟨_, c, _, ⟨_, e⟩ | ⟨_, _, m, _, e⟩⟩⟩ <;> rw [e] at h <;>
      cases h
    · exact .plainError _ _ (by decide)
    · exact .plainError _ _ (by decide)
    · exact .plainError _ _ (by decide)
    · exact .unwrapkey _ m

end Sys2Proof.Machine
end

