-- ==== Sys2Proof/Laws/PerInstr.lean ====
section
/-! SUPPORT. The family Encoding: what holds of every command as syntax (30 R101 to R105), one lemma per constructor. -/

namespace Sys2Proof.Laws.Encoding

/-- A command is well formed, its word has RSV = 0 and an assigned OP, and its OP is bits [7:0] of its word. -/
def Statement (i : Instr) : Prop :=
  i.wellFormed = true ∧ commandWordWellFormed (encode i) = true ∧ (encode i).extractLsb' 0 8 = opcode i

theorem nop : Statement .nop := by unfold Statement; decide
theorem keyexp : Statement .keyexp := by unfold Statement; decide
theorem encBlock : Statement .encBlock := by unfold Statement; decide
theorem decBlock : Statement .decBlock := by unfold Statement; decide
theorem pad : Statement .pad := by unfold Statement; decide
theorem unpad : Statement .unpad := by unfold Statement; decide
theorem ecbEnc : Statement .ecbEnc := by unfold Statement; decide
theorem ecbDec : Statement .ecbDec := by unfold Statement; decide
theorem encrypt : Statement .encrypt := by unfold Statement; decide
theorem decrypt : Statement .decrypt := by unfold Statement; decide
theorem primetest : Statement .primetest := by unfold Statement; decide
theorem genprime : Statement .genprime := by unfold Statement; decide
theorem modinv : Statement .modinv := by unfold Statement; decide
theorem keygen : Statement .keygen := by unfold Statement; decide
theorem modexpPub : Statement .modexpPub := by unfold Statement; decide
theorem modexpPriv : Statement .modexpPriv := by unfold Statement; decide
theorem wrapkey : Statement .wrapkey := by unfold Statement; decide
theorem unwrapkey : Statement .unwrapkey := by unfold Statement; decide

end Sys2Proof.Laws.Encoding
end

