-- ==== Sys2Proof/Tests/Slice0.lean ====
section
/-! SUPPORT. Tests: the checks of WellFormed, decoding from words written out from the spec, the spec's own vectors
(95), and for each obligation with hypotheses a witness that meets them. -/

namespace Sys2Proof.Tests

open Sys2Proof.Machine

-- One test at a time: tests that wait for the kernel side by side hold a thread and its stack each.
set_option Elab.async false

/-! Helpers. -/

/-- The byte string of `len` bytes that a hexadecimal numeral spells. -/
def hex (len v : Nat) : List Byte := (List.range len).map fun i => BitVec.ofNat 8 (v / 256 ^ (len - 1 - i))

/-- Whether `p` holds of the state a command leaves. -/
def after (i : Instr) (s : State) (p : State → Bool) : Bool :=
  match exec i s with
  | .next t => p t
  | _       => false

/-- What `after` says: the command answers a next state, and `p` holds of it. -/
theorem exists_of_after {i : Instr} {s : State} {p : State → Bool} (h : after i s p = true) :
    ∃ t, exec i s = .next t ∧ p t = true := by
  unfold after at h
  split at h
  · exact ⟨_, by assumption, h⟩
  · cases h

/-- Whether `p` holds of the state a step leaves. -/
def afterStep (s : State) (p : State → Bool) : Bool :=
  match step s with
  | .next t => p t
  | _       => false

/-- Reset with BUSY on command `i`. -/
def busy (i : Instr) : State := { State.reset with phase := .busy (.instr i), lastCmd := opcode i }

/-- The smallest machine right after reset, with BUSY on command `i`. -/
def small (i : Instr) : State := { State.resetWith ⟨512, 64, 0⟩ with phase := .busy (.instr i), lastCmd := opcode i }

/-- `s` with one whole-word host access to come, to the byte offset `off` of the block at BASE = 0. -/
def host (s : State) (off : Nat) (dir : Dir) : State := { s with turns := [.host ⟨off, dir, 0xF#4⟩] }

/-- Reset with the 16-byte key of 95 W1. -/
def key128 : State :=
  { State.reset with
    keyBytes := 16#8
    key := #v[0x00010203#32, 0x04050607#32, 0x08090a0b#32, 0x0c0d0e0f#32, 0#32, 0#32, 0#32, 0#32] }

/-- `s` with a message in the buffer. -/
def withMessage (s : State) (len v : Nat) : State :=
  { s with buf := s.buf.putBytes 0 (hex len v), dataLen := BitVec.ofNat 16 len }

/-- Reset with the modulus and exponents of 95 V36. -/
def rsa255 : State :=
  { State.reset with
    big := { n := 0x7800000000000000000000000000323fe000000000000000000000000509a343
             e := 65537
             d := 0x4061ef9e1061ef9e1061ef9e10620a9311e5ee1a11e5ee1a11e5ee1a1499b0e1
             p := 0, q := 0, phi := 0, x := 0, y := 0 } }

/-- Reset with the toy key of 95 2.7 and X. -/
def toy (e d x : Nat) : State :=
  { State.reset with big := { n := 3233, e := e, d := d, p := 61, q := 53, phi := 3120, x := x, y := 7 } }

/-! WellFormed: each check refuses an ill-formed term. -/

theorem test_rsvClear_refuses : rsvClear 0x00000108#32 = false ∧ rsvClear 0x80000000#32 = false := by decide

theorem test_opAssigned_refuses :
    opAssigned 0x0000000A#32 = false ∧ opAssigned 0x0000000F#32 = false ∧ opAssigned 0x00000018#32 = false ∧
    opAssigned 0x000000FF#32 = false ∧ opAssigned 0x00000009#32 = true ∧ opAssigned 0x00000010#32 = true ∧
    opAssigned 0x00000017#32 = true := by decide

theorem test_commandWordWellFormed_refuses :
    commandWordWellFormed 0x00000108#32 = false ∧ commandWordWellFormed 0x0000000A#32 = false ∧
    commandWordWellFormed 0x00000008#32 = true := by decide

/-- A command has no field, so every command is well formed; no ill-formed one can be written (30 R104). -/
theorem test_instr_wellFormed : Instr.keygen.wellFormed = true := by decide

theorem test_offsetAligned_refuses : offsetAligned 0x0002#16 = false ∧ offsetAligned 0x0001#16 = false := by decide

/-- The 16-bit access of 95 V26. -/
theorem test_allLanes_refuses : allLanes 0x3#4 = false ∧ allLanes 0xE#4 = false := by decide

theorem test_accessWellFormed_refuses :
    accessWellFormed 0x0002#16 0xF#4 = false ∧ accessWellFormed 0x0014#16 0x3#4 = false ∧
    accessWellFormed 0x0014#16 0xF#4 = true := by decide

theorem test_rsaMaxBitsValid_refuses :
    Params.rsaMaxBitsValid ⟨480, 64, 0⟩ = false ∧ Params.rsaMaxBitsValid ⟨528, 80, 0⟩ = false ∧
    Params.rsaMaxBitsValid ⟨4128, 528, 0⟩ = false ∧ Params.rsaMaxBitsValid ⟨512, 64, 0⟩ = true := by decide

theorem test_bufBytesValid_refuses :
    Params.bufBytesValid ⟨512, 48, 0⟩ = false ∧ Params.bufBytesValid ⟨512, 72, 0⟩ = false ∧
    Params.bufBytesValid ⟨512, 16400, 0⟩ = false ∧ Params.bufBytesValid ⟨4096, 496, 0⟩ = false ∧
    Params.bufBytesValid ⟨4096, 512, 0⟩ = true := by decide

theorem test_baseValid_refuses :
    Params.baseValid ⟨512, 64, 0x8000⟩ = false ∧ Params.baseValid ⟨512, 64, 0x10000⟩ = true := by decide

theorem test_paramsValid_refuses :
    Params.valid ⟨480, 64, 0⟩ = false ∧ Params.valid ⟨512, 48, 0⟩ = false ∧ Params.valid ⟨512, 64, 4⟩ = false := by
  decide

/-! Decoding: RSV in bits [31:8], OP in bits [7:0] (30 R101), OP from the opcode map (30 R103). -/

theorem test_decode_control_and_block :
    decode 0b00000000000000000000000000000000#32 = .ok .nop ∧
    decode 0b00000000000000000000000000000001#32 = .ok .keyexp ∧
    decode 0b00000000000000000000000000000010#32 = .ok .encBlock ∧
    decode 0b00000000000000000000000000000011#32 = .ok .decBlock := by decide

theorem test_decode_buffer :
    decode 0b00000000000000000000000000000100#32 = .ok .pad ∧
    decode 0b00000000000000000000000000000101#32 = .ok .unpad ∧
    decode 0b00000000000000000000000000000110#32 = .ok .ecbEnc ∧
    decode 0b00000000000000000000000000000111#32 = .ok .ecbDec ∧
    decode 0b00000000000000000000000000001000#32 = .ok .encrypt ∧
    decode 0b00000000000000000000000000001001#32 = .ok .decrypt := by decide

theorem test_decode_rsa :
    decode 0b00000000000000000000000000010000#32 = .ok .primetest ∧
    decode 0b00000000000000000000000000010001#32 = .ok .genprime ∧
    decode 0b00000000000000000000000000010010#32 = .ok .modinv ∧
    decode 0b00000000000000000000000000010011#32 = .ok .keygen ∧
    decode 0b00000000000000000000000000010100#32 = .ok .modexpPub ∧
    decode 0b00000000000000000000000000010101#32 = .ok .modexpPriv ∧
    decode 0b00000000000000000000000000010110#32 = .ok .wrapkey ∧
    decode 0b00000000000000000000000000010111#32 = .ok .unwrapkey := by decide

/-- The two reasons for BADCMD (30 R102, R105). -/
theorem test_decode_refuses_by_name :
    decode 0x00000108#32 = .error .rsvNotZero ∧ decode 0x0000000A#32 = .error .reservedOpcode ∧
    decode 0x00000018#32 = .error .reservedOpcode := by decide

theorem test_decodeTableWord :
    decodeTableWord 32 0x17 = some .unwrapkey ∧ decodeTableWord 32 0x0A = none ∧ decodeTableWord 8 0x108 = some .encrypt := by
  decide

/-- Offsets of 10 and 20 R76, at the ends of the banks. -/
theorem test_locate_ends :
    locate 0x005C#16 = .key 7 ∧ locate 0x01EC#16 = .ks 59 ∧ locate 0x1000#16 = .big .n 0 ∧
    locate 0x1FFC#16 = .big .y 127 ∧ locate 0x4000#16 = .buf 0 ∧ locate 0x7FFC#16 = .buf 4095 ∧
    locate 0x0028#16 = .reserved ∧ locate 0x8000#16 = .reserved := by decide +kernel

theorem test_decodeAddr :
    decodeAddr ⟨512, 64, 0x20000⟩ 0x2000C = some 0x000C#16 ∧ decodeAddr ⟨512, 64, 0x20000⟩ 0x30000 = none ∧
    decodeAddr ⟨512, 64, 0x20000⟩ 0x1FFFC = none := by decide

/-! Reset and the first command (95 V26; 70 R402). -/

theorem test_reset_status : State.reset.locWord .status = 0#32 ∧ State.reset.locWord .mrRounds = 16#32 := by
  decide +kernel

/-- 95 V26, row 1: NOP as the first command after reset. -/
theorem test_nop_first :
    afterStep (State.reset.withFetchWord 32 0x00000000) (fun t => t.locWord .status == 0x00000002#32) = true := by
  decide

/-- 95 V26, row 4: bit 8 set. -/
theorem test_badcmd_status :
    afterStep (State.reset.withFetchWord 32 0x00000108) (fun t => t.locWord .status == 0x00080702#32) = true := by
  decide

/-! The AES commands. -/

/-- 95 V4 and its register view. -/
theorem test_keyexp_schedule :
    after .keyexp
      { State.reset with
        keyBytes := 16#8
        key := #v[0x2b7e1516#32, 0x28aed2a6#32, 0xabf71588#32, 0x09cf4f3c#32, 0#32, 0#32, 0#32, 0#32] }
      (fun t => t.locWord (.ks 4) == 0xa0fafe17#32 && t.locWord (.ks 43) == 0xb6630ca6#32
        && t.locWord (.ks 44) == 0#32 && t.locWord .nr == 10#32) = true := by decide +kernel

/-- 95 V15: 17 bytes are no key; a stored schedule goes. -/
theorem test_keyexp_keylen :
    after .keyexp { State.reset with keyBytes := 17#8, ksValid := true, nr := 10#8 }
      (fun t => t.locWord .status == 0x00000102#32 && t.locWord .nr == 0#32) = true := by decide

/-- 95 V1. -/
theorem test_encBlock_v1 :
    after .encBlock { key128 with din := ⟨0x00112233#32, 0x44556677#32, 0x8899aabb#32, 0xccddeeff#32⟩ }
      (fun t => t.dout == ⟨0x69c4e0d8#32, 0x6a7b0430#32, 0xd8cdb780#32, 0x70b4c55a#32⟩) = true := by decide +kernel

/-- 95 V14: KEY_BYTES = 0. -/
theorem test_encBlock_keylen :
    after .encBlock { State.reset with lastCmd := 0x02#8 } (fun t => t.locWord .status == 0x00020102#32) = true := by
  decide

/-- 95 V1. -/
theorem test_decBlock_v1 :
    after .decBlock { key128 with din := ⟨0x69c4e0d8#32, 0x6a7b0430#32, 0xd8cdb780#32, 0x70b4c55a#32⟩ }
      (fun t => t.dout == ⟨0x00112233#32, 0x44556677#32, 0x8899aabb#32, 0xccddeeff#32⟩) = true := by decide +kernel

/-- 95 V13. -/
theorem test_decBlock_zero :
    after .decBlock key128
      (fun t => t.dout == ⟨0x7b1d29a1#32, 0x6cf8ccab#32, 0x84f0b8a5#32, 0x98e42fa6#32⟩) = true := by decide +kernel

/-- 95 V20, 3 bytes. -/
theorem test_pad_three :
    after .pad (withMessage State.reset 3 0x616263)
      (fun t => t.memRead 0 16 == hex 16 0x6162630d0d0d0d0d0d0d0d0d0d0d0d0d && t.dataLen == 16#16) = true := by
  decide +kernel

/-- 95 V20: DATA_LEN = BUF_BYTES. -/
theorem test_pad_length :
    after .pad { State.reset with dataLen := 16384#16 } (fun t => t.err == .length && t.dataLen == 16384#16) = true := by
  decide

/-- 95 V21, row 1. -/
theorem test_unpad_two :
    after .unpad (withMessage State.reset 16 0x0202) (fun t => t.err == .ok && t.dataLen == 14#16) = true := by
  decide +kernel

/-- 95 V21: fewer than p bytes equal p. -/
theorem test_unpad_padding :
    after .unpad (withMessage State.reset 16 0x020303) (fun t => t.err == .padding && t.dataLen == 16#16) = true := by
  decide +kernel

/-- 95 V22, row 1. -/
theorem test_ecbEnc_two_blocks :
    after .ecbEnc (withMessage key128 32 0x00112233445566778899aabbccddeeff00112233445566778899aabbccddeeff)
      (fun t => t.memRead 0 32 == hex 32 0x69c4e0d86a7b0430d8cdb78070b4c55a69c4e0d86a7b0430d8cdb78070b4c55a) = true := by
  decide +kernel

/-- 95 V22, row 4. -/
theorem test_ecbEnc_length :
    after .ecbEnc { key128 with ksValid := true, dataLen := 17#16 } (fun t => t.err == .length) = true := by decide

/-- 95 V22, row 2, first block. -/
theorem test_ecbDec_block :
    after .ecbDec (withMessage key128 16 0x69c4e0d86a7b0430d8cdb78070b4c55a)
      (fun t => t.memRead 0 16 == hex 16 0x00112233445566778899aabbccddeeff) = true := by decide +kernel

/-- 95 V22, row 5. -/
theorem test_ecbDec_length :
    after .ecbDec { key128 with ksValid := true, dataLen := 8#16 } (fun t => t.err == .length) = true := by decide

/-- 95 V23, row 2. -/
theorem test_encrypt_three :
    after .encrypt (withMessage key128 3 0x616263)
      (fun t => t.memRead 0 16 == hex 16 0xb08b1f809a035064420d1d754022ab55 && t.dataLen == 16#16) = true := by
  decide +kernel

/-- 95 V24, row 1. -/
theorem test_decrypt_three :
    after .decrypt (withMessage key128 16 0xb08b1f809a035064420d1d754022ab55)
      (fun t => t.memRead 0 16 == hex 16 0x6162630d0d0d0d0d0d0d0d0d0d0d0d0d && t.dataLen == 3#16) = true := by
  decide +kernel

/-- 95 V24, row 6: PADDING leaves the decrypted block. -/
theorem test_decrypt_padding :
    after .decrypt (withMessage key128 16 0x69c4e0d86a7b0430d8cdb78070b4c55a)
      (fun t => t.err == .padding && t.memRead 0 16 == hex 16 0x00112233445566778899aabbccddeeff
        && t.dataLen == 16#16) = true := by decide +kernel

/-! The RSA commands. -/

/-- 95 V33: a strong liar drawn first. -/
theorem test_primetest_liar :
    after .primetest { toy 0 0 42799 with mrRounds := 1#8, draws := [2] } (fun t => t.result) = true := by
  decide +kernel

/-- 95 V33: a second round finds the composite. -/
theorem test_primetest_composite :
    after .primetest { toy 0 0 42799 with mrRounds := 2#8, draws := [2, 3], result := true } (fun t => !t.result) = true := by
  decide +kernel

/-- 95 V34: the first candidate fails, the second is 131. -/
theorem test_genprime_second :
    after .genprime { State.reset with rsaBits := 8#16, draws := [0x00, 0x82] ++ List.replicate 16 5 }
      (fun t => t.big.x == 131 && t.draws == [] && t.err == .ok) = true := by decide +kernel

/-- 95 V34: two bits give 3. -/
theorem test_genprime_two_bits :
    after .genprime { State.reset with rsaBits := 2#16, draws := [0] } (fun t => t.big.x == 3) = true := by
  decide +kernel

/-- 95 V31, row 5. -/
theorem test_modinv_reduces : after .modinv (toy 3121 0 0) (fun t => t.big.y == 1) = true := by decide +kernel

/-- 95 V31, row 6: Y keeps its value. -/
theorem test_modinv_noinv : after .modinv (toy 6 0 0) (fun t => t.err == .noinv && t.big.y == 7) = true := by
  decide +kernel

/-- 95 V35. -/
theorem test_keygen_v35 :
    after .keygen
      { State.reset with
        rsaBits := 40#16, draws := 917519 :: List.replicate 16 2 ++ 524341 :: List.replicate 16 3 }
      (fun t => t.big.p == 917519 && t.big.q == 524341 && t.big.n == 0x70035e031b && t.big.phi == 0x70034802d8
        && t.big.e == 11 && t.big.d == 0x32ea38014b) = true := by decide +kernel

/-- 95 V35: a width below 16. -/
theorem test_keygen_badarg :
    after .keygen { State.reset with rsaBits := 14#16 } (fun t => t.err == .badarg) = true := by decide

/-- 95 V30, row 1. -/
theorem test_modexpPub_65 : after .modexpPub (toy 17 2753 65) (fun t => t.big.y == 2790) = true := by decide +kernel

/-- 95 V30: X = N. -/
theorem test_modexpPub_range :
    after .modexpPub (toy 17 2753 3233) (fun t => t.err == .range && t.big.y == 7) = true := by decide +kernel

/-- 95 V30, row 2. -/
theorem test_modexpPriv_2790 : after .modexpPriv (toy 17 2753 2790) (fun t => t.big.y == 65) = true := by
  decide +kernel

/-- 95 V36, row 1. -/
theorem test_wrapkey_row1 :
    after .wrapkey { rsa255 with keyBytes := 16#8, key := key128.key }
      (fun t => t.memRead 0 32 == hex 32 0x2873a55a900bd0be2d63ff272e08f08de00081c0fcdc63a1737fecd311214730
        && t.dataLen == 32#16) = true := by decide +kernel

/-- 95 V36, row 4: the empty string. -/
theorem test_wrapkey_empty :
    after .wrapkey { rsa255 with keyBytes := 16#8, dataLen := 9#16 } (fun t => t.dataLen == 0#16 && t.big.y == 0) = true := by
  decide +kernel

/-- 95 V37, row 2: 24 bytes. -/
theorem test_unwrapkey_row2 :
    after .unwrapkey
      { withMessage rsa255 32 0x2873a55a900bd0be2d63ff272e08f08de00081c0fcdc63a1737fecd311214730 with keyBytes := 24#8 }
      (fun t => t.key == #v[0#32, 0#32, 0x00010203#32, 0x04050607#32, 0x08090a0b#32, 0x0c0d0e0f#32, 0#32, 0#32]) = true := by
  decide +kernel

/-- 95 V37, row 5: the low-order 16 bytes. -/
theorem test_unwrapkey_row5 :
    after .unwrapkey
      { withMessage rsa255 32 0x3b7c33c297416744a4d4d0a6c68b7f648c123ee3487e47e12cf0105c44f7c616 with
        keyBytes := 16#8, ksValid := true }
      (fun t => t.key == #v[0xa5a5a5a5#32, 0xa5a5a5a5#32, 0xa5a5a5a5#32, 0xa5a5a5a5#32, 0#32, 0#32, 0#32, 0#32]
        && !t.ksValid) = true := by decide +kernel

/-! The bus (95 V25, V26). -/

/-- 95 V25, step 3: a write of KEY3 clears KS_VALID. -/
theorem test_key_write_clears :
    afterStep (host { key128 with ksValid := true, nr := 10#8 } 0x04C (.write 0x0c0d0e0f#32))
      (fun t => !t.ksValid && t.locWord .nr == 0#32) = true := by decide

/-- 95 V26: a write to KEY0 while BUSY. -/
theorem test_busy_write_dropped :
    afterStep (host (busy .nop) 0x040 (.write 1#32)) (fun t => t.werr && t.locWord (.key 0) == 0#32) = true := by decide

/-- 95 V26: a read at offset 2. -/
theorem test_misaligned_read :
    afterStep (host State.reset 0x0002 .read) (fun t => t.response == some ⟨true, 0#32⟩) = true := by decide

/-- 10 R36, R37: word 1 of N is bits [63:32]. -/
theorem test_big_word :
    afterStep (host { State.reset with big := { State.reset.big with n := 5 } } 0x1004 (.write 2#32))
      (fun t => t.big.n == 0x200000005) = true := by decide

/-- 20 R70, R73: the lowest-numbered byte stands in bits [31:24]. -/
theorem test_buffer_word :
    afterStep (host State.reset 0x4004 (.write 0x61626364#32)) (fun t => t.memRead 4 4 == hex 4 0x61626364) = true := by
  decide

/-- 10 R37, 20 R70: past RSA_WORDS and BUF_BYTES a word reads 0, of a register or a buffer being written as well. -/
theorem test_busy_read_past_the_end :
    afterStep (host (small .genprime) 0x1C40 .read)
      (fun t => t.response == some ⟨false, 0#32⟩ && t.fresh == 0) = true ∧
    afterStep (host (small .ecbEnc) 0x4040 .read)
      (fun t => t.response == some ⟨false, 0#32⟩ && t.fresh == 0) = true := by decide +kernel

/-! Witnesses: for each obligation with hypotheses, states and operands that meet them, clause by clause. -/

/-- The host access of `host` is a whole, aligned one. -/
theorem host_nextAccess {s : State} {off : Nat} {dir : Dir} (hb : s.params = Config.params) (h : off < 0x10000)
    (h4 : offsetAligned (BitVec.ofNat 16 off) = true) : (host s off dir).nextAccess (BitVec.ofNat 16 off) dir [] := by
  refine ⟨off, rfl, ?_, h4⟩
  simp only [host, hb, decodeAddr, Config.params, Nat.sub_zero]
  rw [if_pos (by omega)]

/-- A state with reset's parameters and buffer, an IDLE engine, no schedule and legal big numbers meets Inv. -/
theorem inv_of_plain {s : State} (hp : s.params = Config.params) (hb : s.buf = []) (hk : s.ksValid = false)
    (hi : s.phase = .idle) (hg : ∀ r, s.getBig r < 2 ^ s.params.rsaMaxBits) : s.Inv where
  params := by rw [hp]; decide
  bufWf := by rw [hb]; exact State.wf_buf_reset
  bufInRange := by rw [hb]; simp
  bigInRange := hg
  schedule := by rw [hk]; simp
  phase := by intro op h; rw [hi] at h; cases h

/-- A key the toy modulus admits: the integer 1 (95 V36). -/
def toyKey : State := { toy 17 2753 65 with keyBytes := 16#8, key := #v[0#32, 0#32, 0#32, 1#32, 0#32, 0#32, 0#32, 0#32] }

theorem toyKey_inv : toyKey.Inv := by
  apply inv_of_plain rfl rfl rfl rfl
  intro r; cases r <;> decide +kernel

theorem witness_DecodeAndEncodeAgree :
    decode 0x00000017#32 = .ok .unwrapkey ∧ decodeCommand 0x0000000A#32 = .badCmd ∧
    decodeCommand 0x0000000F#32 = .badCmd ∧ decodeCommand 0x00000018#32 = .badCmd ∧
    decodeCommand 0xFFFFFFFF#32 = .badCmd ∧ decodeCommand 0x00000009#32 ≠ .badCmd ∧
    decodeCommand 0x00000010#32 ≠ .badCmd ∧ decodeCommand 0x00000017#32 ≠ .badCmd := by decide

theorem witness_OffsetsAndLocationsAgree :
    ((⟨512, 64, 0x20000⟩ : Params).base ≤ 0x2FFFF ∧ 0x2FFFF < (⟨512, 64, 0x20000⟩ : Params).base + 0x10000 ∧
      0x1FFFF < (⟨512, 64, 0x20000⟩ : Params).base ∧ (⟨512, 64, 0x20000⟩ : Params).base + 0x10000 ≤ 0x30000) ∧
    offsetOf (.big .y 127) = some 0x1FFC#16 ∧ offsetOf (.buf 4095) = some 0x7FFC#16 ∧ offsetOf .id = some 0#16 ∧
    (BigReg.y, 0x1E00) ∈ [(BigReg.n, 0x1000), (.y, 0x1E00)] ∧
    (offsetAligned 0x0024#16 = true ∧ locate 0x0024#16 ≠ .reserved) ∧
    locate 0x0028#16 = .reserved ∧ locate 0x003F#16 = .reserved ∧ locate 0x0080#16 = .reserved ∧
    locate 0x00FF#16 = .reserved ∧ locate 0x01F0#16 = .reserved ∧ locate 0x0FFF#16 = .reserved ∧
    locate 0x2000#16 = .reserved ∧ locate 0x3FFF#16 = .reserved ∧ locate 0x8000#16 = .reserved ∧
    locate 0xFFFF#16 = .reserved := by decide

theorem witness_StepRunsTheDecodedCommand :
    ((busy .pad).phase = .busy (.instr .pad) ∧ (busy .pad).turns = []) ∧
    ({ busy .pad with turns := [.engine] } : State).turns = .engine :: [] ∧
    ({ State.reset with phase := .busy .badCmd } : State).phase = .busy .badCmd ∧ State.reset.phase = .idle ∧
    (host State.reset 0x10000 .read).turns = .host ⟨0x10000, .read, 0xF#4⟩ :: [] ∧
    decodeAddr State.reset.params 0x10000 = none ∧ (∀ i, decode (BitVec.ofNat 32 (0x18 % 2 ^ 32)) ≠ .ok i) ∧
    ({ State.reset with turns := [.rst] } : State).turns = .rst :: [] ∧
    decode (BitVec.ofNat 32 (0x17 % 2 ^ 32)) = .ok .unwrapkey := by
  refine ⟨by decide, by decide, by decide, by decide, by decide, by decide, fun i h => ?_, by decide, by decide⟩
  have e : decode (BitVec.ofNat 32 (0x18 % 2 ^ 32)) = .error .reservedOpcode := by decide
  rw [e] at h
  cases h

theorem witness_IdleCommandWriteIsAccepted :
    (host State.reset 0x00C (.write 8#32)).phase = .idle ∧
    (host State.reset 0x00C (.write 8#32)).nextAccess 0x00C#16 (.write 8#32) [] :=
  ⟨rfl, host_nextAccess rfl (by decide) (by decide)⟩

theorem witness_BadcmdOnlyReportsItself :
    ({ State.reset with phase := .busy .badCmd } : State).phase = .busy .badCmd := rfl

theorem witness_EveryCommandButTwoCompletes : Instr.pad ≠ .genprime ∧ Instr.pad ≠ .keygen := by decide

/-- The bounds of RSA_BITS for the two commands with no draw, and draws that do not settle: a candidate short of its base,
a candidate that failed, and p with no q. -/
theorem witness_PrimeSearchWaitsForDraws :
    (∀ b ∈ [2, 16, 4096], ∀ s : State, s = { State.reset with rsaBits := BitVec.ofNat 16 b } →
      s.mrRounds ≠ 0#8 ∧ 2 ≤ s.rsaBits.toNat ∧ s.rsaBits.toNat ≤ s.params.rsaMaxBits ∧
      genPrime s.rsaBits.toNat s.mrRounds.toNat s.draws = none ∧
      keyPrimes s.rsaBits.toNat s.mrRounds.toNat s.draws = none ∧
      (b ≠ 2 → s.rsaBits.toNat % 2 = 0 ∧ 16 ≤ s.rsaBits.toNat)) ∧
    (131 = 0x82 % 2 ^ 8 ||| 2 ^ (8 - 1) ||| 1 ∧ isProbablePrime 131 1 [] = none) ∧
    (129 = 0x00 % 2 ^ 8 ||| 2 ^ (8 - 1) ||| 1 ∧ isProbablePrime 129 1 [0x82] = some (false, [0x82])) ∧
    genPrime (16 / 2) 1 [0x82, 5] = some (131, []) ∧ genPrime (16 / 2) 1 [] = none := by
  refine ⟨?_, by decide +kernel⟩
  rintro b hb _ rfl
  simp only [List.mem_cons, List.not_mem_nil, or_false] at hb
  rcases hb with rfl | rfl | rfl <;> exact ⟨by decide, by decide, by decide, rfl, rfl, by decide⟩

theorem witness_OnlyWholeAlignedAccessesAreServed :
    decodeAddr State.reset.params 0xFFFE = some 0xFFFE#16 ∧ (0xFFFE#16 : Offset).extractLsb' 0 2 ≠ 0#2 ∧
    decodeAddr State.reset.params 0x0014 = some 0x0014#16 ∧ (0x3#4 : BitVec 4) ≠ 0xF#4 ∧
    (0x0014#16 : Offset).extractLsb' 0 2 = 0#2 := by decide

theorem witness_ReadsHaveNoSideEffect :
    (host State.reset 0x010 .read).nextAccess 0x010#16 .read [] ∧ (host State.reset 0x010 .read).phase = .idle ∧
    (host (busy .keyexp) 0x100 .read).nextAccess 0x100#16 .read [] :=
  ⟨host_nextAccess rfl (by decide) (by decide), rfl, host_nextAccess rfl (by decide) (by decide)⟩

/-- A machine of the smallest parameters with GENPRIME or ECB_ENC running reads one word past the end. -/
theorem witness_ReservedOffsetsReadZeroIgnoreWrites :
    (locate 0x0028#16 = .reserved ∧ (host State.reset 0x0028 .read).nextAccess 0x0028#16 .read [] ∧
      locate 0xFFFC#16 = .reserved ∧ (host (busy .pad) 0xFFFC (.write 5#32)).nextAccess 0xFFFC#16 (.write 5#32) []) ∧
    (locate 0x1C40#16 = .big .x 16 ∧ (⟨512, 64, 0⟩ : Params).rsaMaxBits / 32 ≤ (16 : Fin 128).val ∧
      (host (small .genprime) 0x1C40 .read).nextAccess 0x1C40#16 .read []) ∧
    (locate 0x4040#16 = .buf 16 ∧ (⟨512, 64, 0⟩ : Params).bufBytes < 4 * (16 : Fin 4096).val + 4 ∧
      (host (small .ecbEnc) 0x4040 .read).nextAccess 0x4040#16 .read []) :=
  ⟨⟨by decide, host_nextAccess rfl (by decide) (by decide), by decide, host_nextAccess rfl (by decide) (by decide)⟩,
    ⟨by decide +kernel, by decide +kernel, _, rfl, by decide, by decide⟩,
    ⟨by decide +kernel, by decide +kernel, _, rfl, by decide, by decide⟩⟩

/-- One location of each kind, the last word of RSA_MAX_BITS = 512 and BUF_BYTES = 64, and the first past it; a key
write, another write, STATUS and a read-only location. -/
theorem witness_IdleWritesStoreAndKeepTheRest :
    Params.valid ⟨512, 64, 0⟩ = true ∧ Config.params.valid = true ∧ State.reset.phase = .idle ∧
    writeMask ⟨512, 64, 0⟩ (.key 7) = some 0xFFFFFFFF#32 ∧ writeMask ⟨512, 64, 0⟩ .keyBytes = some 0xFF#32 ∧
    writeMask ⟨512, 64, 0⟩ .ctrl = some 1#32 ∧
    writeMask ⟨512, 64, 0⟩ (.big .n 15) = some 0xFFFFFFFF#32 ∧ writeMask ⟨512, 64, 0⟩ (.big .n 16) = some 0#32 ∧
    writeMask ⟨512, 64, 0⟩ (.buf 15) = some 0xFFFFFFFF#32 ∧ writeMask ⟨512, 64, 0⟩ (.buf 16) = some 0#32 ∧
    (Loc.dataLen ≠ .key 7 ∧ Loc.dataLen ≠ .status ∧ Loc.dataLen ≠ .nr) ∧
    ((host State.reset 0x05C (.write 1#32)).nextAccess 0x05C#16 (.write 1#32) [] ∧ locate 0x05C#16 = .key 7) ∧
    ((host State.reset 0x018 (.write 1#32)).nextAccess 0x018#16 (.write 1#32) [] ∧ locate 0x018#16 = .dataLen) ∧
    ((host State.reset 0x010 (.write 2#32)).nextAccess 0x010#16 (.write 2#32) [] ∧ locate 0x010#16 = .status) ∧
    ((host State.reset 0x1EC (.write 2#32)).nextAccess 0x1EC#16 (.write 2#32) [] ∧ locate 0x1EC#16 = .ks 59) := by
  refine ⟨by decide, by decide, rfl, by decide, by decide, by decide, by decide, by decide, by decide, by decide,
    by decide, ⟨?_, by decide⟩, ⟨?_, by decide⟩, ⟨?_, by decide⟩, ⟨?_, by decide⟩⟩ <;>
  exact host_nextAccess rfl (by decide) (by decide)

/-- Each of the four branches: CTRL, STATUS, a reserved offset, CMD. -/
theorem witness_BusyWritesAreDropped :
    (busy .keygen).phase = .busy (.instr .keygen) ∧
    ((host (busy .keygen) 0x008 (.write 1#32)).nextAccess 0x008#16 (.write 1#32) [] ∧ locate 0x008#16 = .ctrl) ∧
    ((host (busy .keygen) 0x010 (.write 1#32)).nextAccess 0x010#16 (.write 1#32) [] ∧ locate 0x010#16 = .status) ∧
    ((host (busy .keygen) 0x028 (.write 1#32)).nextAccess 0x028#16 (.write 1#32) [] ∧ locate 0x028#16 = .reserved) ∧
    ((host (busy .keygen) 0x00C (.write 1#32)).nextAccess 0x00C#16 (.write 1#32) [] ∧ locate 0x00C#16 = .cmd) :=
  ⟨rfl, ⟨host_nextAccess rfl (by decide) (by decide), by decide⟩,
    ⟨host_nextAccess rfl (by decide) (by decide), by decide⟩,
    ⟨host_nextAccess rfl (by decide) (by decide), by decide⟩,
    ⟨host_nextAccess rfl (by decide) (by decide), by decide⟩⟩

/-- GENPRIME writes X and reads N as it is; of an empty message PAD frees bytes 0 to 15; BADCMD frees nothing. -/
theorem witness_BusyReadsOfTheWriteSetAreFree :
    (busy .genprime).phase = .busy (.instr .genprime) ∧
    ((host (busy .genprime) 0x1C00 .read).nextAccess 0x1C00#16 .read [] ∧
      (busy .genprime).writing (.instr .genprime) (locate 0x1C00#16)) ∧
    ((host (busy .genprime) 0x1000 .read).nextAccess 0x1000#16 .read [] ∧
      ¬ (busy .genprime).writing (.instr .genprime) (locate 0x1000#16)) ∧
    ((host (busy .pad) 0x400C .read).nextAccess 0x400C#16 .read [] ∧
      (busy .pad).writing (.instr .pad) (locate 0x400C#16)) ∧
    ((host (busy .pad) 0x4010 .read).nextAccess 0x4010#16 .read [] ∧
      ¬ (busy .pad).writing (.instr .pad) (locate 0x4010#16)) ∧
    ¬ State.reset.writing .badCmd (locate 0x4000#16) := by
  refine ⟨rfl, ⟨host_nextAccess rfl (by decide) (by decide), ?_⟩, ⟨host_nextAccess rfl (by decide) (by decide), ?_⟩,
    ⟨host_nextAccess rfl (by decide) (by decide), ?_⟩, ⟨host_nextAccess rfl (by decide) (by decide), ?_⟩, ?_⟩ <;>
  rw [← State.inWriteSet_iff] <;> decide +kernel

/-- Each range of the words that have storage, at its ends, and the bytes of a key. -/
theorem witness_LocationsReadWhatTheirRulesSay :
    (15 : Fin 128).val < (⟨512, 64, 0⟩ : Params).rsaMaxBits / 32 ∧
    ¬ (16 : Fin 128).val < (⟨512, 64, 0⟩ : Params).rsaMaxBits / 32 ∧
    4 * (15 : Fin 4096).val + 4 ≤ (⟨512, 64, 0⟩ : Params).bufBytes ∧
    ¬ 4 * (16 : Fin 4096).val + 4 ≤ (⟨512, 64, 0⟩ : Params).bufBytes ∧
    15 < key128.keyBytes.toNat ∧ 15 < 32 := by decide +kernel

theorem witness_IrqFollowsDoneAndItsEnable :
    (engineTurn (busy .nop) = .next (busy .nop).complete ∧ (busy .nop).phase ≠ .idle ∧
      (busy .nop).complete.phase = .idle) ∧
    (2#32 : Word).getLsbD 1 = true :=
  ⟨⟨rfl, by decide, rfl⟩, by decide⟩

theorem witness_ResetValuesAreR402s : Params.valid ⟨512, 64, 0x10000⟩ = true ∧ Params.valid ⟨4096, 16384, 0⟩ = true := by
  decide

theorem witness_RstResetsEverything : ({ busy .keygen with turns := [.rst, .engine] } : State).turns = .rst :: [.engine] := rfl

theorem witness_RoundFunctionsMoveBytesAsStated : (0 : Nat) < 4 ∧ (3 : Nat) < 4 := by decide

/-- Two rounds on any block under any schedule. -/
theorem witness_CipherRunsItsRounds :
    ∀ (ks : Vector Word 60) (b x y : Block) (f g : Nat → Block), x = addRoundKey ks b 0 →
      f = (fun r => if r = 0 then x else addRoundKey ks (mixColumns (shiftRows (subBytes x))) 1) →
      y = invSubBytes (invShiftRows (addRoundKey ks b 2)) →
      g = (fun r => if r = 2 then y else invSubBytes (invShiftRows (invMixColumns (addRoundKey ks y 1)))) →
      f 0 = addRoundKey ks b 0 ∧
      (∀ r, 1 ≤ r → r < 2 → f r = addRoundKey ks (mixColumns (shiftRows (subBytes (f (r - 1))))) r) ∧
      g 2 = invSubBytes (invShiftRows (addRoundKey ks b 2)) ∧
      ∀ r, 1 ≤ r → r < 2 → g r = invSubBytes (invShiftRows (invMixColumns (addRoundKey ks (g (r + 1)) r))) := by
  rintro ks b _ _ _ _ rfl rfl rfl rfl
  refine ⟨rfl, fun r h1 h2 => ?_, rfl, fun r h1 h2 => ?_⟩ <;> obtain rfl : r = 1 := by omega
  all_goals rfl

/-- The three key lengths, and lengths beside them. -/
theorem witness_KeyexpExpandsTheKey :
    ((16#8 : Byte).toNat = 4 * 4 ∧ (24#8 : Byte).toNat = 4 * 6 ∧ (32#8 : Byte).toNat = 4 * 8) ∧
    ∀ b ∈ [0#8, 15#8, 17#8, 255#8], ∀ s : State, s = { State.reset with keyBytes := b } →
      s.keyBytes.toNat ≠ 16 ∧ s.keyBytes.toNat ≠ 24 ∧ s.keyBytes.toNat ≠ 32 := by
  refine ⟨by decide, ?_⟩
  rintro b hb _ rfl
  simp only [List.mem_cons, List.not_mem_nil, or_false] at hb
  rcases hb with rfl | rfl | rfl | rfl <;> decide

theorem witness_BlockCommandsTransformDin :
    key128.keyReady ∧ ({ State.reset with ksValid := true } : State).keyReady ∧ key128.scheduled = key128.scheduled :=
  ⟨.inr (.inl rfl), .inl rfl, rfl⟩

theorem witness_AesCommandsRaiseKeylenFirst :
    State.reset.ksValid = false ∧ State.reset.keyBytes.toNat ≠ 16 ∧ State.reset.keyBytes.toNat ≠ 24 ∧
    State.reset.keyBytes.toNat ≠ 32 ∧
    Instr.decrypt ∈ [Instr.encBlock, .decBlock, .ecbEnc, .ecbDec, .encrypt, .decrypt] := by decide

/-- DATA_LEN = BUF_BYTES − 1 fits with its padding, BUF_BYTES does not (95 V20). -/
theorem witness_PadAppendsPkcs7Bytes :
    Config.params.valid = true ∧ 16383 + (16 - 16383 % 16) ≤ Config.params.bufBytes ∧
    Config.params.bufBytes < 16384 + (16 - 16384 % 16) ∧ (16383#16 : BitVec 16).toNat = 16383 := by decide

/-- A padded message, and each kind of violation (95 V21, W2). -/
theorem witness_UnpadValidatesAndStrips :
    (∀ v ∈ [0x0202, 0x01], ∀ s : State, s = withMessage State.reset 16 v → ∀ p, p = (s.readByte 15).toNat →
      s.dataLen.toNat = 16 ∧ 1 ≤ p ∧ p ≤ 16 ∧ ∀ i, 1 ≤ i → i ≤ p → s.readByte (16 - i) = BitVec.ofNat 8 p) ∧
    ((withMessage State.reset 16 0x00).readByte 15).toNat = 0 ∧
    16 < ((withMessage State.reset 16 0x11).readByte 15).toNat ∧
    ((withMessage State.reset 16 0x0102).readByte 15).toNat = 2 ∧
    (withMessage State.reset 16 0x0102).readByte (16 - 2) ≠ BitVec.ofNat 8 2 ∧
    State.reset.dataLen.toNat = 0 ∧ 17 % 16 ≠ 0 ∧ State.reset.params.bufBytes < (16385#16 : BitVec 16).toNat := by
  refine ⟨?_, by decide +kernel⟩
  rintro v hv _ rfl p rfl
  simp only [List.mem_cons, List.not_mem_nil, or_false] at hv
  rcases hv with rfl | rfl
  · have h : ((withMessage State.reset 16 0x0202).readByte 15).toNat = 2 := by decide +kernel
    rw [h]
    refine ⟨rfl, by decide, by decide, fun i h1 h2 => ?_⟩
    interval_cases i <;> decide +kernel
  · have h : ((withMessage State.reset 16 0x01).readByte 15).toNat = 1 := by decide +kernel
    rw [h]
    refine ⟨rfl, by decide, by decide, fun i h1 h2 => ?_⟩
    interval_cases i; decide +kernel

/-- No block, and as many as the buffer holds. -/
theorem witness_EcbCommandsTransformEveryBlock :
    ∀ b ∈ [0, 1024], ∀ s : State, s = { key128 with dataLen := BitVec.ofNat 16 (16 * b) } →
      s.keyReady ∧ s.scheduled = s.scheduled ∧ s.dataLen.toNat = 16 * b ∧ 16 * b ≤ s.params.bufBytes := by
  rintro b hb _ rfl
  simp only [List.mem_cons, List.not_mem_nil, or_false] at hb
  rcases hb with rfl | rfl <;> exact ⟨.inr (.inl rfl), rfl, by decide, by decide⟩

theorem witness_BadLengthsKeepOnlyTheSchedule :
    key128.keyReady ∧ key128.params.bufBytes < (16400#16 : BitVec 16).toNat ∧ (17#16 : BitVec 16).toNat % 16 ≠ 0 ∧
    Instr.decrypt ∈ [Instr.ecbEnc, .ecbDec, .decrypt] ∧
    key128.params.bufBytes < (16384#16 : BitVec 16).toNat + (16 - (16384#16 : BitVec 16).toNat % 16) :=
  ⟨.inr (.inl rfl), by decide, by decide, by decide, by decide⟩

theorem witness_EncryptPadsAndEnciphers :
    ∀ len ∈ [0, 16383], ∀ s : State, s = { key128 with dataLen := BitVec.ofNat 16 len } →
      s.params.valid = true ∧ s.keyReady ∧ len = s.dataLen.toNat ∧ len + (16 - len % 16) ≤ s.params.bufBytes := by
  rintro len hl _ rfl
  simp only [List.mem_cons, List.not_mem_nil, or_false] at hl
  rcases hl with rfl | rfl <;> exact ⟨by decide, .inr (.inl rfl), by decide, by decide⟩

/-- The outer hypotheses, and the two outcomes of 95 V24: row 1 ends padded with 13, row 6 ends with 0xff. -/
theorem witness_DecryptDeciphersThenUnpads :
    (∀ v : Nat, ∀ s : State, s = withMessage key128 16 v →
      s.keyReady ∧ s.dataLen.toNat = 16 * 1 ∧ 16 * 1 ≤ s.params.bufBytes) ∧
    after .decrypt (withMessage key128 16 0xb08b1f809a035064420d1d754022ab55)
      (fun t => (List.range 13).all fun i => t.readByte (16 * 1 - (i + 1)) == 13#8) = true ∧
    after .decrypt (withMessage key128 16 0x69c4e0d86a7b0430d8cdb78070b4c55a)
      (fun t => decide (16 < (t.readByte (16 * 1 - 1)).toNat)) = true := by
  refine ⟨?_, by decide +kernel, by decide +kernel⟩
  rintro v _ rfl
  exact ⟨.inr (.inl rfl), rfl, by change 16 * 1 ≤ 16384; decide⟩

/-- The empty message, and the longest that fits with its padding. -/
theorem witness_DecryptUndoesEncrypt :
    ∀ len ∈ [0, 16383], ∀ s : State, s = { key128 with dataLen := BitVec.ofNat 16 len } →
      s.params.valid = true ∧ s.keyReady ∧ s.dataLen.toNat + (16 - s.dataLen.toNat % 16) ≤ s.params.bufBytes := by
  rintro len hl _ rfl
  simp only [List.mem_cons, List.not_mem_nil, or_false] at hl
  rcases hl with rfl | rfl <;> exact ⟨by decide, .inr (.inl rfl), by decide⟩

theorem witness_ModExpIsThePower : (2 : Nat) ≤ 2 ∧ (2 : Nat) ≤ 3233 := by decide

theorem witness_ModInvIsTheUniqueInverse : 2 ≤ 3120 ∧ Nat.gcd 17 3120 = 1 ∧ Nat.gcd 6 3120 ≠ 1 ∧ Nat.gcd 0 2 ≠ 1 := by
  decide +kernel

/-- φ coprime to 65537, and 95 V35's, which is not. -/
theorem witness_ChooseEFindsTheFirstCoprimeOdd :
    1 ≤ 3120 ∧ Nat.gcd 65537 3120 = 1 ∧ Nat.gcd 65537 0x70034802d8 ≠ 1 ∧ 0x70034802d8 < 2 ^ 4096 := by decide +kernel

theorem witness_PrimetestAcceptsEveryPrime :
    ∀ n ∈ [2, 101], ∀ s : State, s = toy 0 0 n → s.mrRounds ≠ 0#8 ∧ Nat.Prime (s.getBig .x) := by
  rintro n hn _ rfl
  simp only [List.mem_cons, List.not_mem_nil, or_false] at hn
  rcases hn with rfl | rfl <;> exact ⟨by decide, by norm_num [State.getBig, BigRegs.get, toy]⟩

theorem witness_PrimetestRejectsSmallFactors :
    ((toy 0 0 1).mrRounds ≠ 0#8 ∧ (toy 0 0 1).getBig .x < 2) ∧
    (Nat.Prime 97 ∧ 97 ≤ 97 ∧ 97 ∣ (toy 0 0 9409).getBig .x ∧ (toy 0 0 9409).getBig .x ≠ 97) ∧
    ({ toy 0 0 1 with mrRounds := 0#8 } : State).mrRounds = 0#8 := by decide +kernel

/-- 95 V33's composite, with no draw listed, too few, a base that fails, and enough. -/
theorem witness_PrimetestIsMillerRabin :
    ∀ draws ∈ [[], [2], [3], [2, 3]], ∀ s : State, s = { toy 0 0 42799 with mrRounds := 2#8, draws := draws } →
      42799 = s.getBig .x ∧ 2 = s.mrRounds.toNat ∧ (∀ p : Nat, p.Prime → p ≤ 97 → 42799 % p ≠ 0) ∧ 21399 % 2 = 1 ∧
      42799 - 1 = 21399 * 2 ^ 1 ∧ s.draws = draws := by
  have key : ∀ p ∈ Config.smallPrimes, 42799 % p ≠ 0 := by decide
  rintro draws - _ rfl
  exact ⟨rfl, rfl, fun p h1 h2 => key p (mem_smallPrimes_iff.mpr ⟨h1, h2⟩), by decide, by decide, rfl⟩

theorem witness_DrawsCoverTheirRanges : (2 : Nat) ≤ 2 ∧ (2 : Nat) ≤ 5 ∧ (5 : Nat) ≤ 5 ∧ (255 : Nat) < 2 ^ 8 := by decide

/-- 95 V34: 131 passes at once, 129 fails at once. -/
theorem witness_GenprimeTriesCandidatesInTurn :
    ∀ s : State, s = { busy .genprime with rsaBits := 8#16, mrRounds := 1#8, draws := [0x82, 5] } →
      8 = s.rsaBits.toNat ∧ 1 = s.mrRounds.toNat ∧ 8 ≤ s.params.rsaMaxBits ∧ s.phase = .busy (.instr .genprime) ∧
      s.draws = 0x82 :: [5] ∧ 131 = 0x82 % 2 ^ 8 ||| 2 ^ (8 - 1) ||| 1 ∧
      isProbablePrime 131 1 [5] = some (true, []) ∧ isProbablePrime 129 1 [0x82, 5] = some (false, [0x82, 5]) ∧
      after .genprime s (fun t => t.phase == .idle) = true := by
  rintro _ rfl; decide +kernel

theorem witness_GenprimeGivesAnOddProbablePrimeOfTheWidth :
    ∀ s : State, s = { busy .genprime with rsaBits := 2#16, draws := [0] } →
      s.phase = .busy (.instr .genprime) ∧
      after .genprime s (fun t => t.phase == .idle && t.err == .ok) = true ∧
      (1#16 : BitVec 16).toNat < 2 ∧ s.params.rsaMaxBits < (4097#16 : BitVec 16).toNat ∧
      ({ s with mrRounds := 0#8 } : State).mrRounds = 0#8 := by
  rintro _ rfl; decide +kernel

theorem witness_ModinvInvertsE :
    (toy 17 0 0).getBig .phi < 2 ^ (toy 17 0 0).params.rsaMaxBits ∧ 2 ≤ (toy 17 0 0).getBig .phi ∧
    Nat.gcd ((toy 17 0 0).getBig .e) ((toy 17 0 0).getBig .phi) = 1 ∧
    Nat.gcd ((toy 6 0 0).getBig .e) ((toy 6 0 0).getBig .phi) ≠ 1 ∧ State.reset.getBig .phi < 2 := by decide +kernel

/-- 8-bit primes 131 and 137, one round each; and a q drawn equal to p first. -/
theorem witness_KeygenBuildsTheKeypair :
    ∀ s : State, s = { State.reset with rsaBits := 16#16, mrRounds := 1#8, draws := [0x82, 5, 0x88, 5] } →
      s.params.valid = true ∧ 16 = s.rsaBits.toNat ∧ 1 = s.mrRounds.toNat ∧ 16 ≤ s.params.rsaMaxBits ∧
      genPrime (16 / 2) 1 s.draws = some (131, [0x88, 5]) ∧ genPrime (16 / 2) 1 [0x88, 5] = some (137, []) ∧
      genPrime (16 / 2) 1 [0x82, 5, 0x88, 5] = some (131, [0x88, 5]) ∧ (137 : Nat) ≠ 131 := by
  rintro _ rfl; decide +kernel

theorem witness_KeygenResultIsAKeypair :
    ∀ s : State, s = { busy .keygen with rsaBits := 16#16, mrRounds := 1#8, draws := [0x82, 5, 0x88, 5] } →
      s.params.valid = true ∧ s.phase = .busy (.instr .keygen) ∧
      after .keygen s (fun t => t.phase == .idle && t.err == .ok) = true ∧
      (15#16 : BitVec 16).toNat % 2 ≠ 0 ∧ (14#16 : BitVec 16).toNat < 16 ∧
      s.params.rsaMaxBits < (4098#16 : BitVec 16).toNat := by
  rintro _ rfl; decide +kernel

theorem witness_ModexpCommandsRaiseToThePower :
    (toy 17 2753 3232).getBig .n < 2 ^ (toy 17 2753 3232).params.rsaMaxBits ∧ 2 ≤ (toy 17 2753 3232).getBig .n ∧
    (toy 17 2753 3232).getBig .x < (toy 17 2753 3232).getBig .n ∧ State.reset.getBig .n < 2 ∧
    (toy 17 2753 3233).getBig .n ≤ (toy 17 2753 3233).getBig .x := by decide +kernel

theorem witness_WrapkeyEnciphersTheKey :
    toyKey.Inv ∧ toyKey.keyBytes.toNat = 16 ∧ 2 ≤ toyKey.getBig .n ∧ os2ip toyKey.keyString < toyKey.getBig .n ∧
    ({ toyKey with big := { toyKey.big with n := 1 } } : State).getBig .n < 2 ∧
    ({ toyKey with big := { toyKey.big with n := 1 } } : State).getBig .n ≤ os2ip toyKey.keyString ∧
    (20#8 : Byte).toNat ≠ 16 ∧ (20#8 : Byte).toNat ≠ 24 ∧ (20#8 : Byte).toNat ≠ 32 :=
  ⟨toyKey_inv, by decide +kernel⟩

/-- The empty wrapped key, a message past the buffer, c = N, and KEY_BYTES = 0 (95 V37). -/
theorem witness_UnwrapkeyRecoversTheKey :
    toyKey.getBig .n < 2 ^ toyKey.params.rsaMaxBits ∧ toyKey.keyBytes.toNat = 16 ∧
    toyKey.dataLen.toNat ≤ toyKey.params.bufBytes ∧ 2 ≤ toyKey.getBig .n ∧
    os2ip (toyKey.memRead 0 toyKey.dataLen.toNat) < toyKey.getBig .n ∧
    toyKey.params.bufBytes < (16385#16 : BitVec 16).toNat ∧
    (withMessage toyKey 2 3233).getBig .n ≤ os2ip ((withMessage toyKey 2 3233).memRead 0 2) ∧
    (0#8 : Byte).toNat ≠ 16 ∧ (0#8 : Byte).toNat ≠ 24 ∧ (0#8 : Byte).toNat ≠ 32 := by decide +kernel

theorem witness_RsaTransformsUndoEachOther :
    Nat.Prime 61 ∧ Nat.Prime 53 ∧ (61 : Nat) ≠ 53 ∧ 17 * 2753 % ((61 - 1) * (53 - 1)) = 1 ∧ 3232 < 61 * 53 := by
  norm_num

theorem witness_UnwrapkeyUndoesWrapkey :
    toyKey.Inv ∧ Nat.Prime 61 ∧ Nat.Prime 53 ∧ (61 : Nat) ≠ 53 ∧ toyKey.getBig .n = 61 * 53 ∧
    toyKey.getBig .e * toyKey.getBig .d % ((61 - 1) * (53 - 1)) = 1 ∧ toyKey.keyBytes.toNat = 16 ∧
    os2ip toyKey.keyString < toyKey.getBig .n :=
  ⟨toyKey_inv, by norm_num, by norm_num, by decide, by decide +kernel, by decide +kernel, by decide, by decide +kernel⟩

theorem witness_CommandsWriteOnlyTheirWriteSets :
    exec .nop State.reset = .next State.reset.complete ∧ Loc.dataLen ≠ .status ∧ ¬ writesOf State.reset.params .nop .dataLen :=
  ⟨rfl, by decide, by simp [writesOf]⟩

theorem witness_CommandsLeaveControlStateAlone :
    (∃ t, exec .modinv (toy 17 0 0) = .next t) ∧ Instr.modinv ≠ .primetest :=
  ⟨(exists_of_after (p := fun _ => true) (by decide +kernel)).imp fun _ h => h.1, by decide⟩

/-- A plain error, KEYLEN by KEYEXP and by EnsureSchedule, LENGTH after EnsureSchedule built a schedule, and DECRYPT's
PADDING (95 V24, row 5: the empty message). -/
theorem witness_ErrorsWriteNoResults :
    (busy .modinv).phase = .busy (.instr .modinv) ∧
    after .modinv (busy .modinv) (fun t => t.phase == .idle && t.err == .range) = true ∧
    Instr.modinv ∉ [Instr.ecbEnc, .ecbDec, .encrypt, .decrypt] ∧
    after .keyexp (busy .keyexp) (fun t => t.phase == .idle && t.err == .keylen) = true ∧
    after .decBlock (busy .decBlock) (fun t => t.phase == .idle && t.err == .keylen) = true ∧
    after .ecbEnc { busy .ecbEnc with keyBytes := 16#8, dataLen := 17#16 }
      (fun t => t.phase == .idle && t.err == .length) = true ∧
    after .decrypt { busy .decrypt with ksValid := true } (fun t => t.phase == .idle && t.err == .padding) = true := by
  decide +kernel

theorem witness_CommandsReportOnlyTheirErrors :
    (busy .pad).phase = .busy (.instr .pad) ∧
    after .pad { busy .pad with dataLen := 16384#16 } (fun t => t.phase == .idle && t.err == .length) = true := by
  decide +kernel

/-- Each of the four: a key write, UNWRAPKEY of the empty message, KEYEXP's KEYLEN (and ENC_BLOCK's), RST. -/
theorem witness_OnlyFourThingsClearKsValid :
    (host key128 0x05C (.write 1#32)).phase = .idle ∧
    (host key128 0x05C (.write 1#32)).nextAccess 0x05C#16 (.write 1#32) [] ∧ locate 0x05C#16 = .key 7 ∧
    after .unwrapkey toyKey (fun t => t.err == .ok) = true ∧
    after .encBlock State.reset (fun t => t.err == .keylen) = true ∧
    Instr.encBlock ∈ [Instr.keyexp, .encBlock, .decBlock, .ecbEnc, .ecbDec, .encrypt, .decrypt] ∧
    afterStep (host { key128 with ksValid := true } 0x014 (.write 16#32)) (fun t => !t.ksValid) = true ∧
    afterStep { toyKey with phase := .busy (.instr .unwrapkey), ksValid := true } (fun t => !t.ksValid) = true ∧
    afterStep { busy .keyexp with ksValid := true } (fun t => !t.ksValid) = true ∧
    afterStep { State.reset with ksValid := true, turns := [.rst] } (fun t => !t.ksValid) = true :=
  ⟨rfl, host_nextAccess rfl (by decide) (by decide), by decide +kernel⟩

theorem witness_ResetMeetsTheInvariant : Params.valid ⟨512, 64, 0⟩ = true := by decide

theorem witness_EveryStepKeepsTheInvariant : toyKey.Inv ∧ step toyKey = .next toyKey := ⟨toyKey_inv, rfl⟩

end Sys2Proof.Tests
end

section
/-! SUPPORT. The control state (10 R26, 40 R131, 00 R6): what no command writes, grouped as one value that every update
a command makes leaves unchanged; so every result of a command (`exec_result`) has the control state it started with. -/

namespace Sys2Proof.Machine

/-- The part of the state no command writes: the host-written registers and flags, the parameters, and the model's own
record of resets, turns and bus answers. -/
structure ControlState where
  irqEn    : Bool
  werr     : Bool
  lastCmd  : Byte
  din      : Block
  keyBytes : Byte
  mrRounds : Byte
  rsaBits  : BitVec 16
  params   : Params
  epoch    : Nat
  turns    : List Turn
  response : Option Response

/-- The control state held in a state. -/
def State.control (s : State) : ControlState :=
  ⟨s.irqEn, s.werr, s.lastCmd, s.din, s.keyBytes, s.mrRounds, s.rsaBits, s.params, s.epoch, s.turns, s.response⟩

section
variable (s : State)

@[simp] theorem State.complete_control : s.complete.control = s.control := rfl
@[simp] theorem State.raise_control (e : ErrCode) : (s.raise e).control = s.control := rfl
@[simp] theorem State.raiseKeylen_control : s.raiseKeylen.control = s.control := rfl
@[simp] theorem State.clearKsValid_control : s.clearKsValid.control = s.control := rfl
@[simp] theorem State.setSchedule_control (ks : Vector Word 60) (nr : Nat) :
    (s.setSchedule ks nr).control = s.control := rfl
@[simp] theorem State.setDout_control (b : Block) : (s.setDout b).control = s.control := rfl
@[simp] theorem State.setKey_control (k : List Byte) : (s.setKey k).control = s.control := rfl
@[simp] theorem State.setDataLen_control (n : Nat) : (s.setDataLen n).control = s.control := rfl
@[simp] theorem State.memWrite_control (a : Nat) (bs : List Byte) : (s.memWrite a bs).control = s.control := rfl
@[simp] theorem State.setBig_control (r : BigReg) (v : Nat) : (s.setBig r v).control = s.control := rfl
@[simp] theorem State.setKeyPair_control (kp : KeyPair) : (s.setKeyPair kp).control = s.control := rfl
@[simp] theorem State.leaveDraws_control (ds : List Nat) : (s.leaveDraws ds).control = s.control := rfl
@[simp] theorem State.supplyDraws_control (n : Nat) : (s.supplyDraws n).control = s.control := rfl
@[simp] theorem finishPrimetest_control (v : Bool × List Nat) : (finishPrimetest s v).control = s.control := rfl

@[simp] theorem State.scheduled_control : s.scheduled.control = s.control := by rw [s.scheduled_eq]; rfl
@[simp] theorem State.scheduled_result : s.scheduled.result = s.result := by rw [s.scheduled_eq]

@[simp] theorem State.mapBlocks_control (f : Block → Block) (n : Nat) : (s.mapBlocks f n).control = s.control := by
  rw [s.mapBlocks_eq]; rfl
@[simp] theorem State.mapBlocks_result (f : Block → Block) (n : Nat) : (s.mapBlocks f n).result = s.result := by
  rw [s.mapBlocks_eq]

end

/-- Every result of a command is built from the state by updates that keep the control state. -/
theorem ExecResult.control_eq {i : Instr} {s t : State} (h : ExecResult s i t) : t.control = s.control := by
  cases h <;> simp

/-- PRIMETEST's completion is the only result built with `State.setResult`. -/
theorem ExecResult.result_eq {i : Instr} {s t : State} (h : ExecResult s i t) (hi : i ≠ .primetest) :
    t.result = s.result := by
  cases h
  case primetest | primetestSupplied => exact absurd rfl hi
  all_goals simp

/-- Settles O54, by the list of results `ExecResult`. -/
theorem commandsLeaveControlStateAlone : Obligations.CommandsLeaveControlStateAlone := by
  intro i s t h
  have hr : ExecResult s i t := exec_result h
  obtain ⟨irqEn, werr, lastCmd, din, keyBytes, mrRounds, rsaBits, params, epoch, turns, response⟩ :=
    ControlState.mk.inj hr.control_eq
  exact ⟨irqEn, werr, lastCmd, din, keyBytes, mrRounds, rsaBits, params, epoch, turns, response, hr.result_eq⟩

end Sys2Proof.Machine
end

section
/-! SUPPORT. The invariant of the block (20 R71, 43 R250, 10 R40, 40 R131): every update of the state keeps it, so every
result of a command, every host access and RST do. -/

namespace Sys2Proof.Machine

/-! Updates. Those of fields the invariant does not speak of keep it as it stands. -/

section
variable {s : State}

theorem State.Inv.setTurns (h : s.Inv) (ts : List Turn) : (s.setTurns ts).Inv := { h with }

theorem State.Inv.respond (h : s.Inv) (r : Option Response) : (s.respond r).Inv := { h with }

theorem State.Inv.respondFree (h : s.Inv) : s.respondFree.Inv := { h with }

theorem State.Inv.supplyDraws (h : s.Inv) (n : Nat) : (s.supplyDraws n).Inv := { h with }

theorem State.Inv.leaveDraws (h : s.Inv) (ds : List Nat) : (s.leaveDraws ds).Inv := { h with }

theorem State.Inv.setResult (h : s.Inv) (b : Bool) : (s.setResult b).Inv := { h with }

theorem State.Inv.setDout (h : s.Inv) (b : Block) : (s.setDout b).Inv := { h with }

theorem State.Inv.setDataLen (h : s.Inv) (n : Nat) : (s.setDataLen n).Inv := { h with }

theorem State.Inv.setCtrl (h : s.Inv) (w : Word) : (s.setCtrl w).Inv := { h with }

theorem State.Inv.dropWrite (h : s.Inv) : s.dropWrite.Inv := { h with }

/-- A completion leaves the engine IDLE, and an IDLE phase is coherent. -/
theorem State.Inv.raise (h : s.Inv) (e : ErrCode) : (s.raise e).Inv := { h with phase := nofun }

theorem State.Inv.complete (h : s.Inv) : s.complete.Inv := h.raise .ok

/-- While BUSY, DONE is 0 and clearing it changes nothing. -/
theorem State.Inv.clearFlags (h : s.Inv) (w : Word) : (s.clearFlags w).Inv :=
  { h with
    phase := fun op hop => by
      obtain ⟨hdone, herr, hcmd⟩ := h.phase op hop
      exact ⟨by simp [State.clearFlags, hdone], herr, hcmd⟩ }

/-! The schedule tag (10 R40, R41). -/

theorem State.Inv.clearKsValid (h : s.Inv) : s.clearKsValid.Inv := { h with schedule := nofun }

theorem State.Inv.raiseKeylen (h : s.Inv) : s.raiseKeylen.Inv := h.clearKsValid.raise .keylen

/-- With KS_VALID = 0 nothing is promised of the key. -/
theorem State.Inv.setKey (h : s.Inv) (hv : s.ksValid = false) (k : List Byte) : (s.setKey k).Inv :=
  { h with schedule := fun hv' => absurd (hv.symm.trans hv') nofun }

theorem State.Inv.scheduled (h : s.Inv) (ready : s.keyReady) : s.scheduled.Inv where
  params     := by rw [s.scheduled_params]; exact h.params
  bufWf      := by rw [s.scheduled_buf]; exact h.bufWf
  bufInRange := by rw [s.scheduled_buf, s.scheduled_params]; exact h.bufInRange
  bigInRange := by rw [s.scheduled_params]; simpa only [State.getBig, s.scheduled_big] using h.bigInRange
  schedule _ := s.scheduled_current ready h.schedule
  phase      := by rw [s.scheduled_eq]; exact h.phase

/-- KeyExpansion is EnsureSchedule where KS_VALID = 0 (41 R170, 42 R201). -/
theorem State.Inv.expanded (h : s.Inv)
    (valid : s.keyBytes.toNat = 16 ∨ s.keyBytes.toNat = 24 ∨ s.keyBytes.toNat = 32) :
    (s.setSchedule (keySchedule s.keyString) (s.keyBytes.toNat / 4 + 6)).Inv :=
  h.clearKsValid.scheduled (.inr valid)

/-! The big-number registers (43 R250). -/

/-- A register write below 2^RSA_MAX_BITS keeps every register below it. -/
theorem State.Inv.setBigRaw (h : s.Inv) (r : BigReg) {v : Nat} (hv : v < 2 ^ s.params.rsaMaxBits) :
    State.Inv { s with big := s.big.set r v } :=
  { h with
    bigInRange := fun r' => by
      rw [State.getBig, BigRegs.get_set]
      split
      · exact hv
      · exact h.bigInRange r' }

theorem State.Inv.setBig (h : s.Inv) (r : BigReg) (v : Nat) : (s.setBig r v).Inv :=
  h.setBigRaw r (Nat.mod_lt _ (Nat.two_pow_pos _))

/-- Each of the six registers of a key pair is written modulo 2^RSA_MAX_BITS; X and Y stay. -/
theorem State.Inv.setKeyPair (h : s.Inv) (kp : KeyPair) : (s.setKeyPair kp).Inv :=
  { h with
    bigInRange := fun r => by
      cases r with
      | p | q | n | phi | e | d => exact Nat.mod_lt _ (Nat.two_pow_pos _)
      | x => exact h.bigInRange .x
      | y => exact h.bigInRange .y }

/-! The buffer (20 R71). -/

theorem State.Inv.memWrite (h : s.Inv) {a : Nat} {bs : List Byte} (fits : a + bs.length ≤ s.params.bufBytes) :
    (s.memWrite a bs).Inv :=
  { h with
    bufWf := Memory.wf_putBytes h.bufWf a bs
    bufInRange := Memory.inRange_putBytes h.bufInRange fits }

theorem State.Inv.mapBlocks (h : s.Inv) (f : Block → Block) {n : Nat} (fits : 16 * n ≤ s.params.bufBytes) :
    (s.mapBlocks f n).Inv := by
  induction n with
  | zero => exact h
  | succ n ih =>
    have hn : (s.mapBlocks f n).Inv := ih (by omega)
    exact hn.memWrite (by rw [length_blockBytes, State.mapBlocks_params]; omega)

end

/-! The engine's turn. -/

/-- BUF_BYTES is at least RSA_MAX_BITS/8 (00 R6), so the buffer holds every register's MinBytes. -/
theorem length_minBytes_le_bufBytes {p : Params} (hp : p.valid = true) {c : Nat} (hc : c < 2 ^ p.rsaMaxBits) :
    (minBytes c).length ≤ p.bufBytes := by
  have hlen : bitlen c ≤ p.rsaMaxBits := bitlen_le_iff.mpr hc
  simp only [Params.valid, Params.rsaMaxBitsValid, Params.bufBytesValid, Bool.and_eq_true, decide_eq_true_eq,
    beq_iff_eq] at hp
  rw [length_minBytes]
  omega

/-- Every result of a command is built by updates that keep the invariant. -/
theorem ExecResult.inv {i : Instr} {s t : State} (h : s.Inv) (hr : ExecResult s i t) : t.Inv := by
  cases hr with
  | nop => exact h.complete
  | keyexpError => exact h.raiseKeylen
  | keyexp valid => exact (h.expanded valid).complete
  | aesKeylen => exact h.raiseKeylen
  | block _ b _ ready => exact ((h.scheduled ready).setDout b).complete
  | pad fits => exact ((h.memWrite (by rw [length_padBytes]; exact fits)).setDataLen _).complete
  | unpad => exact (h.setDataLen _).complete
  | messageLength _ _ ready => exact (h.scheduled ready).raise _
  | ecb _ f _ _ ready fits => exact ((h.scheduled ready).mapBlocks f (by simpa using fits)).complete
  | encrypt f _ _ ready fits padFits =>
    have hpad : (s.scheduled.memWrite s.dataLen.toNat (padBytes s.dataLen.toNat)).Inv :=
      (h.scheduled ready).memWrite (by simpa using padFits)
    exact ((hpad.mapBlocks f (by simpa using fits)).setDataLen _).complete
  | decryptPadding f _ ready fits => exact ((h.scheduled ready).mapBlocks f (by simpa using fits)).raise _
  | decrypt f _ _ ready fits => exact (((h.scheduled ready).mapBlocks f (by simpa using fits)).setDataLen _).complete
  | primetest => exact ((h.setResult _).leaveDraws _).complete
  | primetestSupplied => exact (((h.supplyDraws _).setResult _).leaveDraws _).complete
  | waiting => exact h.supplyDraws _
  | genprime => exact ((h.setBig _ _).leaveDraws _).complete
  | keygenNoinv => exact (h.leaveDraws _).raise _
  | keygen => exact ((h.setKeyPair _).leaveDraws _).complete
  | toY => exact (h.setBig _ _).complete
  | wrapkey c len below =>
    have fits : 0 + (minBytes c).length ≤ s.params.bufBytes := by
      rw [Nat.zero_add]
      exact length_minBytes_le_bufBytes h.params (below.trans (h.bigInRange .n))
    exact (((h.memWrite fits).setDataLen len).setBig .y c).complete
  | unwrapkey k m => exact ((h.clearKsValid.setKey rfl k).setBig .y m).complete
  | plainError => exact h.raise _

theorem State.Inv.engineTurn {s t : State} (h : s.Inv) (ht : engineTurn s = .next t) : t.Inv := by
  obtain ⟨-, e⟩ | ⟨-, e⟩ | ⟨i, -, e⟩ := engineTurn_cases s <;> rw [e] at ht
  · cases ht; exact h
  · cases ht; exact h.raise _
  · exact (exec_result ht).inv h

/-! The host's turn and RST. -/

/-- The decoder assigns each OP to the command that has it as its opcode (30 R103). -/
theorem opcode_of_decodeOp {op : Byte} {i : Instr} (h : decodeOp op = .ok i) : op = opcode i := by
  unfold decodeOp at h
  split at h <;> cases h <;> exact BitVec.eq_of_toNat_eq ‹_›

theorem opcode_of_decodeCommand {w : Word} {i : Instr} (h : decodeCommand w = .instr i) :
    w.extractLsb' 0 8 = opcode i := by
  unfold decodeCommand decode at h
  split_ifs at h
  · split at h
    · cases h
      exact opcode_of_decodeOp ‹_›
    · cases h

theorem State.Inv.accept {s : State} (h : s.Inv) (w : Word) : (s.accept w).Inv :=
  { h with
    phase := fun op hop => by
      refine ⟨rfl, rfl, fun i hi => opcode_of_decodeCommand ((Phase.busy.inj hop).trans hi)⟩ }

/-- A write of the key clears KS_VALID; one of the buffer or of a big-number register stays below its bound. -/
theorem State.Inv.storeIdle {s : State} (h : s.Inv) (l : Loc) (w : Word) : (s.storeIdle l w).Inv := by
  cases l with
  | ctrl => exact h.setCtrl w
  | cmd => exact h.accept w
  | status => exact h.clearFlags w
  | keyBytes | key i => exact { h with schedule := nofun }
  | dataLen | mrRounds | rsaBits | din i => exact { h with }
  | big r i =>
    simp only [State.storeIdle]
    split
    · rename_i hw
      simp only [hasBigWord, Params.rsaWords] at hw
      exact h.setBigRaw r (setBigWord_lt w (h.bigInRange r) (by omega))
    · exact h
  | buf j =>
    simp only [State.storeIdle]
    split
    · rename_i hw
      exact h.memWrite hw
    · exact h
  | id | cfg | nr | dout i | ks i | reserved => exact h

theorem State.Inv.store {s : State} (h : s.Inv) (l : Loc) (w : Word) : (s.store l w).Inv := by
  cases hp : s.phase with
  | idle => rw [s.store_of_idle hp]; exact h.storeIdle l w
  | busy op =>
    rw [s.store_of_busy hp]
    obtain ⟨-, e⟩ | ⟨-, e⟩ | ⟨-, e⟩ | ⟨-, -, -, e⟩ := s.storeBusy_cases l w <;> rw [e]
    · exact h.setCtrl w
    · exact h.clearFlags w
    · exact h
    · exact h.dropWrite

theorem State.Inv.load {s : State} (h : s.Inv) (l : Loc) : (s.load l).Inv := by
  obtain ⟨-, e⟩ | ⟨-, e⟩ := s.load_cases l <;> rw [e]
  · exact h.respond _
  · exact h.respondFree

theorem State.Inv.hostAccess {s : State} (h : s.Inv) (a : Access) : (s.hostAccess a).Inv := by
  obtain ⟨-, e⟩ | ⟨off, -, ⟨-, e⟩ | ⟨-, -, e⟩ | ⟨-, w, -, e⟩⟩ := s.hostAccess_cases a <;> rw [e]
  · exact h.respond _
  · exact h.respond _
  · exact h.load _
  · exact (h.store _ w).respond _

theorem State.inv_resetWith {p : Params} (hp : p.valid = true) : (State.resetWith p).Inv where
  params     := hp
  bufWf      := List.Pairwise.nil
  bufInRange := nofun
  bigInRange := fun r => by cases r <;> exact Nat.two_pow_pos _
  schedule   := nofun
  phase      := nofun

theorem State.Inv.assertRst {s : State} (h : s.Inv) : s.assertRst.Inv := { State.inv_resetWith h.params with }

/-- Settles O59, turn by turn: the engine's by the list of results `ExecResult`, the host's by what a location's write
does, RST's by the reset state. -/
theorem everyStepKeepsTheInvariant : Obligations.EveryStepKeepsTheInvariant := by
  intro s t h ht
  obtain ⟨ts, -, e⟩ | ⟨a, ts, -, e⟩ | ⟨ts, -, e⟩ := step_cases s <;> rw [e] at ht
  · exact (h.setTurns ts).engineTurn ht
  · cases ht; exact (h.setTurns ts).hostAccess a
  · cases ht; exact (h.setTurns ts).assertRst

end Sys2Proof.Machine
end

section
/-! SUPPORT. The offset map (20 R75, R76, R70): a location stands at every offset of the word that begins at its own
offset, and outside the map's gaps every offset lies in such a word. So offsets and locations name each other. -/

namespace Sys2Proof.Machine

theorem offsetAligned_iff {off : Offset} : offsetAligned off = true ↔ off.toNat % 4 = 0 := by
  simp only [offsetAligned, beq_iff_eq, ← BitVec.toNat_inj, BitVec.extractLsb'_toNat, Nat.shiftRight_zero,
    BitVec.toNat_ofNat, Nat.zero_mod]

theorem decodeAddr_of_mem {p : Params} {addr : Nat} (h : p.base ≤ addr) (h' : addr < p.base + 0x10000) :
    decodeAddr p addr = some (BitVec.ofNat 16 (addr - p.base)) := if_pos ⟨h, h'⟩

theorem decodeAddr_of_not_mem {p : Params} {addr : Nat} (h : addr < p.base ∨ p.base + 0x10000 ≤ addr) :
    decodeAddr p addr = none := if_neg (by omega)

theorem bigRegIndex_lt (r : BigReg) : bigRegIndex r < 8 := by cases r <;> decide

@[simp] theorem bigRegOfIndex_bigRegIndex (r : BigReg) : bigRegOfIndex (bigRegIndex r) = r := by cases r <;> rfl

theorem exists_bigRegIndex {k : Nat} (h : k < 8) : ∃ r, bigRegIndex r = k :=
  ⟨bigRegOfIndex k, by interval_cases k <;> rfl⟩

theorem offsetOf_controlLoc {k : Nat} (h : k < 10) : offsetOf (controlLoc k) = some (BitVec.ofNat 16 (4 * k)) := by
  interval_cases k <;> rfl

theorem toNat_of_ofNat_eq_some {n : Nat} {off : Offset} (h : some (BitVec.ofNat 16 n) = some off)
    (hn : n < 0x10000) : off.toNat = n := by
  rw [← Option.some.inj h, BitVec.toNat_ofNat, Nat.mod_eq_of_lt hn]

theorem offsetAligned_of_offsetOf {l : Loc} {off : Offset} (h : offsetOf l = some off) : offsetAligned off = true := by
  rw [offsetAligned_iff]
  cases l with
  | key i | din i | dout i | ks i | big r i | buf i =>
    obtain rfl := Option.some.inj h
    rw [BitVec.toNat_ofNat]
    omega
  | reserved => cases h
  | _ => cases h; rfl

/-- The gaps of the map (20 R76). -/
def reservedOffset (a : Nat) : Prop :=
  (0x0028 ≤ a ∧ a ≤ 0x003F) ∨ (0x0080 ≤ a ∧ a ≤ 0x00FF) ∨ (0x01F0 ≤ a ∧ a ≤ 0x0FFF) ∨ (0x2000 ≤ a ∧ a ≤ 0x3FFF) ∨
    0x8000 ≤ a

section
variable {off : Offset}

theorem locate_of_reservedOffset (h : reservedOffset off.toNat) : locate off = .reserved := by
  rcases h with h | h | h | h | h <;> simp (disch := omega) only [locate, if_pos, if_neg]

/-! One word of each region of the map. -/

theorem locate_control (k : Nat) (hk : k < 10) (lo : 4 * k ≤ off.toNat) (hi : off.toNat < 4 * k + 4) :
    locate off = controlLoc k := by
  rw [locate, if_pos (by omega), show off.toNat / 4 = k by omega]

theorem locate_key (i : Fin 8) (lo : 0x40 + 4 * i.val ≤ off.toNat) (hi : off.toNat < 0x40 + 4 * i.val + 4) :
    locate off = .key i := by
  have e : Fin.ofNat 8 ((off.toNat - 0x40) / 4) = i := Fin.ext (by rw [Fin.val_ofNat]; omega)
  simp (disch := omega) only [locate, if_pos, if_neg, e]

theorem locate_din (i : Fin 4) (lo : 0x60 + 4 * i.val ≤ off.toNat) (hi : off.toNat < 0x60 + 4 * i.val + 4) :
    locate off = .din i := by
  have e : Fin.ofNat 4 ((off.toNat - 0x60) / 4) = i := Fin.ext (by rw [Fin.val_ofNat]; omega)
  simp (disch := omega) only [locate, if_pos, if_neg, e]

theorem locate_dout (i : Fin 4) (lo : 0x70 + 4 * i.val ≤ off.toNat) (hi : off.toNat < 0x70 + 4 * i.val + 4) :
    locate off = .dout i := by
  have e : Fin.ofNat 4 ((off.toNat - 0x70) / 4) = i := Fin.ext (by rw [Fin.val_ofNat]; omega)
  simp (disch := omega) only [locate, if_pos, if_neg, e]

theorem locate_ks (i : Fin 60) (lo : 0x100 + 4 * i.val ≤ off.toNat) (hi : off.toNat < 0x100 + 4 * i.val + 4) :
    locate off = .ks i := by
  have e : Fin.ofNat 60 ((off.toNat - 0x100) / 4) = i := Fin.ext (by rw [Fin.val_ofNat]; omega)
  simp (disch := omega) only [locate, if_pos, if_neg, e]

theorem locate_big (r : BigReg) (i : Fin 128) (lo : 0x1000 + 0x200 * bigRegIndex r + 4 * i.val ≤ off.toNat)
    (hi : off.toNat < 0x1000 + 0x200 * bigRegIndex r + 4 * i.val + 4) : locate off = .big r i := by
  have hr := bigRegIndex_lt r
  have er : (off.toNat - 0x1000) / 0x200 = bigRegIndex r := by omega
  have e : Fin.ofNat 128 (off.toNat % 0x200 / 4) = i := Fin.ext (by rw [Fin.val_ofNat]; omega)
  simp (disch := omega) only [locate, if_pos, if_neg, er, e, bigRegOfIndex_bigRegIndex]

theorem locate_buf (j : Fin 4096) (lo : 0x4000 + 4 * j.val ≤ off.toNat) (hi : off.toNat < 0x4000 + 4 * j.val + 4) :
    locate off = .buf j := by
  have e : Fin.ofNat 4096 ((off.toNat - 0x4000) / 4) = j := Fin.ext (by rw [Fin.val_ofNat]; omega)
  simp (disch := omega) only [locate, if_pos, if_neg, e]

/-- A location stands at all four offsets of its word. -/
theorem locate_of_offsetOf {l : Loc} {base : Offset} (h : offsetOf l = some base) (lo : base.toNat ≤ off.toNat)
    (hi : off.toNat < base.toNat + 4) : locate off = l := by
  cases l with
  | reserved => cases h
  | key i =>
    have e := toNat_of_ofNat_eq_some h (by omega)
    exact locate_key i (by omega) (by omega)
  | din i =>
    have e := toNat_of_ofNat_eq_some h (by omega)
    exact locate_din i (by omega) (by omega)
  | dout i =>
    have e := toNat_of_ofNat_eq_some h (by omega)
    exact locate_dout i (by omega) (by omega)
  | ks i =>
    have e := toNat_of_ofNat_eq_some h (by omega)
    exact locate_ks i (by omega) (by omega)
  | buf j =>
    have e := toNat_of_ofNat_eq_some h (by omega)
    exact locate_buf j (by omega) (by omega)
  | big r i =>
    have hr := bigRegIndex_lt r
    have e := toNat_of_ofNat_eq_some h (by omega)
    exact locate_big r i (by omega) (by omega)
  | id => cases h; exact locate_control 0 (by decide) lo hi
  | cfg => cases h; exact locate_control 1 (by decide) lo hi
  | ctrl => cases h; exact locate_control 2 (by decide) lo hi
  | cmd => cases h; exact locate_control 3 (by decide) lo hi
  | status => cases h; exact locate_control 4 (by decide) lo hi
  | keyBytes => cases h; exact locate_control 5 (by decide) lo hi
  | dataLen => cases h; exact locate_control 6 (by decide) lo hi
  | nr => cases h; exact locate_control 7 (by decide) lo hi
  | mrRounds => cases h; exact locate_control 8 (by decide) lo hi
  | rsaBits => cases h; exact locate_control 9 (by decide) lo hi

/-- Outside the gaps an offset lies in the word of some location. -/
theorem exists_offsetOf (h : ¬ reservedOffset off.toNat) :
    ∃ l a, offsetOf l = some (BitVec.ofNat 16 a) ∧ a ≤ off.toNat ∧ off.toNat < a + 4 := by
  unfold reservedOffset at h
  by_cases hc : off.toNat < 0x28
  · exact ⟨controlLoc (off.toNat / 4), _, offsetOf_controlLoc (by omega), by omega, by omega⟩
  by_cases hk : off.toNat < 0x60
  · exact ⟨.key ⟨(off.toNat - 0x40) / 4, by omega⟩, _, rfl, by simp only; omega, by simp only; omega⟩
  by_cases hdi : off.toNat < 0x70
  · exact ⟨.din ⟨(off.toNat - 0x60) / 4, by omega⟩, _, rfl, by simp only; omega, by simp only; omega⟩
  by_cases hdo : off.toNat < 0x80
  · exact ⟨.dout ⟨(off.toNat - 0x70) / 4, by omega⟩, _, rfl, by simp only; omega, by simp only; omega⟩
  by_cases hks : off.toNat < 0x1F0
  · exact ⟨.ks ⟨(off.toNat - 0x100) / 4, by omega⟩, _, rfl, by simp only; omega, by simp only; omega⟩
  by_cases hb : off.toNat < 0x2000
  · obtain ⟨r, hr⟩ := exists_bigRegIndex (k := (off.toNat - 0x1000) / 0x200) (by omega)
    exact ⟨.big r ⟨off.toNat % 0x200 / 4, by omega⟩, _, rfl, by simp only; omega, by simp only; omega⟩
  · exact ⟨.buf ⟨(off.toNat - 0x4000) / 4, by omega⟩, _, rfl, by simp only; omega, by simp only; omega⟩

theorem locate_eq_reserved_iff : locate off = .reserved ↔ reservedOffset off.toNat := by
  refine ⟨fun h => ?_, locate_of_reservedOffset⟩
  by_contra hn
  obtain ⟨l, a, ha, lo, hi⟩ := exists_offsetOf hn
  have hlt := off.isLt
  have hl : locate off = l :=
    locate_of_offsetOf ha (by rw [BitVec.toNat_ofNat]; omega) (by rw [BitVec.toNat_ofNat]; omega)
  rw [← hl, h] at ha
  cases ha

theorem offsetOf_locate (h : offsetAligned off = true) (hn : locate off ≠ .reserved) :
    offsetOf (locate off) = some off := by
  obtain ⟨l, a, ha, lo, hi⟩ := exists_offsetOf (mt locate_of_reservedOffset hn)
  have h4 := offsetAligned_iff.mp (offsetAligned_of_offsetOf ha)
  rw [offsetAligned_iff] at h
  rw [BitVec.toNat_ofNat] at h4
  obtain rfl : a = off.toNat := by omega
  rw [BitVec.ofNat_toNat, BitVec.setWidth_eq] at ha
  rw [locate_of_offsetOf ha le_rfl (by omega), ha]

end

/-- Settles O3: the offsets by their values, the two directions by the words of the map. -/
theorem offsetsAndLocationsAgree : Obligations.OffsetsAndLocationsAgree := by
  refine ⟨fun p addr h h' => ⟨_, decodeAddr_of_mem h h', ?_⟩, fun p addr => decodeAddr_of_not_mem,
    ⟨rfl, rfl, rfl, rfl, rfl, rfl, rfl, rfl, rfl, rfl⟩, fun i => rfl, fun i => ⟨rfl, rfl⟩, fun i => rfl,
    fun i rb hrb => ?_, fun j => rfl, fun l off h => ⟨?_, offsetAligned_of_offsetOf h⟩, fun off => offsetOf_locate,
    fun off => locate_eq_reserved_iff⟩
  · rw [BitVec.toNat_ofNat]
    omega
  · simp only [List.mem_cons, List.not_mem_nil, or_false] at hrb
    rcases hrb with rfl | rfl | rfl | rfl | rfl | rfl | rfl | rfl <;> rfl
  · exact locate_of_offsetOf h le_rfl (by omega)

end Sys2Proof.Machine
end

section
/-! SUPPORT. What a host access does at each kind of place (20 R77, R78, R80; 40 R137). -/

namespace Sys2Proof.Machine

theorem accessWellFormed_iff_lanes {off : Offset} {lanes : BitVec 4} :
    accessWellFormed off lanes = true ↔ off.extractLsb' 0 2 = 0#2 ∧ lanes = 0xF#4 := by
  rw [accessWellFormed_iff, offsetAligned, beq_iff_eq]

section
variable (s : State)

theorem step_of_nextRead {off : Offset} {ts : List Turn} (h : s.nextAccess off .read ts) :
    step s = .next ((s.setTurns ts).load (locate off)) := step_of_nextAccess s h

theorem step_of_nextWrite {off : Offset} {w : Word} {ts : List Turn} (h : s.nextAccess off (.write w) ts) :
    step s = .next (((s.setTurns ts).store (locate off) w).respond (some ⟨false, 0#32⟩)) := step_of_nextAccess s h

/-- A read answers without BERR and changes the answer and the counter of free values alone (20 R80). -/
theorem State.load_eq (l : Loc) :
    ∃ data, s.load l = { s with response := some ⟨false, data⟩, fresh := (s.load l).fresh } := by
  obtain ⟨-, e⟩ | ⟨-, e⟩ := s.load_cases l <;> rw [e] <;> exact ⟨_, rfl⟩

/-- While the location is in no running command's write set, a read answers its current value (40 R138). -/
theorem State.load_of_not_readsFree {l : Loc} (h : s.readsFree l = false) :
    s.load l = s.respond (some ⟨false, s.locWord l⟩) := by
  obtain ⟨-, e⟩ | ⟨hf, -⟩ := s.load_cases l
  · exact e
  · rw [h] at hf; cases hf

/-- No command writes a reserved place (30 R104). -/
theorem State.readsFree_reserved : s.readsFree .reserved = false := by
  cases hp : s.phase with
  | idle => exact s.readsFree_of_idle hp _
  | busy op =>
    rw [s.readsFree_of_busy hp, Bool.eq_false_iff, ne_eq, s.inWriteSet_iff]
    cases op with
    | instr i => exact fun h => h.1
    | badCmd => exact id

theorem State.store_reserved (w : Word) : s.store .reserved w = s := by
  unfold State.store
  split <;> rfl

/-- A write while BUSY, by the place it goes to (40 R137). -/
theorem State.storeBusy_eq (l : Loc) (w : Word) :
    s.storeBusy l w =
      if l = .ctrl then s.setCtrl w else if l = .status then s.clearFlags w
      else if l = .reserved then s else s.dropWrite := by
  obtain ⟨rfl, e⟩ | ⟨rfl, e⟩ | ⟨rfl, e⟩ | ⟨hc, hs, hr, e⟩ := s.storeBusy_cases l w
  · rw [e, if_pos rfl]
  · rw [e, if_neg nofun, if_pos rfl]
  · rw [e, if_neg nofun, if_neg nofun, if_pos rfl]
  · rw [e, if_neg hc, if_neg hs, if_neg hr]

end

/-- Settles O10, by what a host access can do. -/
theorem onlyWholeAlignedAccessesAreServed : Obligations.OnlyWholeAlignedAccessesAreServed := by
  intro s a off hd
  rw [← accessWellFormed_iff_lanes, ← not_and_or, ← accessWellFormed_iff_lanes, Bool.not_eq_true]
  obtain ⟨hn, -⟩ | ⟨off', hd', hacc⟩ := s.hostAccess_cases a
  · rw [hd] at hn; cases hn
  obtain rfl : off = off' := Option.some.inj (hd.symm.trans hd')
  obtain ⟨hw, e⟩ | ⟨hw, -, e⟩ | ⟨hw, w, -, e⟩ := hacc <;> rw [hw, e]
  · exact ⟨fun _ => rfl, nofun⟩
  · obtain ⟨data, hl⟩ := s.load_eq (locate off)
    exact ⟨nofun, fun _ => ⟨data, by rw [hl]⟩⟩
  · exact ⟨nofun, fun _ => ⟨_, rfl⟩⟩

/-- Settles O11, by what a read can do. -/
theorem readsHaveNoSideEffect : Obligations.ReadsHaveNoSideEffect := by
  intro s off ts h
  rw [step_of_nextRead s h]
  refine ⟨⟨_, rfl, ?_⟩, fun hi => ?_⟩
  · obtain ⟨data, hl⟩ := (s.setTurns ts).load_eq (locate off)
    rw [hl]
    rfl
  · have hf : (s.setTurns ts).readsFree (locate off) = false := State.readsFree_of_idle _ hi _
    rw [State.load_of_not_readsFree _ hf, State.locWord_setTurns]
    rfl

/-- Settles O12: a reserved place reads its word, which is 0, and stores nothing; a word without storage is in no write
set, so it too reads its word. -/
theorem reservedOffsetsReadZeroIgnoreWrites : Obligations.ReservedOffsetsReadZeroIgnoreWrites := by
  intro s off w ts
  refine ⟨fun hl => ⟨fun h => ?_, fun h => ?_⟩, fun hl h => ?_⟩
  · rw [step_of_nextRead s h, hl, State.load_of_not_readsFree _ (State.readsFree_reserved _)]
    rfl
  · rw [step_of_nextWrite s h, hl, State.store_reserved]
    rfl
  · rw [step_of_nextRead s h]
    obtain ⟨r, i, hl, hi⟩ | ⟨j, hl, hj⟩ := hl <;> rw [hl]
    · rw [State.load_big_of_not (s.setTurns ts) (Nat.not_lt.mpr hi)]
      rfl
    · rw [State.load_buf_of_not (s.setTurns ts) (Nat.not_le.mpr hj)]
      rfl

/-- Settles O14, by the place the write goes to. -/
theorem busyWritesAreDropped : Obligations.BusyWritesAreDropped := by
  intro s op off w ts hp h
  have hp' : (s.setTurns ts).phase = .busy op := hp
  rw [step_of_nextWrite s h, State.store_of_busy _ hp', State.storeBusy_eq]
  split_ifs <;> rfl

end Sys2Proof.Machine
end

section
/-! SUPPORT. What each location reads (10 R22 to R37, 20 R70, R73): the fields of the packed words, and the bytes of the
key string. -/

namespace Sys2Proof.Machine

section
variable (s : State)

theorem State.isBusy_iff : s.isBusy = true ↔ s.phase ≠ .idle := by
  cases hp : s.phase with
  | idle => simp [s.isBusy_of_idle hp]
  | busy op => simp [s.isBusy_of_busy hp]

theorem getLsbD_append_ofBool_zero {n : Nat} (x : BitVec n) (b : Bool) : (x ++ BitVec.ofBool b).getLsbD 0 = b := by
  rw [BitVec.getLsbD_append, if_pos (by decide)]
  cases b <;> rfl

theorem getLsbD_append_ofBool_succ {n : Nat} (x : BitVec n) (b : Bool) (i : Nat) :
    (x ++ BitVec.ofBool b).getLsbD (i + 1) = x.getLsbD i := by
  rw [BitVec.getLsbD_append, if_neg (by omega), Nat.add_sub_cancel]

/-- The flags of STATUS are its bits 0 to 4 (10 R26). -/
theorem State.statusWord_flags :
    s.statusWord.getLsbD 0 = s.isBusy ∧ s.statusWord.getLsbD 1 = s.done ∧ s.statusWord.getLsbD 2 = s.ksValid ∧
    s.statusWord.getLsbD 3 = s.result ∧ s.statusWord.getLsbD 4 = s.werr := by
  unfold State.statusWord
  refine ⟨?_, ?_, ?_, ?_, ?_⟩
  · exact getLsbD_append_ofBool_zero _ _
  · rw [getLsbD_append_ofBool_succ, getLsbD_append_ofBool_zero]
  · iterate 2 rw [getLsbD_append_ofBool_succ]
    exact getLsbD_append_ofBool_zero _ _
  · iterate 3 rw [getLsbD_append_ofBool_succ]
    exact getLsbD_append_ofBool_zero _ _
  · iterate 4 rw [getLsbD_append_ofBool_succ]
    exact getLsbD_append_ofBool_zero _ _

/-- The fields of STATUS above its flags, reserved bits 0 (10 R26). -/
theorem State.statusWord_fields :
    s.statusWord.extractLsb' 5 3 = 0#3 ∧ s.statusWord.extractLsb' 8 4 = errBits s.err ∧
    s.statusWord.extractLsb' 12 4 = 0#4 ∧ s.statusWord.extractLsb' 16 8 = s.lastCmd ∧
    s.statusWord.extractLsb' 24 8 = 0#8 := by
  unfold State.statusWord
  refine ⟨?_, ?_, ?_, ?_, ?_⟩
  · iterate 5 rw [BitVec.extractLsb'_append_eq_of_le (by decide)]
    rw [BitVec.extractLsb'_append_eq_of_add_le (by decide), BitVec.extractLsb'_eq_self]
  · iterate 6 rw [BitVec.extractLsb'_append_eq_of_le (by decide)]
    rw [BitVec.extractLsb'_append_eq_of_add_le (by decide), BitVec.extractLsb'_eq_self]
  · iterate 7 rw [BitVec.extractLsb'_append_eq_of_le (by decide)]
    rw [BitVec.extractLsb'_append_eq_of_add_le (by decide), BitVec.extractLsb'_eq_self]
  · iterate 8 rw [BitVec.extractLsb'_append_eq_of_le (by decide)]
    rw [BitVec.extractLsb'_append_eq_of_add_le (by decide), BitVec.extractLsb'_eq_self]
  · iterate 9 rw [BitVec.extractLsb'_append_eq_of_le (by decide)]
    exact BitVec.extractLsb'_eq_self

theorem State.ctrlWord_fields : s.ctrlWord.getLsbD 0 = s.irqEn ∧ s.ctrlWord.extractLsb' 1 31 = 0#31 := by
  refine ⟨getLsbD_append_ofBool_zero _ _, ?_⟩
  rw [State.ctrlWord, BitVec.extractLsb'_append_eq_of_le (by decide), BitVec.extractLsb'_eq_self]

theorem State.cfgWord_fields :
    s.cfgWord.extractLsb' 0 16 = BitVec.ofNat 16 (s.params.bufBytes / 16) ∧
    s.cfgWord.extractLsb' 16 16 = BitVec.ofNat 16 (s.params.rsaMaxBits / 32) := by
  rw [State.cfgWord, BitVec.extractLsb'_append_eq_of_add_le (by decide), BitVec.extractLsb'_append_eq_of_le (by decide),
    BitVec.extractLsb'_eq_self, BitVec.extractLsb'_eq_self]
  exact ⟨rfl, rfl⟩

theorem State.toNat_nrWord : s.nrWord.toNat = if s.ksValid then s.nr.toNat else 0 := by
  unfold State.nrWord
  split
  · rw [BitVec.toNat_append, BitVec.toNat_ofNat, Nat.zero_mod, Nat.zero_shiftLeft, Nat.zero_or]
  · rfl

theorem State.toNat_locWord_big (r : BigReg) (i : Fin 128) :
    (s.locWord (.big r i)).toNat =
      if i.val < s.params.rsaMaxBits / 32 then s.getBig r / 2 ^ (32 * i.val) % 2 ^ 32 else 0 := by
  rw [State.locWord]
  by_cases h : i.val < s.params.rsaMaxBits / 32
  · rw [if_pos h, if_pos (show hasBigWord s.params i.val from h)]
    exact BitVec.toNat_ofNat _ _
  · rw [if_neg h, if_neg (show ¬ hasBigWord s.params i.val from h)]
    rfl

/-- Byte i of the key registers is byte i mod 4 of word i / 4 (10 R30). -/
theorem getD_flatMap_wordBytes (l : List Word) (i : Nat) :
    (l.flatMap wordBytes).getD i 0#8 = wordByte (l.getD (i / 4) 0#32) (i % 4) := by
  induction l generalizing i with
  | nil => simp [wordByte]
  | cons w l ih =>
    rw [List.flatMap_cons]
    by_cases hi : i < 4
    · rw [Nat.div_eq_of_lt hi, Nat.mod_eq_of_lt hi]
      interval_cases i <;> rfl
    · obtain ⟨j, rfl⟩ : ∃ j, i = j + 4 := ⟨i - 4, by omega⟩
      rw [List.getD_append_right _ _ _ _ (by simp), length_wordBytes, Nat.add_sub_cancel, ih,
        Nat.add_div_right _ (by decide), Nat.add_mod_right, List.getD_cons_succ]

theorem State.getD_keyString {i : Nat} (h : i < s.keyBytes.toNat) :
    s.keyString.getD i 0#8 = wordByte (s.key.toList.getD (i / 4) 0#32) (i % 4) := by
  rw [← getD_flatMap_wordBytes, State.keyString, List.getD, List.getD, List.getElem?_take_of_lt h]

end

/-- Settles O16, location by location. -/
theorem locationsReadWhatTheirRulesSay : Obligations.LocationsReadWhatTheirRulesSay := by
  intro s
  refine ⟨?_, s.ctrlWord_fields, s.cfgWord_fields, ⟨rfl, rfl, rfl, rfl, rfl, rfl, rfl, rfl⟩, ⟨rfl, rfl, rfl⟩, ?_,
    s.toNat_nrWord, fun i => rfl, fun i => rfl, ⟨rfl, rfl, rfl, rfl⟩, ⟨rfl, rfl, rfl, rfl⟩,
    ⟨rfl, rfl, rfl, rfl, rfl, rfl, rfl, rfl⟩, s.toNat_locWord_big, fun j => rfl, fun i h _ => ?_⟩
  · rintro w rfl
    obtain ⟨busy, done, ksValid, result, werr⟩ := s.statusWord_flags
    exact ⟨by rw [← s.isBusy_iff]; exact Eq.congr_left busy, done, ksValid, result, werr, s.statusWord_fields⟩
  · exact ⟨BitVec.toNat_setWidth_of_le (by decide), BitVec.toNat_setWidth_of_le (by decide),
      BitVec.toNat_setWidth_of_le (by decide), BitVec.toNat_setWidth_of_le (by decide)⟩
  · rw [s.getD_keyString h, wordByte, show 24 - 8 * (i % 4) = 8 * (3 - i % 4) by omega]

end Sys2Proof.Machine
end

section
/-! SUPPORT. What a host write does while the engine is IDLE (10 R22 to R37, R41; 20 R70, R80): the word read back, the
locations kept, and the schedule tag. -/

namespace Sys2Proof.Machine

/-! Words under a mask. -/

theorem and_full (w : Word) : w &&& 0xFFFFFFFF#32 = w := BitVec.and_allOnes

/-- Narrowing a word and widening it again keeps its low bits. -/
theorem setWidth_setWidth_eq_and (w : Word) {k : Nat} {mask : Word} (h : ∀ i < 32, mask.getLsbD i = decide (i < k)) :
    (w.setWidth k).setWidth 32 = w &&& mask := by
  apply BitVec.eq_of_getLsbD_eq
  intro i hi
  simp only [BitVec.getLsbD_setWidth, BitVec.getLsbD_and, h i hi, hi, decide_true, Bool.true_and]
  exact Bool.and_comm _ _

theorem append_ofBool_eq_and_one (w : Word) : 0#31 ++ BitVec.ofBool (w.getLsbD 0) = w &&& 1#32 := by
  rw [BitVec.and_one_eq_setWidth_ofBool_getLsbD]
  cases w.getLsbD 0 <;> rfl

theorem blockCol_setBlockCol (b : Block) (i j : Fin 4) (w : Word) :
    blockCol (setBlockCol b i.val w) j.val = if j = i then w else blockCol b j.val := by
  fin_cases i <;> fin_cases j <;> rfl

section
variable (s : State)

/-- MemRead of what MemWrite wrote (00 R10). -/
theorem State.memRead_memWrite_same (a : Nat) (bs : List Byte) : (s.memWrite a bs).memRead a bs.length = bs := by
  apply List.ext_getElem (State.length_memRead _ _ _)
  intro i _ hi
  rw [State.getElem_memRead, State.readByte_memWrite, if_pos (by omega), Nat.add_sub_cancel_left,
    List.getD_eq_getElem _ _ hi]

theorem State.memRead_memWrite_disjoint {a a' n : Nat} {bs : List Byte} (h : a' + n ≤ a ∨ a + bs.length ≤ a') :
    (s.memWrite a bs).memRead a' n = s.memRead a' n :=
  State.memRead_congr fun i hi => by rw [State.readByte_memWrite, if_neg (by omega)]

/-- The one bit of STATUS that KS_VALID shows in (10 R26). -/
theorem State.statusWord_clearKsValid : s.clearKsValid.statusWord = s.statusWord &&& 0xFFFFFFFB#32 := by
  have mask : 0xFFFFFFFB#32 = BitVec.allOnes 8 ++ BitVec.allOnes 8 ++ BitVec.allOnes 4 ++ BitVec.allOnes 4 ++
      BitVec.allOnes 3 ++ BitVec.allOnes 1 ++ BitVec.allOnes 1 ++ 0#1 ++ BitVec.allOnes 1 ++ BitVec.allOnes 1 := rfl
  rw [mask]
  unfold State.statusWord
  iterate 9 rw [BitVec.and_append]
  simp only [BitVec.and_allOnes, BitVec.and_zero]
  rfl

/-! A write to a read-write location. -/

variable {l : Loc} {mask : Word} (w : Word)

/-- It changes the host-written registers and KS_VALID at most. -/
theorem State.storeIdle_eq (h : writeMask s.params l = some mask) :
    s.storeIdle l w = { s with
      irqEn := (s.storeIdle l w).irqEn, keyBytes := (s.storeIdle l w).keyBytes, dataLen := (s.storeIdle l w).dataLen,
      mrRounds := (s.storeIdle l w).mrRounds, rsaBits := (s.storeIdle l w).rsaBits, key := (s.storeIdle l w).key,
      din := (s.storeIdle l w).din, big := (s.storeIdle l w).big, buf := (s.storeIdle l w).buf,
      ksValid := (s.storeIdle l w).ksValid } := by
  cases l with
  | big | buf => simp only [State.storeIdle]; split <;> rfl
  | id | cfg | cmd | status | nr | dout | ks | reserved => cases h
  | _ => rfl

/-- The word reads back under the location's mask. -/
theorem State.locWord_storeIdle_same (hv : s.params.valid = true) (h : writeMask s.params l = some mask) :
    (s.storeIdle l w).locWord l = w &&& mask := by
  cases l with
  | id | cfg | cmd | status | nr | dout | ks | reserved => cases h
  | ctrl => cases h; exact append_ofBool_eq_and_one w
  | keyBytes | mrRounds => cases h; exact setWidth_setWidth_eq_and w (k := 8) (by decide)
  | dataLen | rsaBits => cases h; exact setWidth_setWidth_eq_and w (k := 16) (by decide)
  | key i =>
    cases h
    rw [and_full]
    exact Vector.getElem_set_self i.isLt
  | din i =>
    cases h
    rw [and_full]
    exact (blockCol_setBlockCol _ _ _ _).trans (if_pos rfl)
  | big r i =>
    obtain rfl := Option.some.inj h
    by_cases hi : hasBigWord s.params i.val
    · have hi' : i.val < s.params.rsaMaxBits / 32 := hi
      simp only [State.storeIdle, State.locWord, State.getBig, BigRegs.get_set, if_pos hi, if_pos hi', if_true,
        bigWord_setBigWord_same, and_full]
    · have hi' : ¬ i.val < s.params.rsaMaxBits / 32 := hi
      simp only [State.storeIdle, State.locWord, if_neg hi, if_neg hi', BitVec.and_zero]
  | buf j =>
    obtain rfl := Option.some.inj h
    simp only [Params.valid, Params.bufBytesValid, Bool.and_eq_true, decide_eq_true_eq, beq_iff_eq] at hv
    by_cases hj : hasBufWord s.params j.val
    · have hj' : 4 * j.val < s.params.bufBytes := by omega
      have hr : (s.memWrite (4 * j.val) (wordBytes w)).memRead (4 * j.val) 4 = wordBytes w :=
        s.memRead_memWrite_same _ _
      simp only [State.storeIdle, State.locWord, State.memWrite_params, if_pos hj, if_pos hj', hr,
        wordOfBytes_wordBytes, and_full]
    · have hj' : ¬ 4 * j.val < s.params.bufBytes := by omega
      simp only [State.storeIdle, State.locWord, if_neg hj, if_neg hj', BitVec.and_zero]

/-- Every other location but STATUS and NR keeps its word. -/
theorem State.locWord_storeIdle_ne (h : writeMask s.params l = some mask) {l' : Loc} (hne : l' ≠ l)
    (hs : l' ≠ .status) (hn : l' ≠ .nr) : (s.storeIdle l w).locWord l' = s.locWord l' := by
  cases l with
  | id | cfg | cmd | status | nr | dout | ks | reserved => cases h
  | ctrl | keyBytes | dataLen | mrRounds | rsaBits =>
    -- `l'` is `l`, STATUS or NR, which the hypotheses exclude, or reads no field that the write changes
    cases l' <;> first | contradiction | rfl
  | key i =>
    cases l' with
    | status | nr => contradiction
    | key j => exact Vector.getElem_set_ne i.isLt j.isLt fun e => hne (congrArg Loc.key (Fin.ext e.symm))
    | _ => rfl
  | din i =>
    cases l' with
    | status | nr => contradiction
    | din j => exact (blockCol_setBlockCol _ _ _ _).trans (if_neg fun e => hne (congrArg Loc.din e))
    | _ => rfl
  | big r i =>
    simp only [State.storeIdle]
    split
    · cases l' with
      | status | nr => contradiction
      | big r' j =>
        simp only [State.locWord, State.getBig, BigRegs.get_set]
        split_ifs with hj hr
        · subst hr
          exact bigWord_setBigWord_ne _ w fun e => hne (congrArg (Loc.big r') (Fin.ext e))
        · rfl
        · rfl
      | _ => rfl
    · rfl
  | buf j =>
    simp only [State.storeIdle]
    split
    · cases l' with
      | status | nr => contradiction
      | buf k =>
        have hkj : k.val ≠ j.val := fun e => hne (congrArg Loc.buf (Fin.ext e))
        have hr : (s.memWrite (4 * j.val) (wordBytes w)).memRead (4 * k.val) 4 = s.memRead (4 * k.val) 4 :=
          s.memRead_memWrite_disjoint (by rw [length_wordBytes]; omega)
        simp only [State.locWord, State.memWrite_params, hr]
      | _ => rfl
    · rfl

/-- A key write clears KS_VALID: in STATUS that bit alone changes, and NR reads 0 (10 R41). -/
theorem State.storeIdle_of_key (h : l = .keyBytes ∨ ∃ i, l = .key i) :
    (s.storeIdle l w).ksValid = false ∧ (s.storeIdle l w).locWord .status = s.locWord .status &&& 0xFFFFFFFB#32 ∧
      (s.storeIdle l w).locWord .nr = 0#32 := by
  obtain rfl | ⟨i, rfl⟩ := h <;> exact ⟨rfl, s.statusWord_clearKsValid, rfl⟩

/-- Any other write keeps KS_VALID, STATUS and NR. -/
theorem State.storeIdle_of_not_key (h : writeMask s.params l = some mask)
    (hk : ¬ (l = .keyBytes ∨ ∃ i, l = .key i)) :
    (s.storeIdle l w).ksValid = s.ksValid ∧ (s.storeIdle l w).locWord .status = s.locWord .status ∧
      (s.storeIdle l w).locWord .nr = s.locWord .nr := by
  cases l with
  | keyBytes => exact absurd (.inl rfl) hk
  | key i => exact absurd (.inr ⟨i, rfl⟩) hk
  | id | cfg | cmd | status | nr | dout | ks | reserved => cases h
  | big | buf => simp only [State.storeIdle]; split <;> exact ⟨rfl, rfl, rfl⟩
  | _ => exact ⟨rfl, rfl, rfl⟩

/-- A read-only location ignores it. -/
theorem State.storeIdle_readOnly (h : l = .id ∨ l = .cfg ∨ l = .nr ∨ (∃ i, l = .dout i) ∨ ∃ i, l = .ks i) :
    s.storeIdle l w = s := by
  obtain rfl | rfl | rfl | ⟨i, rfl⟩ | ⟨i, rfl⟩ := h <;> rfl

end

theorem step_of_nextWrite_idle {s : State} {off : Offset} {w : Word} {ts : List Turn} (hi : s.phase = .idle)
    (h : s.nextAccess off (.write w) ts) :
    step s = .next (((s.setTurns ts).storeIdle (locate off) w).respond (some ⟨false, 0#32⟩)) := by
  rw [step_of_nextWrite s h, State.store_of_idle (s.setTurns ts) hi]

/-- Settles O13, kind of location by kind of location. -/
theorem idleWritesStoreAndKeepTheRest : Obligations.IdleWritesStoreAndKeepTheRest := by
  rintro s off w ts l hv hi h rfl
  rw [step_of_nextWrite_idle hi h]
  refine ⟨fun mask hm => ⟨_, rfl, ?_, ?_, ?_, ?_, ?_⟩, fun hl => ?_, fun hl => ?_⟩
  · exact congrArg (State.respond · _) (State.storeIdle_eq (s.setTurns ts) w hm)
  · rw [State.locWord_respond]
    exact State.locWord_storeIdle_same (s.setTurns ts) w hv hm
  · intro l' hne hs hn
    rw [State.locWord_respond, State.locWord_storeIdle_ne (s.setTurns ts) w hm hne hs hn, State.locWord_setTurns]
  · exact State.storeIdle_of_key (s.setTurns ts) w
  · exact State.storeIdle_of_not_key (s.setTurns ts) w hm
  · rw [hl]
    rfl
  · rw [State.storeIdle_readOnly (s.setTurns ts) w hl]
    rfl

end Sys2Proof.Machine
end

section
/-! SUPPORT. Command words (30 R101 to R105): a word with RSV = 0 is its OP, the opcode map gives each command its own
OP, and an OP the map gives no command is one of the reserved ones. -/

namespace Sys2Proof

@[simp] theorem decode_encode (i : Instr) : decode (encode i) = .ok i := by cases i <;> rfl

theorem toNat_encode (i : Instr) : (encode i).toNat = (opcode i).toNat := by cases i <;> rfl

section
variable {w : Word}

theorem rsv_eq_zero_iff : w.extractLsb' 8 24 = 0#24 ↔ w.toNat < 0x100 := by
  have hw : w.toNat < 2 ^ 32 := w.isLt
  simp only [← BitVec.toNat_inj, BitVec.extractLsb'_toNat, Nat.shiftRight_eq_div_pow, BitVec.toNat_ofNat]
  omega

theorem toNat_op (h : w.extractLsb' 8 24 = 0#24) : (w.extractLsb' 0 8).toNat = w.toNat := by
  rw [BitVec.extractLsb'_toNat, Nat.shiftRight_zero, Nat.mod_eq_of_lt (rsv_eq_zero_iff.mp h)]

theorem decode_of_rsv (h : w.extractLsb' 8 24 = 0#24) : decode w = decodeOp (w.extractLsb' 0 8) := if_pos h

theorem decode_of_rsv_ne (h : w.extractLsb' 8 24 ≠ 0#24) : decode w = .error .rsvNotZero := if_neg h

/-- A command has one word: RSV = 0 and the OP that decodes to it. -/
theorem eq_encode_of_decode {i : Instr} (h : decode w = .ok i) : w = encode i := by
  by_cases hr : w.extractLsb' 8 24 = 0#24
  · rw [decode_of_rsv hr] at h
    have hop : w.extractLsb' 0 8 = opcode i := Machine.opcode_of_decodeOp h
    apply BitVec.eq_of_toNat_eq
    rw [← toNat_op hr, hop, toNat_encode]
  · rw [decode_of_rsv_ne hr] at h
    cases h

/-- The opcode map leaves out the reserved OPs alone (30 R105). -/
theorem decodeOp_eq_error_iff {op : Byte} :
    (∃ e, decodeOp op = .error e) ↔ (0x0A ≤ op.toNat ∧ op.toNat ≤ 0x0F) ∨ 0x18 ≤ op.toNat := by
  unfold decodeOp
  split
  case h_19 => -- no row of the map
    simp only [imp_false] at *
    simp only [Except.error.injEq, exists_eq', true_iff]
    omega
  all_goals
    simp only [reduceCtorEq, exists_false, false_iff]
    omega

theorem decodeCommand_eq_badCmd_iff_error : decodeCommand w = .badCmd ↔ ∃ e, decode w = .error e := by
  unfold decodeCommand
  cases decode w <;> simp

theorem decodeCommand_eq_badCmd_iff : decodeCommand w = .badCmd ↔
    w.extractLsb' 8 24 ≠ 0#24 ∨ (0x0A ≤ w.toNat ∧ w.toNat ≤ 0x0F) ∨ 0x18 ≤ w.toNat := by
  rw [decodeCommand_eq_badCmd_iff_error]
  by_cases hr : w.extractLsb' 8 24 = 0#24
  · rw [decode_of_rsv hr, decodeOp_eq_error_iff, toNat_op hr]
    exact (or_iff_right (not_not.mpr hr)).symm
  · rw [decode_of_rsv_ne hr]
    exact iff_of_true ⟨_, rfl⟩ (.inl hr)

end

/-- Settles O2: a word that decodes to a command is its OP alone, and the words left over are the reserved ones. -/
theorem decodeAndEncodeAgree : Obligations.DecodeAndEncodeAgree :=
  ⟨decode_encode, fun _ _ => eq_encode_of_decode, fun _ => decodeCommand_eq_badCmd_iff⟩

/-- Settles O1: words of commands by `decode_encode`, the reserved words by their RSV or OP. -/
theorem commandWordsDecodeAsTheMapSays : Obligations.CommandWordsDecodeAsTheMapSays := by
  refine ⟨by decide, by decide, rfl, rfl, decode_encode .nop, decode_encode .keyexp, decode_encode .unpad,
    decode_encode .encrypt, decode_encode .decrypt, decode_encode .primetest, decode_encode .keygen,
    decode_encode .unwrapkey, ?_, ?_, ?_, ?_, ?_⟩ <;>
  exact decodeCommand_eq_badCmd_iff.mpr (by decide)

end Sys2Proof
end

section
/-! SUPPORT. Reads while BUSY (40 R138). -/

namespace Sys2Proof.Machine

/-- In the running command's write set a read answers a free value. -/
theorem State.load_of_readsFree (s : State) {l : Loc} (h : s.readsFree l = true) : s.load l = s.respondFree := by
  obtain ⟨hf, -⟩ | ⟨-, e⟩ := s.load_cases l
  · rw [h] at hf; cases hf
  · exact e

/-- Settles O15, by what a read can do and the write set `State.inWriteSet_iff` names. -/
theorem busyReadsOfTheWriteSetAreFree : Obligations.BusyReadsOfTheWriteSetAreFree := by
  intro s op off ts hp h
  have hfree : (s.setTurns ts).readsFree (locate off) = true ↔ s.writing op (locate off) := by
    rw [State.readsFree_setTurns, s.readsFree_of_busy hp, s.inWriteSet_iff]
  rw [step_of_nextRead s h, ← hfree, Bool.not_eq_true]
  refine ⟨fun hf => ?_, fun hf => ?_⟩
  · rw [State.load_of_readsFree _ hf]
    rfl
  · rw [State.load_of_not_readsFree _ hf, State.locWord_setTurns]
    rfl

end Sys2Proof.Machine
end

section
/-! SUPPORT. What a command leaves unchanged (30 R104): each register is written by the commands of its row alone, and a
location's word is read from its register, so a location outside the write set keeps its word. -/

namespace Sys2Proof.Machine

section
variable (s : State)

theorem State.getBig_setBig_ne {r r' : BigReg} (v : Nat) (h : r' ≠ r) : (s.setBig r v).getBig r' = s.getBig r' :=
  (s.big.get_set r r' _).trans (if_neg h)

@[simp] theorem State.scheduled_dout : s.scheduled.dout = s.dout := by rw [s.scheduled_eq]

@[simp] theorem State.mapBlocks_ksValid (f : Block → Block) (n : Nat) : (s.mapBlocks f n).ksValid = s.ksValid := by
  rw [s.mapBlocks_eq]
@[simp] theorem State.mapBlocks_nr (f : Block → Block) (n : Nat) : (s.mapBlocks f n).nr = s.nr := by
  rw [s.mapBlocks_eq]
@[simp] theorem State.mapBlocks_ks (f : Block → Block) (n : Nat) : (s.mapBlocks f n).ks = s.ks := by
  rw [s.mapBlocks_eq]
@[simp] theorem State.mapBlocks_key (f : Block → Block) (n : Nat) : (s.mapBlocks f n).key = s.key := by
  rw [s.mapBlocks_eq]
@[simp] theorem State.mapBlocks_dout (f : Block → Block) (n : Nat) : (s.mapBlocks f n).dout = s.dout := by
  rw [s.mapBlocks_eq]
@[simp] theorem State.mapBlocks_big (f : Block → Block) (n : Nat) : (s.mapBlocks f n).big = s.big := by
  rw [s.mapBlocks_eq]

@[simp] theorem finishPrimetest_ksValid (v : Bool × List Nat) : (finishPrimetest s v).ksValid = s.ksValid := rfl
@[simp] theorem finishPrimetest_dataLen (v : Bool × List Nat) : (finishPrimetest s v).dataLen = s.dataLen := rfl
@[simp] theorem finishPrimetest_nr (v : Bool × List Nat) : (finishPrimetest s v).nr = s.nr := rfl
@[simp] theorem finishPrimetest_key (v : Bool × List Nat) : (finishPrimetest s v).key = s.key := rfl
@[simp] theorem finishPrimetest_dout (v : Bool × List Nat) : (finishPrimetest s v).dout = s.dout := rfl
@[simp] theorem finishPrimetest_ks (v : Bool × List Nat) : (finishPrimetest s v).ks = s.ks := rfl
@[simp] theorem finishPrimetest_big (v : Bool × List Nat) : (finishPrimetest s v).big = s.big := rfl
@[simp] theorem finishPrimetest_buf (v : Bool × List Nat) : (finishPrimetest s v).buf = s.buf := rfl

end

/-- The commands that may expand the key (42 R200, R201). -/
def scheduleWriters : List Instr := [.keyexp, .encBlock, .decBlock, .ecbEnc, .ecbDec, .encrypt, .decrypt]

/-- The commands that write a big-number register. -/
def bigWriters : BigReg → List Instr
  | .x => [.genprime]
  | .y => [.modinv, .modexpPub, .modexpPriv, .wrapkey, .unwrapkey]
  | .n | .e | .d | .p | .q | .phi => [.keygen]

theorem writesOf_big_iff {p : Params} {i : Instr} {r : BigReg} {k : Fin 128} :
    writesOf p i (.big r k) ↔ hasBigWord p k.val ∧ i ∈ bigWriters r := by
  cases r <;> simp [writesOf, bigWriters, Params.rsaWords]

section
variable {i : Instr} {s t : State}

theorem ExecResult.dataLen_eq (h : ExecResult s i t) (hi : i ∉ [Instr.pad, .unpad, .encrypt, .decrypt, .wrapkey]) :
    t.dataLen = s.dataLen := by
  cases h
  case pad | unpad | encrypt | decrypt | wrapkey => exact absurd (by decide) hi
  all_goals simp

theorem ExecResult.dout_eq (h : ExecResult s i t) (hi : i ∉ [Instr.encBlock, .decBlock]) : t.dout = s.dout := by
  cases h
  case block mem => exact absurd mem hi
  all_goals simp

theorem ExecResult.key_eq (h : ExecResult s i t) (hi : i ≠ .unwrapkey) : t.key = s.key := by
  cases h
  case unwrapkey => exact absurd rfl hi
  all_goals simp

theorem ExecResult.buf_eq (h : ExecResult s i t)
    (hi : i ∉ [Instr.pad, .ecbEnc, .ecbDec, .encrypt, .decrypt, .wrapkey]) : t.buf = s.buf := by
  cases h
  case pad | encrypt | decryptPadding | decrypt | wrapkey => exact absurd (by decide) hi
  case ecb mem => exact absurd ((by decide : [Instr.ecbEnc, .ecbDec] ⊆ _) mem) hi
  all_goals simp

theorem ExecResult.getBig_eq (h : ExecResult s i t) {r : BigReg} (hi : i ∉ bigWriters r) :
    t.getBig r = s.getBig r := by
  cases h
  case genprime => exact State.getBig_setBig_ne s _ (by rintro rfl; exact hi (by decide))
  case toY mem => exact State.getBig_setBig_ne s _ (by rintro rfl; exact hi ((by decide : _ ⊆ bigWriters .y) mem))
  case wrapkey | unwrapkey => exact State.getBig_setBig_ne _ _ (by rintro rfl; exact hi (by decide))
  case keygen =>
    cases r with
    | x | y => rfl
    | _ => exact absurd (by decide) hi
  all_goals simp [State.getBig]

/-- Beside the commands that may expand the key, UNWRAPKEY alone acts on the schedule: it clears KS_VALID (10 R41). -/
theorem ExecResult.schedule_eq (h : ExecResult s i t) (hi : i ∉ scheduleWriters) :
    t.ks = s.ks ∧ t.nr = s.nr ∧ (i ≠ .unwrapkey → t.ksValid = s.ksValid) := by
  cases h
  case keyexpError | keyexp | encrypt | decryptPadding | decrypt => exact absurd (by decide) hi
  case aesKeylen mem | block mem | messageLength mem | ecb mem =>
    exact absurd ((by decide : _ ⊆ scheduleWriters) mem) hi
  case unwrapkey => exact ⟨rfl, rfl, fun hn => absurd rfl hn⟩
  all_goals simp

/-- A location outside the write set keeps its word: its register is not written, or the word has no storage. -/
theorem ExecResult.locWord_eq {l : Loc} (h : ExecResult s i t) (hl : l ≠ .status) (hw : ¬ writesOf s.params i l) :
    t.locWord l = s.locWord l := by
  obtain ⟨irqEn, -, -, din, keyBytes, mrRounds, rsaBits, params, epoch, -, -⟩ := ControlState.mk.inj h.control_eq
  cases l with
  | status => exact absurd rfl hl
  | id | cfg | cmd | reserved => exact State.locWord_congr params epoch trivial
  | ctrl => exact State.locWord_congr params epoch irqEn
  | keyBytes => exact State.locWord_congr params epoch keyBytes
  | mrRounds => exact State.locWord_congr params epoch mrRounds
  | rsaBits => exact State.locWord_congr params epoch rsaBits
  | din => exact State.locWord_congr params epoch din
  | dataLen => exact State.locWord_congr params epoch (h.dataLen_eq hw)
  | key => exact State.locWord_congr params epoch (h.key_eq hw)
  | dout => exact State.locWord_congr params epoch (h.dout_eq hw)
  | ks =>
    obtain ⟨ks, -⟩ := h.schedule_eq hw
    exact State.locWord_congr params epoch ks
  | nr =>
    have hw' : i ∉ scheduleWriters ++ [.unwrapkey] := hw
    rw [List.mem_append, not_or, List.mem_singleton] at hw'
    obtain ⟨hs, hn⟩ := hw'
    obtain ⟨-, nr, ksValid⟩ := h.schedule_eq hs
    exact State.locWord_congr params epoch ⟨ksValid hn, nr⟩
  | big r k =>
    by_cases hk : hasBigWord s.params k.val
    · exact State.locWord_congr params epoch (h.getBig_eq fun hi => hw (writesOf_big_iff.mpr ⟨hk, hi⟩))
    · simp only [State.locWord, params, if_neg hk]
  | buf j =>
    by_cases hj : hasBufWord s.params j.val
    · exact State.locWord_congr params epoch (h.buf_eq fun hi => hw ⟨hj, hi⟩)
    · simp only [State.locWord, params, if_neg hj]

end

/-- Settles O53, by the list of results `ExecResult` and, for each location, the register its word is read from. -/
theorem commandsWriteOnlyTheirWriteSets : Obligations.CommandsWriteOnlyTheirWriteSets :=
  fun _ _ _ _ h => (exec_result h).locWord_eq

end Sys2Proof.Machine
end

section
/-! SUPPORT. Control (40 R130 to R139): what acceptance, NOP and BADCMD do, and that every command answers a next state. -/

namespace Sys2Proof.Machine

/-- Settles O5: the write's location is CMD, which an idle block accepts. -/
theorem idleCommandWriteIsAccepted : Obligations.IdleCommandWriteIsAccepted := by
  intro s w ts hi h
  have hcmd : locate 0x00C#16 = .cmd := rfl
  rw [step_of_nextWrite_idle hi h, hcmd]
  rfl

theorem exec_nop (s : State) : exec .nop s = .next s.complete := rfl

/-- Settles O6: NOP's meaning is `State.complete` alone. -/
theorem nopOnlyCompletes : Obligations.NopOnlyCompletes := ⟨decode_encode .nop, exec_nop⟩

theorem engineTurn_of_badCmd {s : State} (h : s.phase = .busy .badCmd) : engineTurn s = .next (s.raise .badcmd) := by
  simp only [engineTurn, h, completeBadCmd]

/-- Settles O7: BADCMD's completion is `State.raise` alone. -/
theorem badcmdOnlyReportsItself : Obligations.BadcmdOnlyReportsItself := fun _ => engineTurn_of_badCmd

/-- No command stops the machine: each branch of each command's meaning is a next state. -/
theorem exec_eq_next (i : Instr) (s : State) : ∃ t, exec i s = .next t := by
  cases i with
  | nop | encBlock | decBlock | ecbEnc | ecbDec | encrypt | decrypt | modexpPub | modexpPriv => exact ⟨_, rfl⟩
  | keyexp => obtain ⟨_, e⟩ | ⟨_, e⟩ := execKeyexp_cases s <;> exact ⟨_, e⟩
  | pad => obtain ⟨_, e⟩ | ⟨_, e⟩ := execPad_cases s <;> exact ⟨_, e⟩
  | unpad => obtain ⟨_, e⟩ | ⟨_, _, e⟩ | ⟨_, _, _, _, e⟩ := execUnpad_cases s <;> exact ⟨_, e⟩
  | primetest => obtain ⟨_, e⟩ | ⟨_, _, _, e⟩ | ⟨_, _, _, _, e⟩ := execPrimetest_cases s <;> exact ⟨_, e⟩
  | genprime => obtain ⟨_, e⟩ | ⟨_, _, _, ⟨_, _, _, e⟩ | ⟨_, e⟩⟩ := execGenprime_cases s <;> exact ⟨_, e⟩
  | modinv => obtain ⟨_, e⟩ | ⟨_, ⟨_, e⟩ | ⟨_, _, e⟩⟩ := execModinv_cases s <;> exact ⟨_, e⟩
  | keygen =>
    obtain ⟨_, e⟩ | ⟨_, _, _, _, ⟨_, e⟩ | ⟨_, _, _, _, ⟨_, e⟩ | ⟨_, _, e⟩⟩⟩ := execKeygen_cases s <;> exact ⟨_, e⟩
  | wrapkey => obtain ⟨_, e⟩ | ⟨_, ⟨_, e⟩ | ⟨_, _, _, _, e⟩⟩ := execWrapkey_cases s <;> exact ⟨_, e⟩
  | unwrapkey =>
    obtain ⟨_, e⟩ | ⟨_, ⟨_, e⟩ | ⟨_, _, _, ⟨_, e⟩ | ⟨_, _, _, _, e⟩⟩⟩ := execUnwrapkey_cases s <;> exact ⟨_, e⟩

/-- Waiting for draws is the only result that does not complete, and GENPRIME and KEYGEN alone wait. -/
theorem ExecResult.completed {i : Instr} {s t : State} (h : ExecResult s i t) (hi : i ∉ [Instr.genprime, .keygen]) :
    t.phase = .idle ∧ t.done = true := by
  cases h with
  | waiting _ _ mem => exact absurd mem hi
  | _ => exact ⟨rfl, rfl⟩

/-- Settles O8, by the list of results `ExecResult`. -/
theorem everyCommandButTwoCompletes : Obligations.EveryCommandButTwoCompletes := by
  intro i s
  obtain ⟨t, ht⟩ := exec_eq_next i s
  exact ⟨t, ht, fun hg hk => (exec_result ht).completed (by simp [hg, hk])⟩

end Sys2Proof.Machine
end

section
/-! SUPPORT. Why KEYGEN never raises NOINV (43 R261): Euclid's loop reaches the gcd, and ChooseE's search the exponent
φ + 1 or φ + 2, whichever is odd, which is coprime to φ. -/

namespace Sys2Proof.Machine

theorem gcd_mod_eq (a m : Nat) : Nat.gcd m (a % m) = Nat.gcd a m := by
  rw [Nat.gcd_comm, ← Nat.gcd_rec, Nat.gcd_comm]

theorem euclid_fst_eq_gcd {fuel r0 r1 : Nat} (t0 t1 : Int) (hf : r1 < fuel) :
    (euclid fuel r0 r1 t0 t1).1 = Nat.gcd r0 r1 := by
  induction fuel generalizing r0 r1 t0 t1 with
  | zero => omega
  | succ fuel ih =>
    rw [euclid]
    split
    · rename_i h0
      rw [h0, Nat.gcd_zero_right]
    · rename_i h0
      have hlt : r0 % r1 < r1 := Nat.mod_lt _ (by omega)
      have hmod : r0 - r0 / r1 * r1 = r0 % r1 := by rw [Nat.mul_comm, Nat.mod_def]
      simp only [hmod]
      rw [ih _ _ (by omega), gcd_mod_eq]

/-- NOINV is the answer exactly where the gcd is not 1 (43 R254). -/
theorem modInv_eq_none_iff {a m : Nat} (hm : 1 ≤ m) : modInv a m = none ↔ Nat.gcd a m ≠ 1 := by
  have hgcd : (euclid m m (a % m) 0 1).1 = Nat.gcd a m := by
    rw [euclid_fst_eq_gcd _ _ (Nat.mod_lt a hm), gcd_mod_eq]
  simp [modInv, hgcd]

/-- The search stops at an exponent coprime to φ where one lies within its fuel. -/
theorem gcd_searchE {phi fuel e k : Nat} (hk : k ≤ fuel) (h : Nat.gcd (e + 2 * k) phi = 1) :
    Nat.gcd (searchE phi fuel e) phi = 1 := by
  induction fuel generalizing e k with
  | zero =>
    obtain rfl : k = 0 := by omega
    exact h
  | succ fuel ih =>
    rw [searchE]
    split
    · assumption
    · rename_i he
      cases k with
      | zero => exact absurd h he
      | succ k => exact ih (k := k) (by omega) (by rwa [show e + 2 + 2 * k = e + 2 * (k + 1) by omega])

/-- The exponent at which ChooseE's search ends at the latest: φ + 1 or φ + 2, whichever is odd. -/
theorem gcd_lastExponent {phi : Nat} (h : 1 ≤ phi) : Nat.gcd (3 + 2 * ((phi - 1) / 2)) phi = 1 := by
  obtain heven | hodd := Nat.mod_two_eq_zero_or_one phi
  · rw [show 3 + 2 * ((phi - 1) / 2) = 1 + phi by omega, Nat.gcd_add_self_left, Nat.gcd_one_left]
  · rw [show 3 + 2 * ((phi - 1) / 2) = 2 + phi by omega, Nat.gcd_add_self_left]
    exact Nat.coprime_two_left.mpr (Nat.odd_iff.mpr hodd)

/-- ChooseE answers an exponent coprime to φ (43 R259). -/
theorem gcd_chooseE {phi : Nat} (h : 1 ≤ phi) : Nat.gcd (chooseE phi) phi = 1 := by
  rw [chooseE]
  split
  · assumption
  · exact gcd_searchE (by omega) (gcd_lastExponent h)

theorem two_le_of_isProbablePrime {n k : Nat} {ds rest : List Nat} (h : isProbablePrime n k ds = some (true, rest)) :
    2 ≤ n := by
  by_contra hn
  rw [isProbablePrime, if_pos (by omega)] at h
  cases h

theorem two_le_of_genPrime {h k c : Nat} {ds rest : List Nat} (hg : genPrime h k ds = some (c, rest)) : 2 ≤ c := by
  obtain ⟨-, _, _, -, hc, -⟩ := genPrime_spec hg
  exact two_le_of_isProbablePrime hc

/-- Two primes have a keypair: E, chosen coprime to PHI, has its inverse (43 R261). -/
theorem keyPairOf_ne_none {p q : Nat} (hp : 2 ≤ p) (hq : 2 ≤ q) : keyPairOf p q ≠ none := by
  have hphi : 1 ≤ (p - 1) * (q - 1) := Nat.mul_pos (by omega) (by omega)
  rcases hd : modInv (chooseE ((p - 1) * (q - 1))) ((p - 1) * (q - 1)) with _ | d
  · exact absurd (gcd_chooseE hphi) ((modInv_eq_none_iff hphi).mp hd)
  · simp [keyPairOf, hd]

/-- The primes drawn for a keypair have one, so KEYGEN never raises NOINV. -/
theorem keyPairOf_ne_none_of_keyPrimes {b k p q : Nat} {ds rest : List Nat}
    (h : keyPrimes b k ds = some (p, q, rest)) : keyPairOf p q ≠ none := by
  obtain ⟨-, ⟨_, _, hp⟩, _, hq⟩ := keyPrimes_spec h
  exact keyPairOf_ne_none (two_le_of_genPrime hp) (two_le_of_genPrime hq)

end Sys2Proof.Machine
end

section
/-! SUPPORT. What an error leaves (40 R135, 60 R354): the results of `ExecResult` that are error completions. -/

namespace Sys2Proof.Machine

/-- Settles O55, by the list of results `ExecResult`: of those that report an error, KEYGEN's NOINV cannot happen. -/
theorem errorsWriteNoResults : Obligations.ErrorsWriteNoResults := by
  intro i s t h idle busy err
  cases exec_result h with
  | waiting => exact absurd (busy.symm.trans idle) nofun
  | keygenNoinv p q ds _ drawn noPair => exact absurd noPair (keyPairOf_ne_none_of_keyPrimes drawn)
  | keyexpError =>
    exact ⟨fun _ => ⟨rfl, fun hm => absurd hm (by decide)⟩, fun hk => absurd rfl hk, fun hk => absurd rfl hk⟩
  | aesKeylen _ mem invalid =>
    have hi : i ≠ .keyexp := by rintro rfl; exact absurd mem (by decide)
    have hKs : (if i = .keyexp then false else s.ksValid) = false := by rw [if_neg hi, invalid]
    exact ⟨fun _ => ⟨by rw [hKs]; rfl, fun _ => invalid⟩, fun hk => absurd rfl hk, fun hk => absurd rfl hk⟩
  | messageLength _ mem => exact ⟨nofun, fun _ _ => ⟨rfl, fun _ => s.scheduled_buf⟩, fun _ hi => absurd mem hi⟩
  | decryptPadding f n =>
    have heq := congrArg (State.raise · .padding) (s.scheduled.mapBlocks_eq f n)
    exact ⟨nofun, fun _ _ => ⟨heq, fun hn => absurd ⟨rfl, rfl⟩ hn⟩, fun _ hi => absurd (by decide) hi⟩
  | plainError _ e mem =>
    have hi : i ∉ scheduleWriters := (by decide : ∀ ie ∈ _, Prod.fst ie ∉ scheduleWriters) (i, e) mem
    have hne : i ≠ .keyexp := by rintro rfl; exact hi (by decide)
    refine ⟨fun hk => ⟨?_, fun hm => absurd ((by decide : _ ⊆ scheduleWriters) hm) hi⟩,
      fun _ hm => absurd ((by decide : _ ⊆ scheduleWriters) hm) hi, fun _ _ => rfl⟩
    obtain rfl : e = .keylen := hk
    rw [if_neg hne]
    rfl
  | _ => exact absurd rfl err

end Sys2Proof.Machine
end

section
/-! SUPPORT. Products in GF(2^8) (41 R151) are associative and distribute over sums on both sides, so the matrices of
MixColumns and InvMixColumns compose as circulants: their product is the identity (41 R156, R160). -/

namespace Sys2Proof.Machine

@[simp] theorem xtime_zero : xtime 0#8 = 0#8 := rfl

/-- The reduction by 0x11B: x^8 = x^4 + x^3 + x + 1. -/
theorem xtime_iterate_eight (a : Byte) :
    xtime (xtime (xtime (xtime (xtime (xtime (xtime (xtime a))))))) =
      a ^^^ xtime a ^^^ xtime (xtime (xtime a)) ^^^ xtime (xtime (xtime (xtime a))) := by
  revert a; decide +kernel

/-- Multiplying by x moves each bit up by one; bit 7 comes back at the places of 0x1B. -/
theorem getLsbD_xtime (a : Byte) :
    (xtime a).getLsbD 0 = a.getLsbD 7 ∧ (xtime a).getLsbD 1 = (a.getLsbD 0 ^^ a.getLsbD 7) ∧
    (xtime a).getLsbD 2 = a.getLsbD 1 ∧ (xtime a).getLsbD 3 = (a.getLsbD 2 ^^ a.getLsbD 7) ∧
    (xtime a).getLsbD 4 = (a.getLsbD 3 ^^ a.getLsbD 7) ∧ (xtime a).getLsbD 5 = a.getLsbD 4 ∧
    (xtime a).getLsbD 6 = a.getLsbD 5 ∧ (xtime a).getLsbD 7 = a.getLsbD 6 := by
  revert a; decide +kernel

theorem xtime_ite (c : Bool) (a : Byte) : xtime (if c then a else 0#8) = if c then xtime a else 0#8 := by
  cases c <;> simp

/-- A selected sum is the sum of what is selected. -/
theorem ite_xor (c : Bool) (a b : Byte) :
    (if c then a ^^^ b else 0#8) = (if c then a else 0#8) ^^^ (if c then b else 0#8) := by
  cases c <;> simp

/-- What the sum of two bits selects is the sum of what each selects. -/
theorem ite_bxor (c d : Bool) (a : Byte) :
    (if c ^^ d then a else 0#8) = (if c then a else 0#8) ^^^ (if d then a else 0#8) := by
  cases c <;> cases d <;> simp

/-- A factor x of the left operand comes out of the product. -/
theorem gmul_xtime_left (a b : Byte) : gmul (xtime a) b = xtime (gmul a b) := by
  simp only [gmul_eq, xtime_xor, xtime_ite]

/-- A factor x moves from one operand to the other. -/
theorem gmul_xtime_right (a b : Byte) : gmul a (xtime b) = xtime (gmul a b) := by
  obtain ⟨h0, h1, h2, h3, h4, h5, h6, h7⟩ := getLsbD_xtime b
  rw [← gmul_xtime_left, gmul_eq a, gmul_eq (xtime a), xtime_iterate_eight, h0, h1, h2, h3, h4, h5, h6, h7]
  simp only [ite_bxor, ite_xor]
  ac_rfl

theorem xor_gmul (a b c : Byte) : gmul (a ^^^ b) c = gmul a c ^^^ gmul b c := by
  simp only [gmul_eq, xtime_xor, ite_xor]
  ac_rfl

@[simp] theorem gmul_zero_right (a : Byte) : gmul a 0x00#8 = 0x00#8 := by
  simp [gmul_eq]

@[simp] theorem gmul_zero_left (a : Byte) : gmul 0x00#8 a = 0x00#8 := by
  simp [gmul_eq]

theorem gmul_ite (a : Byte) (c : Bool) (b : Byte) : gmul a (if c then b else 0#8) = if c then gmul a b else 0#8 := by
  cases c <;> simp

theorem gmul_assoc (a b c : Byte) : gmul (gmul a b) c = gmul a (gmul b c) := by
  rw [gmul_eq b c, gmul_eq (gmul a b) c]
  simp only [gmul_xor, gmul_ite, gmul_xtime_right]

/-- One column through two circulants is one column through the circulant of their product. -/
theorem circulant_circulant (m0 m1 m2 m3 n0 n1 n2 n3 : Byte) (w : Word) :
    circulant m0 m1 m2 m3 (circulant n0 n1 n2 n3 w) =
      circulant
        (gmul m0 n0 ^^^ gmul m1 n3 ^^^ gmul m2 n2 ^^^ gmul m3 n1)
        (gmul m0 n1 ^^^ gmul m1 n0 ^^^ gmul m2 n3 ^^^ gmul m3 n2)
        (gmul m0 n2 ^^^ gmul m1 n1 ^^^ gmul m2 n0 ^^^ gmul m3 n3)
        (gmul m0 n3 ^^^ gmul m1 n2 ^^^ gmul m2 n1 ^^^ gmul m3 n0) w := by
  simp only [circulant, wordByte_packWord_0, wordByte_packWord_1, wordByte_packWord_2, wordByte_packWord_3, gmul_xor,
    xor_gmul, ← gmul_assoc]
  congr 1 <;> ac_rfl

/-- The unit matrix. -/
theorem circulant_one (w : Word) : circulant 0x01#8 0x00#8 0x00#8 0x00#8 w = w := by
  simp [circulant]

/-- The product of the two matrices is the unit matrix (41 R156, R160). -/
@[simp] theorem invMixColumn_mixColumn (w : Word) : invMixColumn (mixColumn w) = w :=
  (circulant_circulant ..).trans (circulant_one w)

@[simp] theorem mixColumn_invMixColumn (w : Word) : mixColumn (invMixColumn w) = w :=
  (circulant_circulant ..).trans (circulant_one w)

@[simp] theorem invMixColumns_mixColumns (s : Block) : invMixColumns (mixColumns s) = s := by
  simp [invMixColumns, mixColumns]

@[simp] theorem mixColumns_invMixColumns (s : Block) : mixColumns (invMixColumns s) = s := by
  simp [invMixColumns, mixColumns]

/-- 02 times a byte (41 R151). -/
theorem gmul_two_left (a : Byte) : gmul 0x02#8 a = xtime a := by
  rw [show 0x02#8 = xtime 0x01#8 from rfl, gmul_xtime_left, gmul_one_left]

theorem gmul_three_left (a : Byte) : gmul 0x03#8 a = gmul 0x02#8 a ^^^ a := by
  rw [show 0x03#8 = 0x02#8 ^^^ 0x01#8 from rfl, xor_gmul, gmul_one_left]

/-- Settles O23: the two circulants on packed columns, and their product, the unit matrix. -/
theorem mixColumnsHasItsInverse : Obligations.MixColumnsHasItsInverse := by
  refine ⟨fun a => ⟨gmul_two_left a, gmul_three_left a⟩, fun _ => ⟨rfl, rfl⟩, fun a0 a1 a2 a3 => ?_,
    fun a0 a1 a2 a3 => ?_, fun s => ⟨invMixColumns_mixColumns s, mixColumns_invMixColumns s⟩⟩
  · simp [invMixColumn, circulant]
  · simp [mixColumn, circulant]

end Sys2Proof.Machine
end

section
/-! SUPPORT. The two tables (41 R152, R153): an entry of the S-box with its affine map undone is the inverse in GF(2^8),
and each table undoes the other. -/

namespace Sys2Proof.Machine

/-- The inverse of the S-box's affine map (41 R152): bits i + 2, i + 5 and i + 7 of `z`, and 0x05. -/
def affineInv (z : Byte) : Byte := z.rotateLeft 1 ^^^ z.rotateLeft 3 ^^^ z.rotateLeft 6 ^^^ 0x05#8

/-- The affine map of 41 R152 takes `affineInv z` back to `z`. -/
theorem getLsbD_affineInv (z : Byte) :
    ∀ i < 8, z.getLsbD i =
      (((affineInv z).getLsbD i ^^ (affineInv z).getLsbD ((i + 4) % 8) ^^ (affineInv z).getLsbD ((i + 5) % 8)
        ^^ (affineInv z).getLsbD ((i + 6) % 8) ^^ (affineInv z).getLsbD ((i + 7) % 8)) ^^ (0x63#8).getLsbD i) := by
  revert z; decide +kernel

/-- The table, entry by entry: before the affine map stands the inverse of `x`, and 0 for 0. -/
theorem gmul_affineInv_sbox (x : Byte) :
    (x = 0#8 ∧ affineInv (sbox x) = 0#8) ∨ gmul x (affineInv (sbox x)) = 1#8 := by
  revert x; decide +kernel

@[simp] theorem invSbox_sbox (x : Byte) : invSbox (sbox x) = x := by
  revert x; decide +kernel

@[simp] theorem sbox_invSbox (x : Byte) : sbox (invSbox x) = x := by
  revert x; decide +kernel

/-- Settles O20: the inverse of `x` is its entry with the affine map undone. -/
theorem sboxIsInverseThenAffine : Obligations.SboxIsInverseThenAffine :=
  fun x => ⟨affineInv (sbox x), gmul_affineInv_sbox x, getLsbD_affineInv (sbox x)⟩

/-- Settles O21, entry by entry of the two tables. -/
theorem invSboxUndoesSbox : Obligations.InvSboxUndoesSbox := fun x => ⟨invSbox_sbox x, sbox_invSbox x⟩

end Sys2Proof.Machine
end

section
/-! SUPPORT. What each round function does to the byte at row r and column c (41 R154, R155, R157 to R159). -/

namespace Sys2Proof.Machine

section
variable (s : Block) {r c : Nat} (hr : r < 4) (hc : c < 4)
include hr hc

theorem blockByte_subBytes : blockByte (subBytes s) r c = sbox (blockByte s r c) := blockByte_blockOf _ hr hc

theorem blockByte_invSubBytes : blockByte (invSubBytes s) r c = invSbox (blockByte s r c) := blockByte_blockOf _ hr hc

theorem blockByte_shiftRows : blockByte (shiftRows s) r c = blockByte s r ((c + r) % 4) := blockByte_blockOf _ hr hc

theorem blockByte_invShiftRows : blockByte (invShiftRows s) r c = blockByte s r ((c + 4 - r) % 4) :=
  blockByte_blockOf _ hr hc

omit hr in
theorem blockByte_addRoundKey (ks : Vector Word 60) (n : Nat) :
    blockByte (addRoundKey ks s n) r c = blockByte s r c ^^^ wordByte (ksWord ks (4 * n + c)) r := by
  interval_cases c <;> exact wordByte_xor ..

end

theorem getD_wordBytes (w : Word) {r : Nat} (hr : r < 4) : (wordBytes w).getD r 0#8 = wordByte w r := by
  interval_cases r <;> rfl

@[simp] theorem invSubBytes_subBytes (s : Block) : invSubBytes (subBytes s) = s := by
  rw [← blockOf_blockByte s]
  refine blockOf_congr fun r hr c hc => ?_
  rw [blockByte_subBytes _ hr hc, invSbox_sbox, blockOf_blockByte]

@[simp] theorem subBytes_invSubBytes (s : Block) : subBytes (invSubBytes s) = s := by
  rw [← blockOf_blockByte s]
  refine blockOf_congr fun r hr c hc => ?_
  rw [blockByte_invSubBytes _ hr hc, sbox_invSbox, blockOf_blockByte]

/-- Settles O22, byte by byte of the state. -/
theorem roundFunctionsMoveBytesAsStated : Obligations.RoundFunctionsMoveBytesAsStated := by
  intro s ks n r c hr hc
  have hmod : ∀ k, k % 4 < 4 := fun k => Nat.mod_lt k (by decide)
  simp only [getD_blockBytes _ hr hc, getD_blockBytes _ hr (hmod _), getD_wordBytes _ hr]
  exact ⟨blockByte_subBytes s hr hc, blockByte_invSubBytes s hr hc, blockByte_shiftRows s hr hc,
    blockByte_invShiftRows s hr hc, blockByte_addRoundKey s hc ks n⟩

end Sys2Proof.Machine
end

section
/-! SUPPORT. Cipher and InvCipher (41 R180 to R182): their rounds in order, and each round undone by its inverse. -/

namespace Sys2Proof.Machine

@[simp] theorem invCipherRounds_cipherRounds (ks : Vector Word 60) (n : Nat) (s : Block) :
    invCipherRounds ks n (cipherRounds ks n s) = s := by
  induction n with
  | zero => rfl
  | succ n ih => simp [cipherRounds, invCipherRounds, ih]

@[simp] theorem cipherRounds_invCipherRounds (ks : Vector Word 60) (n : Nat) (s : Block) :
    cipherRounds ks n (invCipherRounds ks n s) = s := by
  induction n generalizing s with
  | zero => rfl
  | succ n ih => simp [cipherRounds, invCipherRounds, ih]

@[simp] theorem invCipher_cipher (ks : Vector Word 60) (nr : Nat) (b : Block) :
    invCipher ks nr (cipher ks nr b) = b := by
  simp [cipher, invCipher]

@[simp] theorem cipher_invCipher (ks : Vector Word 60) (nr : Nat) (b : Block) :
    cipher ks nr (invCipher ks nr b) = b := by
  simp [cipher, invCipher]

/-- Settles O24: every round function has its inverse, and InvCipher applies the inverses in the opposite order. -/
theorem invCipherUndoesCipher : Obligations.InvCipherUndoesCipher := fun ks nr b =>
  ⟨invCipher_cipher ks nr b, cipher_invCipher ks nr b,
    Function.bijective_iff_has_inverse.mpr ⟨invCipher ks nr, invCipher_cipher ks nr, cipher_invCipher ks nr⟩⟩

/-- The states after rounds 1 to `n`, each got from the one before. -/
theorem cipherRounds_eq {ks : Vector Word 60} {f : Nat → Block} {n : Nat}
    (h : ∀ r < n, f (r + 1) = addRoundKey ks (mixColumns (shiftRows (subBytes (f r)))) (r + 1)) :
    cipherRounds ks n (f 0) = f n := by
  induction n with
  | zero => rfl
  | succ n ih => rw [cipherRounds, ih fun r hr => h r (by omega), ← h n n.lt_succ_self]

/-- The states after rounds `n` down to 1, each got from the one above. -/
theorem invCipherRounds_eq {ks : Vector Word 60} {g : Nat → Block} {n : Nat}
    (h : ∀ r < n, g (r + 1) = invSubBytes (invShiftRows (invMixColumns (addRoundKey ks (g (r + 2)) (r + 1))))) :
    invCipherRounds ks n (g (n + 1)) = g 1 := by
  induction n with
  | zero => rfl
  | succ n ih => rw [invCipherRounds, ← h n n.lt_succ_self, ih fun r hr => h r (by omega)]

/-- Settles O60, by induction on the rounds with MixColumns. -/
theorem cipherRunsItsRounds : Obligations.CipherRunsItsRounds := by
  intro ks nr b f g hnr
  obtain ⟨n, rfl⟩ : ∃ n, nr = n + 1 := ⟨nr - 1, by omega⟩
  refine ⟨fun hf hrounds => ?_, fun hg hrounds => ?_⟩
  · rw [cipher, ← hf, Nat.add_sub_cancel, cipherRounds_eq fun r hr => hrounds (r + 1) (by omega) (by omega)]
  · rw [invCipher, ← hg, Nat.add_sub_cancel, invCipherRounds_eq fun r hr => hrounds (r + 1) (by omega) (by omega)]

end Sys2Proof.Machine
end

section
/-! SUPPORT. The AES commands once EnsureSchedule has answered (42 R200 to R204): KEYLEN, or the rest of the command on
the scheduled state. -/

namespace Sys2Proof.Machine

section
variable {s : State}

/-- Clearing a KS_VALID that is 0 changes nothing. -/
theorem State.raiseKeylen_of_not_valid (h : s.ksValid = false) : s.raiseKeylen = s.raise .keylen := by
  have hclear : s.clearKsValid = s := by rw [State.clearKsValid, ← h]
  rw [State.raiseKeylen, hclear]

/-- EnsureSchedule comes before every other check of these commands (60 R352). -/
theorem exec_of_not_ready (h : ¬ s.keyReady) {i : Instr}
    (hi : i ∈ [Instr.encBlock, .decBlock, .ecbEnc, .ecbDec, .encrypt, .decrypt]) :
    exec i s = .next s.raiseKeylen := by
  simp only [List.mem_cons, List.not_mem_nil, or_false] at hi
  obtain rfl | rfl | rfl | rfl | rfl | rfl := hi <;> exact congrArg _ (withSchedule_of_not_ready s _ h)

theorem exec_encBlock_of_ready (h : s.keyReady) :
    exec .encBlock s = .next (s.scheduled.setDout (s.scheduled.encryptBlock s.din)).complete := by
  rw [← s.scheduled_din]; exact congrArg _ (withSchedule_of_ready s _ h)

theorem exec_decBlock_of_ready (h : s.keyReady) :
    exec .decBlock s = .next (s.scheduled.setDout (s.scheduled.decryptBlock s.din)).complete := by
  rw [← s.scheduled_din]; exact congrArg _ (withSchedule_of_ready s _ h)

theorem exec_ecbEnc_of_ready (h : s.keyReady) :
    exec .ecbEnc s = .next (ecbTransform s.scheduled s.scheduled.encryptBlock) :=
  congrArg _ (withSchedule_of_ready s _ h)

theorem exec_ecbDec_of_ready (h : s.keyReady) :
    exec .ecbDec s = .next (ecbTransform s.scheduled s.scheduled.decryptBlock) :=
  congrArg _ (withSchedule_of_ready s _ h)

theorem exec_encrypt_of_ready (h : s.keyReady) : exec .encrypt s = .next (encryptMessage s.scheduled) :=
  congrArg _ (withSchedule_of_ready s _ h)

theorem exec_decrypt_of_ready (h : s.keyReady) : exec .decrypt s = .next (decryptMessage s.scheduled) :=
  congrArg _ (withSchedule_of_ready s _ h)

theorem State.scheduled_of_valid (h : s.ksValid = true) : s.scheduled = s := if_pos h

end

/-- Settles O26, by the meaning of each command on the scheduled state. -/
theorem blockCommandsTransformDin : Obligations.BlockCommandsTransformDin := by
  refine ⟨decode_encode .encBlock, decode_encode .decBlock, ?_⟩
  rintro s ready _ rfl
  exact ⟨exec_encBlock_of_ready ready, exec_decBlock_of_ready ready⟩

/-- Settles O27: no schedule is stored and none can be built. -/
theorem aesCommandsRaiseKeylenFirst : Obligations.AesCommandsRaiseKeylenFirst := by
  intro s hv h16 h24 h32 i hi
  have notReady : ¬ s.keyReady := by simp [State.keyReady, hv, h16, h24, h32]
  rw [exec_of_not_ready notReady hi, State.raiseKeylen_of_not_valid hv]
  rfl

/-- Word i of the current key is KEYi (10 R30). -/
theorem State.wordOfBytes_keyString (s : State) {i : Nat} (h : 4 * i + 4 ≤ s.keyBytes.toNat) (hi : i < 8) :
    wordOfBytes s.keyString i = s.key.toList.getD i 0#32 :=
  wordOfBytes_flatMap_take h (by simpa using hi)

/-- Settles O25: the store is `keySchedule` of KEYBYTES, whose words are the key's, then the recurrence's, then 0. -/
theorem keyexpExpandsTheKey : Obligations.KeyexpExpandsTheKey := by
  refine ⟨decode_encode .keyexp, fun b0 b1 b2 b3 => ⟨by simp [rotWord], by simp [subWord]⟩, by decide, ?_, ?_⟩
  · intro s nk hlen hnk
    obtain ⟨invalid, -⟩ | ⟨-, hexec⟩ := execKeyexp_cases s
    · omega
    have hk : s.keyString.length = 4 * nk := by rw [s.length_keyString (by omega), hlen]
    have hnr : (BitVec.ofNat 8 (s.keyBytes.toNat / 4 + 6)).toNat = nk + 6 := by
      rw [BitVec.toNat_ofNat]; omega
    refine ⟨_, hexec, rfl, hnr, fun i hi => ?_, fun i h1 h2 => ?_, fun i hi => ?_⟩
    · exact (ksWord_keySchedule_lt hk (by omega) hi).trans (s.wordOfBytes_keyString (by omega) (by omega))
    · exact ksWord_keySchedule_rec hk (by omega) (by omega) h1 h2 _ rfl
    · exact ksWord_keySchedule_ge hk (by omega) hi
  · intro s h16 h24 h32
    obtain ⟨-, hexec⟩ | ⟨valid, -⟩ := execKeyexp_cases s
    · exact hexec
    · omega

end Sys2Proof.Machine
end

section
/-! SUPPORT. Padding (42 R205, R206): the padded message byte by byte, and DATA_LEN within its 16 bits. -/

namespace Sys2Proof.Machine

theorem Params.bufBytes_le {p : Params} (h : p.valid = true) : p.bufBytes ≤ 16384 := by
  simp only [Params.valid, Params.bufBytesValid, Bool.and_eq_true, decide_eq_true_eq] at h
  omega

/-- The message with its pad bytes after it (42 R205). -/
def State.padded (s : State) : State := s.memWrite s.dataLen.toNat (padBytes s.dataLen.toNat)

section
variable (s : State)

/-- A length that fits the buffer fits DATA_LEN (00 R6, 10 R28). -/
theorem State.toNat_setDataLen {n : Nat} (hv : s.params.valid = true) (fits : n ≤ s.params.bufBytes) :
    (s.setDataLen n).dataLen.toNat = n := by
  have hle := Params.bufBytes_le hv
  exact Nat.mod_eq_of_lt (show n < 2 ^ 16 by omega)

theorem State.readByte_padded (a : Nat) :
    s.padded.readByte a =
      if s.dataLen.toNat ≤ a ∧ a < s.dataLen.toNat + padCount s.dataLen.toNat then
        BitVec.ofNat 8 (padCount s.dataLen.toNat)
      else s.readByte a := by
  rw [State.padded, State.readByte_memWrite, length_padBytes]
  split
  · rw [getD_padBytes (by omega)]
  · rfl

theorem State.readByte_padded_lt {a : Nat} (h : a < s.dataLen.toNat) : s.padded.readByte a = s.readByte a := by
  rw [State.readByte_padded, if_neg (by omega)]

/-- The padded message ends with its pad bytes. -/
theorem State.readByte_padded_sub {i : Nat} (h1 : 1 ≤ i) (h2 : i ≤ padCount s.dataLen.toNat) :
    s.padded.readByte (s.dataLen.toNat + padCount s.dataLen.toNat - i) =
      BitVec.ofNat 8 (padCount s.dataLen.toNat) := by
  rw [State.readByte_padded, if_pos (by omega)]

/-- The padding check depends on the buffer's bytes alone. -/
theorem State.checkPadding_congr {s t : State} (h : ∀ a, t.readByte a = s.readByte a) (len : Nat) :
    t.checkPadding len = s.checkPadding len := by
  simp only [State.checkPadding, h]

/-- The padding check finds the pad count that PAD wrote (42 R205, R206). -/
theorem State.checkPadding_padded :
    s.padded.checkPadding (s.dataLen.toNat + padCount s.dataLen.toNat) = some (padCount s.dataLen.toNat) := by
  have h1 := padCount_pos s.dataLen.toNat
  have h16 := padCount_le s.dataLen.toNat
  refine s.padded.checkPadding_of_padded (by omega) ?_ h1 h16 fun i => s.readByte_padded_sub
  rw [s.readByte_padded_sub le_rfl h1, BitVec.toNat_ofNat, Nat.mod_eq_of_lt (by omega)]

end

/-- Settles O28, by the two outcomes of PAD. -/
theorem padAppendsPkcs7Bytes : Obligations.PadAppendsPkcs7Bytes := by
  refine ⟨decode_encode .pad, ?_⟩
  rintro s _ _ hv rfl rfl
  obtain ⟨hfit, hexec⟩ | ⟨hfit, hexec⟩ := execPad_cases s
  · exact ⟨fun fits => absurd hfit (Nat.not_lt.mpr fits), fun _ => hexec⟩
  · refine ⟨fun _ => ⟨_, hexec, rfl, s.padded.toNat_setDataLen hv hfit, add_padCount_mod _, ?_⟩,
      fun past => absurd past (Nat.not_lt.mpr hfit)⟩
    exact s.readByte_padded

/-- Settles O29: the outcome of UNPAD is that of its length checks, then of the padding check. -/
theorem unpadValidatesAndStrips : Obligations.UnpadValidatesAndStrips := by
  refine ⟨decode_encode .unpad, ?_⟩
  rintro s _ p rfl hp
  have padded : s.dataLen.toNat ≠ 0 → 1 ≤ p → p ≤ 16 →
      (∀ i, 1 ≤ i → i ≤ p → s.readByte (s.dataLen.toNat - i) = BitVec.ofNat 8 p) →
      s.checkPadding s.dataLen.toNat = some p := fun h0 => s.checkPadding_of_padded h0 hp
  obtain ⟨hlen, hexec⟩ | ⟨hlen, hbad, hexec⟩ | ⟨hlen, h16, q, hq, hexec⟩ := execUnpad_cases s
  · exact ⟨fun _ => hexec, fun _ => by omega, fun _ => by omega⟩
  · refine ⟨fun _ => by omega, fun _ h0 hm h1 hp16 hall => ?_, fun _ _ => hexec⟩
    rw [padded h0 h1 hp16 hall] at hbad
    exact absurd hbad (by simp [hm])
  · refine ⟨fun _ => by omega, fun _ h0 _ h1 hp16 hall => ?_, fun _ hbad => ?_⟩
    · obtain rfl : q = p := Option.some.inj (hq.symm.trans (padded h0 h1 hp16 hall))
      exact hexec
    · have hnone := s.checkPadding_of_not_padded hp (by tauto)
      exact absurd (hq.symm.trans hnone) nofun

end Sys2Proof.Machine
end

section
/-! SUPPORT. Messages in the buffer (42 R207 to R212): ECB_ENC, ECB_DEC, ENCRYPT and DECRYPT through the block loop. -/

namespace Sys2Proof.Machine

section
variable (s : State)

/-! LENGTH (60 R352). -/

theorem ecbTransform_of_badLength (f : Block → Block)
    (h : s.params.bufBytes < s.dataLen.toNat ∨ s.dataLen.toNat % 16 ≠ 0) : ecbTransform s f = s.raise .length := by
  obtain ⟨-, e⟩ | ⟨hfit, h16, -⟩ := ecbTransform_cases s f
  · exact e
  · omega

theorem decryptMessage_of_badLength (h : s.params.bufBytes < s.dataLen.toNat ∨ s.dataLen.toNat % 16 ≠ 0) :
    decryptMessage s = s.raise .length := by
  obtain ⟨-, e⟩ | ⟨hfit, h16, -⟩ := decryptMessage_cases s
  · exact e
  · omega

theorem encryptMessage_of_badLength (h : s.params.bufBytes < s.dataLen.toNat + padCount s.dataLen.toNat) :
    encryptMessage s = s.raise .length := by
  obtain ⟨-, e⟩ | ⟨hfit, -⟩ := encryptMessage_cases s
  · exact e
  · omega

/-! Messages of whole blocks, or with room for their padding. -/

theorem ecbTransform_of_blocks (f : Block → Block) {n : Nat} (hlen : s.dataLen.toNat = 16 * n)
    (fits : 16 * n ≤ s.params.bufBytes) : ecbTransform s f = (s.mapBlocks f n).complete := by
  obtain ⟨hbad, -⟩ | ⟨-, -, e⟩ := ecbTransform_cases s f
  · omega
  · rw [e, hlen, Nat.mul_div_cancel_left n (by decide)]

/-- ENCRYPT leaves the padded message, enciphered, and its length. -/
theorem encryptMessage_of_fits (hv : s.params.valid = true)
    (fits : s.dataLen.toNat + padCount s.dataLen.toNat ≤ s.params.bufBytes) :
    ∃ t, encryptMessage s = t ∧
      t = { s with buf := t.buf, dataLen := t.dataLen, err := .ok, phase := .idle, done := true } ∧
      t.dataLen.toNat = s.dataLen.toNat + padCount s.dataLen.toNat ∧
      ∀ a, t.readByte a = (s.padded.mapBlocks s.encryptBlock (t.dataLen.toNat / 16)).readByte a := by
  obtain ⟨hbad, -⟩ | ⟨-, e⟩ := encryptMessage_cases s
  · omega
  have hlen := s.toNat_setDataLen hv fits
  refine ⟨_, e, congrArg (fun v => (State.setDataLen v _).complete) (s.padded.mapBlocks_eq _ _), hlen, fun a => ?_⟩
  exact congrArg (fun len => (s.padded.mapBlocks s.encryptBlock (len / 16)).readByte a) hlen.symm

/-- DECRYPT leaves the deciphered blocks in the buffer; the padding check on them decides ERR and DATA_LEN. -/
theorem decryptMessage_of_blocks {n : Nat} (hlen : s.dataLen.toNat = 16 * n) (fits : 16 * n ≤ s.params.bufBytes) :
    ∃ t, decryptMessage s = t ∧
      t = { s with buf := t.buf, dataLen := t.dataLen, err := t.err, phase := .idle, done := true } ∧
      (∀ a, t.readByte a = (s.mapBlocks s.decryptBlock n).readByte a) ∧
      ((t.checkPadding (16 * n) = none ∧ t.err = .padding ∧ t.dataLen = s.dataLen) ∨
        ∃ p, t.checkPadding (16 * n) = some p ∧ t.err = .ok ∧ t.dataLen = BitVec.ofNat 16 (16 * n - p)) := by
  obtain ⟨hbad, -⟩ | ⟨-, -, plain, hplain, hout⟩ := decryptMessage_cases s
  · omega
  rw [hlen, Nat.mul_div_cancel_left n (by decide)] at hplain
  rw [hlen] at hout
  have heq : plain = { s with buf := plain.buf } := by rw [hplain]; exact s.mapBlocks_eq _ n
  obtain ⟨hnone, e⟩ | ⟨p, hsome, e⟩ := hout
  · exact ⟨_, e, by rw [heq]; rfl, by rw [← hplain]; exact fun _ => rfl, .inl ⟨hnone, rfl, by rw [heq]; rfl⟩⟩
  · exact ⟨_, e, by rw [heq]; rfl, by rw [← hplain]; exact fun _ => rfl, .inr ⟨p, hsome, rfl, rfl⟩⟩

/-- A block loop undoes another where its function undoes the other's on every block. -/
theorem State.readByte_mapBlocks_mapBlocks {s t : State} {f g : Block → Block} (hgf : ∀ b, g (f b) = b) {n : Nat}
    (ht : ∀ a, t.readByte a = (s.mapBlocks f n).readByte a) (a : Nat) :
    (t.mapBlocks g n).readByte a = s.readByte a := by
  rw [State.readByte_mapBlocks]
  split
  · have hread : t.memRead (16 * (a / 16)) 16 = (s.mapBlocks f n).memRead (16 * (a / 16)) 16 :=
      State.memRead_congr fun i _ => ht _
    rw [hread, s.memRead_mapBlocks f (by omega), blockOfBytes_blockBytes, hgf,
      blockBytes_blockOfBytes (s.length_memRead _ _),
      List.getD_eq_getElem _ _ (by rw [State.length_memRead]; omega), State.getElem_memRead]
    congr 1
    omega
  · rw [ht, s.readByte_mapBlocks_ge f (by omega)]

end

/-- Settles O31: each command's length checks on the scheduled state. -/
theorem badLengthsKeepOnlyTheSchedule : Obligations.BadLengthsKeepOnlyTheSchedule := by
  rintro s _ ready rfl
  rw [← s.scheduled_params, ← s.scheduled_dataLen]
  refine ⟨fun bad i hi => ?_, fun bad => ?_⟩
  · simp only [List.mem_cons, List.not_mem_nil, or_false] at hi
    obtain rfl | rfl | rfl := hi
    · rw [exec_ecbEnc_of_ready ready, ecbTransform_of_badLength _ _ bad]; rfl
    · rw [exec_ecbDec_of_ready ready, ecbTransform_of_badLength _ _ bad]; rfl
    · rw [exec_decrypt_of_ready ready, decryptMessage_of_badLength _ bad]; rfl
  · rw [exec_encrypt_of_ready ready, encryptMessage_of_badLength _ bad]; rfl

/-- What ECB_ENC and ECB_DEC leave, for either transform `f` (42 R207, R208; 20 R72). -/
theorem ecbTransform_scheduled (s : State) (f : Block → Block) {n : Nat} (hlen : s.dataLen.toNat = 16 * n)
    (fits : 16 * n ≤ s.params.bufBytes) :
    ∃ t, ecbTransform s.scheduled f = t ∧
      t = { s.scheduled with buf := t.buf, err := .ok, phase := .idle, done := true } ∧
      (∀ i < n, t.memRead (16 * i) 16 = blockBytes (f (blockOfBytes (s.memRead (16 * i) 16)))) ∧
      (∀ a, 16 * n ≤ a → t.readByte a = s.readByte a) := by
  refine ⟨_, ecbTransform_of_blocks s.scheduled f (by simpa using hlen) (by simpa using fits),
    congrArg State.complete (s.scheduled.mapBlocks_eq f n), fun i hi => ?_, fun a ha => ?_⟩
  · rw [← s.scheduled_memRead]; exact s.scheduled.memRead_mapBlocks f hi
  · rw [← s.scheduled_readByte]; exact s.scheduled.readByte_mapBlocks_ge f ha

/-- Settles O30, by what the two commands share. -/
theorem ecbCommandsTransformEveryBlock : Obligations.EcbCommandsTransformEveryBlock := by
  refine ⟨decode_encode .ecbEnc, decode_encode .ecbDec, ?_⟩
  rintro s _ n ready rfl hlen fits
  obtain ⟨t, ht, henc⟩ := ecbTransform_scheduled s s.scheduled.encryptBlock hlen fits
  obtain ⟨v, hv, hdec⟩ := ecbTransform_scheduled s s.scheduled.decryptBlock hlen fits
  exact ⟨⟨t, by rw [exec_ecbEnc_of_ready ready, ht], henc⟩, ⟨v, by rw [exec_ecbDec_of_ready ready, hv], hdec⟩⟩

/-- Settles O32: the block loop runs on the padded message. -/
theorem encryptPadsAndEnciphers : Obligations.EncryptPadsAndEnciphers := by
  refine ⟨decode_encode .encrypt, ?_⟩
  rintro s u _ p padded hv ready hu rfl hp fits hpadded
  obtain rfl : p = padCount s.dataLen.toNat := hp
  have h16 := add_padCount_mod s.dataLen.toNat
  have hdl : u.dataLen = s.dataLen := by rw [hu, s.scheduled_dataLen]
  have hparams : u.params = s.params := by rw [hu, s.scheduled_params]
  have hub : ∀ a, u.readByte a = s.readByte a := by rw [hu]; exact s.scheduled_readByte
  obtain ⟨t, ht, heq, hlen, hbyte⟩ := encryptMessage_of_fits u (by rwa [hparams]) (by rwa [hdl, hparams])
  rw [hdl] at hlen
  rw [hlen] at hbyte
  refine ⟨t, by rw [exec_encrypt_of_ready ready, ← hu, ht], heq, hlen, fun i hi => ?_, fun a ha => ?_⟩
  · have hread : u.padded.memRead (16 * i) 16 = (List.range 16).map fun j => padded (16 * i + j) := by
      refine List.map_congr_left fun j hj => ?_
      have hj : j < 16 := List.mem_range.mp hj
      rw [u.readByte_padded, hdl, hub, hpadded]
      exact if_congr (and_iff_left (by omega)) rfl rfl
    rw [← hread]
    exact (State.memRead_congr fun _ _ => hbyte _).trans (u.padded.memRead_mapBlocks u.encryptBlock hi)
  · rw [hbyte, u.padded.readByte_mapBlocks_ge _ (by omega), u.readByte_padded, hdl, if_neg (by omega), hub]

/-- Settles O33: the padding check on the deciphered blocks is decided by their last bytes. -/
theorem decryptDeciphersThenUnpads : Obligations.DecryptDeciphersThenUnpads := by
  refine ⟨decode_encode .decrypt, ?_⟩
  rintro s u n ready hu hlen fits
  have hulen : u.dataLen = s.dataLen := by rw [hu, s.scheduled_dataLen]
  obtain ⟨t, ht, heq, hbyte, hout⟩ := decryptMessage_of_blocks u (n := n) (by rw [hulen, hlen])
    (by rwa [hu, s.scheduled_params])
  refine ⟨t, by rw [exec_decrypt_of_ready ready, ← hu, ht], heq, fun i hi => ?_, fun a ha => ?_, fun p hp => ?_⟩
  · rw [← s.scheduled_memRead, ← hu]
    exact (State.memRead_congr fun _ _ => hbyte _).trans (u.memRead_mapBlocks u.decryptBlock hi)
  · rw [hbyte, u.readByte_mapBlocks_ge _ ha, hu, s.scheduled_readByte]
  · refine ⟨fun ⟨h0, h1, h16, hall⟩ => ?_, fun hbad => ?_⟩
    · have hsome := t.checkPadding_of_padded (by omega) hp h1 h16 hall
      obtain ⟨hnone, -⟩ | ⟨q, hq, herr, hdl⟩ := hout
      · exact absurd (hsome.symm.trans hnone) nofun
      · obtain rfl : q = p := Option.some.inj (hq.symm.trans hsome)
        have hlt := s.dataLen.isLt
        exact ⟨herr, by rw [hdl, BitVec.toNat_ofNat, Nat.mod_eq_of_lt (by omega)]⟩
    · have hnone := t.checkPadding_of_not_padded (len := 16 * n) hp (by simpa using hbad)
      obtain ⟨-, herr, hdl⟩ | ⟨q, hq, -⟩ := hout
      · exact ⟨herr, hdl.trans hulen⟩
      · exact absurd (hq.symm.trans hnone) nofun

/-! ENCRYPT, then DECRYPT (42 R212). -/

/-- DECRYPT on a state that holds what ENCRYPT left: the enciphered padded message, its length and its schedule. -/
theorem decryptMessage_of_encrypted {s c : State}
    (hdl : c.dataLen.toNat = s.dataLen.toNat + padCount s.dataLen.toNat)
    (fits : c.dataLen.toNat ≤ c.params.bufBytes) (hks : c.ks = s.ks) (hnr : c.nr = s.nr)
    (hbyte : ∀ a, c.readByte a = (s.padded.mapBlocks s.encryptBlock (c.dataLen.toNat / 16)).readByte a) :
    ∃ u, decryptMessage c = u ∧ u.err = .ok ∧ u.dataLen = s.dataLen ∧
      u.memRead 0 s.dataLen.toNat = s.memRead 0 s.dataLen.toNat := by
  have h16 := add_padCount_mod s.dataLen.toNat
  have hlen : c.dataLen.toNat = 16 * (c.dataLen.toNat / 16) := by omega
  have hundo : ∀ b, c.decryptBlock (s.encryptBlock b) = b := fun b => by
    rw [State.decryptBlock, hks, hnr]; exact invCipher_cipher ..
  obtain ⟨u, hu, -, hub, hout⟩ := decryptMessage_of_blocks c hlen (by omega)
  have hpad : ∀ a, u.readByte a = s.padded.readByte a := fun a =>
    (hub a).trans (State.readByte_mapBlocks_mapBlocks hundo hbyte a)
  have hcheck : u.checkPadding (16 * (c.dataLen.toNat / 16)) = some (padCount s.dataLen.toNat) := by
    rw [← hlen, hdl, State.checkPadding_congr hpad, s.checkPadding_padded]
  obtain ⟨hnone, -⟩ | ⟨p, hp, herr, hul⟩ := hout
  · exact absurd (hcheck.symm.trans hnone) nofun
  obtain rfl : p = padCount s.dataLen.toNat := Option.some.inj (hp.symm.trans hcheck)
  refine ⟨u, hu, herr, ?_, State.memRead_congr fun i hi => ?_⟩
  · rw [hul, ← hlen, hdl, Nat.add_sub_cancel]; simp
  · rw [hpad, s.readByte_padded_lt (by omega)]

/-- Settles O34: the state ENCRYPT leaves has a schedule stored, so DECRYPT uses the one that enciphered. -/
theorem decryptUndoesEncrypt : Obligations.DecryptUndoesEncrypt := by
  intro s hv ready fits
  obtain ⟨t, ht, heq, hlen, hbyte⟩ := encryptMessage_of_fits s.scheduled (by rwa [s.scheduled_params])
    (by rwa [s.scheduled_params, s.scheduled_dataLen])
  have hparams : t.params = s.params := (congrArg State.params heq).trans s.scheduled_params
  have hvalid : (t.accept (encode .decrypt)).ksValid = true := (congrArg State.ksValid heq).trans s.scheduled_ksValid
  have htfits : t.dataLen.toNat ≤ t.params.bufBytes := by rw [hlen, hparams, s.scheduled_dataLen]; exact fits
  have hks : t.ks = s.scheduled.ks := by rw [heq]
  have hnr : t.nr = s.scheduled.nr := by rw [heq]
  obtain ⟨u, hu, herr, hdl, hmem⟩ :=
    decryptMessage_of_encrypted (c := t.accept (encode .decrypt)) hlen htfits hks hnr hbyte
  refine ⟨t, u, by rw [exec_encrypt_of_ready ready, ht], congrArg State.err heq, ?_, herr, ?_, ?_⟩
  · rw [exec_decrypt_of_ready (.inl hvalid), State.scheduled_of_valid hvalid, hu]
  · rw [hdl, s.scheduled_dataLen]
  · rwa [s.scheduled_dataLen, s.scheduled_memRead] at hmem

end Sys2Proof.Machine
end

section
/-! SUPPORT. Modular exponentiation (43 R253): the loop keeps its accumulator at the power for the exponent's bits read
so far; and what follows from Fermat's theorem for two primes (43 R262). -/

namespace Sys2Proof.Machine

/-- The loop's invariant: with bits `i` and up of `e` read, the accumulator is that power of `b`. -/
theorem modExpFrom_eq_pow {b e m i r : Nat} (hr : r = b ^ (e / 2 ^ i) % m) :
    modExpFrom b e m i r = b ^ e % m := by
  induction i generalizing r with
  | zero => simpa [modExpFrom] using hr
  | succ i ih =>
    have hdiv : e / 2 ^ (i + 1) = e / 2 ^ i / 2 := by rw [pow_succ, Nat.div_div_eq_div_mul]
    have hsq : r * r % m = b ^ (2 * (e / 2 ^ i / 2)) % m := by
      rw [hr, hdiv, ← Nat.mul_mod, ← pow_add, two_mul]
    rw [modExpFrom, Nat.testBit_eq_decide_div_mod_eq]
    apply ih
    obtain h0 | h1 := Nat.mod_two_eq_zero_or_one (e / 2 ^ i)
    · rw [if_neg (by simp [h0]), hsq, show 2 * (e / 2 ^ i / 2) = e / 2 ^ i by omega]
    · rw [if_pos (by simp [h1]), hsq, Nat.mod_mul_mod, ← pow_succ, show 2 * (e / 2 ^ i / 2) + 1 = e / 2 ^ i by omega]

theorem modExp_eq_pow (b e : Nat) {m : Nat} (hm : 2 ≤ m) : modExp b e m = b ^ e % m := by
  have hstart : 1 = (b % m) ^ (e / 2 ^ bitlen e) % m := by
    rw [Nat.div_eq_of_lt (lt_two_pow_bitlen e), pow_zero, Nat.mod_eq_of_lt hm]
  rw [modExp, modExpFrom_eq_pow hstart, ← Nat.pow_mod]

/-- Settles O35. -/
theorem modExpIsThePower : Obligations.ModExpIsThePower := fun b e _ hm => modExp_eq_pow b e hm

/-- An exponent that is 1 modulo p − 1 changes nothing modulo the prime p (Fermat; trivially where p divides m). -/
theorem pow_one_add_mul_modEq {p : Nat} (hp : p.Prime) (m k : Nat) : m ^ (1 + (p - 1) * k) ≡ m [MOD p] := by
  have := Fact.mk hp
  rw [← ZMod.natCast_eq_natCast_iff]
  push_cast
  by_cases hm : (m : ZMod p) = 0
  · rw [hm, zero_pow (by omega)]
  · rw [pow_add, pow_mul, ZMod.pow_card_sub_one_eq_one hm, one_pow, pow_one, mul_one]

/-- The RSA exponents undo each other modulo each of the two primes, so modulo their product (43 R262). -/
theorem pow_mul_modEq_of_primes {p q e d : Nat} (hp : p.Prime) (hq : q.Prime) (hpq : p ≠ q)
    (hed : e * d % ((p - 1) * (q - 1)) = 1) (m : Nat) : m ^ (e * d) ≡ m [MOD p * q] := by
  obtain ⟨k, hk⟩ : ∃ k, e * d = 1 + (p - 1) * (q - 1) * k := ⟨_, hed ▸ (Nat.mod_add_div _ _).symm⟩
  rw [← Nat.modEq_and_modEq_iff_modEq_mul ((Nat.coprime_primes hp hq).mpr hpq)]
  constructor
  · rw [hk, mul_assoc]
    exact pow_one_add_mul_modEq hp m _
  · rw [hk, mul_comm (p - 1), mul_assoc]
    exact pow_one_add_mul_modEq hq m _

/-- Settles O51, by Fermat's theorem for each prime and the Chinese remainder theorem. -/
theorem rsaTransformsUndoEachOther : Obligations.RsaTransformsUndoEachOther := by
  intro p q e d m hp hq hpq hed hm
  have hn : 2 ≤ p * q := hp.two_le.trans (Nat.le_mul_of_pos_right p hq.pos)
  rw [modExp_eq_pow _ d hn, modExp_eq_pow m e hn, ← Nat.pow_mod, ← pow_mul,
    pow_mul_modEq_of_primes hp hq hpq hed m, Nat.mod_eq_of_lt hm]

end Sys2Proof.Machine
end

section
/-! SUPPORT. The modular inverse (43 R254): each remainder of Euclid's loop is its coefficient times `a` modulo `m`, so
the last one, the gcd, is too. -/

namespace Sys2Proof.Machine

theorem euclid_modEq {m a : Int} {fuel r0 r1 : Nat} {t0 t1 : Int} (h0 : a * t0 ≡ r0 [ZMOD m])
    (h1 : a * t1 ≡ r1 [ZMOD m]) : a * (euclid fuel r0 r1 t0 t1).2 ≡ (euclid fuel r0 r1 t0 t1).1 [ZMOD m] := by
  induction fuel generalizing r0 r1 t0 t1 with
  | zero => exact h0
  | succ fuel ih =>
    rw [euclid]
    split
    · exact h0
    · refine ih h1 ?_
      rw [Nat.cast_sub (Nat.div_mul_le_self r0 r1), mul_sub, mul_left_comm]
      push_cast
      exact h0.sub (h1.mul_left _)

theorem euclid_modEq_start (a m : Nat) :
    a * (euclid m m (a % m) 0 1).2 ≡ (euclid m m (a % m) 0 1).1 [ZMOD m] :=
  euclid_modEq (by simp [Int.modEq_iff_dvd]) (by rw [mul_one, Int.natCast_mod]; exact (Int.mod_modEq _ _).symm)

/-- What ModInv answers is below m and an inverse (43 R254). -/
theorem modInv_spec {a m d : Nat} (hm : 2 ≤ m) (h : modInv a m = some d) : d < m ∧ a * d % m = 1 := by
  simp only [modInv] at h
  split at h
  · rename_i hgcd
    obtain rfl := Option.some.inj h
    have hm0 : (m : Int) ≠ 0 := by omega
    have hcast := Int.toNat_of_nonneg (Int.emod_nonneg (euclid m m (a % m) 0 1).2 hm0)
    have hlt := Int.emod_lt_of_pos (euclid m m (a % m) 0 1).2 (b := m) (by omega)
    refine ⟨by omega, ?_⟩
    have hinv : a * (euclid m m (a % m) 0 1).2 ≡ 1 [ZMOD m] := by simpa [hgcd] using euclid_modEq_start a m
    zify
    rw [hcast, Int.mul_emod, Int.emod_emod, ← Int.mul_emod, hinv, Int.emod_eq_of_lt (by omega) (by omega)]
  · cases h

/-- Two inverses of a number below the modulus are equal. -/
theorem eq_of_mul_mod_eq_one {a m d d' : Nat} (hd : d < m) (hd' : d' < m) (h : a * d % m = 1)
    (h' : a * d' % m = 1) : d' = d := by
  have hcop : Nat.Coprime m a := by
    have hdvd : Nat.gcd m a ∣ a * d % m :=
      (Nat.dvd_mod_iff (Nat.gcd_dvd_left m a)).mpr ((Nat.gcd_dvd_right m a).mul_right d)
    exact Nat.dvd_one.mp (h ▸ hdvd)
  exact (Nat.ModEq.cancel_left_of_coprime hcop (h'.trans h.symm)).eq_of_lt_of_lt hd' hd

/-- Settles O36. -/
theorem modInvIsTheUniqueInverse : Obligations.ModInvIsTheUniqueInverse := by
  intro a m hm
  have hnone : modInv a m = none ↔ Nat.gcd a m ≠ 1 := modInv_eq_none_iff (by omega)
  refine ⟨fun hgcd => ?_, hnone.mpr⟩
  obtain ⟨d, hd⟩ := Option.ne_none_iff_exists'.mp (mt hnone.mp (not_not.mpr hgcd))
  obtain ⟨hlt, hinv⟩ := modInv_spec hm hd
  have hpos : d ≠ 0 := by rintro rfl; simp at hinv
  exact ⟨d, hd, by omega, hlt, hinv, fun d' hd' h' => eq_of_mul_mod_eq_one hlt hd' hinv h'⟩

end Sys2Proof.Machine
end

section
/-! SUPPORT. KeyFromInt (43 R252): padding and stripping leave the integer, and what is dropped in the end are the bytes
above the low-order `len`. -/

namespace Sys2Proof.Machine

/-- A string of at most `len` bytes, or without a leading zero byte, is left as it is. -/
theorem stripTo_eq_self {len : Nat} {bs : List Byte} (h : len < bs.length → bs.head? ≠ some 0#8) :
    stripTo len bs = bs := by
  cases bs with
  | nil => rfl
  | cons b bs =>
    rw [stripTo, if_neg]
    rintro ⟨hl, rfl⟩
    exact h hl rfl

/-- MinBytes(m) padded to at least `len` bytes has no zero byte to strip (43 R252). -/
theorem keyFromInt_eq_drop (m len : Nat) :
    keyFromInt m len =
      (List.replicate (len - (minBytes m).length) 0#8 ++ minBytes m).drop ((minBytes m).length - len) := by
  have hstrip : stripTo len (List.replicate (len - (minBytes m).length) 0#8 ++ minBytes m) =
      List.replicate (len - (minBytes m).length) 0#8 ++ minBytes m := by
    refine stripTo_eq_self fun hl hz => ?_
    rw [List.length_append, List.length_replicate] at hl
    rw [Nat.sub_eq_zero_of_le (by omega), List.replicate_zero, List.nil_append] at hz
    obtain ⟨bs, hbs⟩ := List.head?_eq_some_iff.mp hz
    exact head_minBytes_ne_zero hbs rfl
  rw [keyFromInt]
  simp only [hstrip, List.length_append, List.length_replicate]
  congr 1
  omega

theorem length_keyFromInt (m len : Nat) : (keyFromInt m len).length = len := by
  rw [keyFromInt_eq_drop, List.length_drop, List.length_append, List.length_replicate]
  omega

/-- Dropping leading bytes keeps the integer modulo the weight of the rest. -/
theorem os2ip_drop (bs : List Byte) (k : Nat) : os2ip (bs.drop k) = os2ip bs % 256 ^ (bs.drop k).length := by
  conv_rhs => rw [← List.take_append_drop k bs, os2ip_append]
  rw [List.take_append_drop, Nat.mul_add_mod_self_right, Nat.mod_eq_of_lt (os2ip_lt _)]

theorem os2ip_keyFromInt (m len : Nat) : os2ip (keyFromInt m len) = m % 256 ^ len := by
  have hlen := length_keyFromInt m len
  rw [keyFromInt_eq_drop] at hlen ⊢
  rw [os2ip_drop, hlen, os2ip_append, os2ip_replicate_zero, zero_mul, zero_add, os2ip_minBytes]

/-- Settles O37: a byte string is its length and its integer. -/
theorem keyFromIntIsLowOrderBytes : Obligations.KeyFromIntIsLowOrderBytes := by
  refine ⟨⟨os2ip_nil, fun bs b => by simp [os2ip_append]⟩, fun m len => ⟨os2ip_inj ?_ ?_, length_keyFromInt m len,
    os2ip_keyFromInt m len⟩⟩
  · rw [length_keyFromInt, length_i2osp]
  · rw [os2ip_keyFromInt, os2ip_i2osp, Nat.mod_mod]

end Sys2Proof.Machine
end

section
/-! SUPPORT. ChooseE (43 R259, R261): the search skips only exponents that share a factor with φ, and a φ that shares
one with every odd exponent up to 65537 is too large for the hardware. -/

namespace Sys2Proof.Machine

/-- What the search passes: odd exponents as it started, each with a factor in common with φ. -/
theorem searchE_spec {phi fuel e : Nat} :
    e ≤ searchE phi fuel e ∧ searchE phi fuel e % 2 = e % 2 ∧
      ∀ e', e ≤ e' → e' < searchE phi fuel e → e' % 2 = e % 2 → Nat.gcd e' phi ≠ 1 := by
  induction fuel generalizing e with
  | zero => exact ⟨le_rfl, rfl, fun e' h h' => absurd h' (Nat.not_lt.mpr h)⟩
  | succ fuel ih =>
    rw [searchE]
    split
    · exact ⟨le_rfl, rfl, fun e' h h' => absurd h' (Nat.not_lt.mpr h)⟩
    · rename_i hne
      obtain ⟨hle, hmod, hskip⟩ := ih (e := e + 2)
      refine ⟨by omega, by omega, fun e' h h' hm => ?_⟩
      obtain rfl | hlt := Nat.eq_or_lt_of_le h
      · exact hne
      · exact hskip e' (by omega) h' (by omega)

section
variable {phi : Nat}

theorem chooseE_of_coprime (h : Nat.gcd 65537 phi = 1) : chooseE phi = 65537 := if_pos h

theorem chooseE_of_not_coprime (h : Nat.gcd 65537 phi ≠ 1) : chooseE phi = searchE phi (phi + 2) 3 := if_neg h

theorem chooseE_odd (phi : Nat) : chooseE phi % 2 = 1 := by
  by_cases h : Nat.gcd 65537 phi = 1
  · rw [chooseE_of_coprime h]
  · rw [chooseE_of_not_coprime h]
    exact searchE_spec.2.1

/-- Where 65537 is not coprime to φ, the choice is the first odd exponent from 3 that is (43 R259). -/
theorem chooseE_least (h : Nat.gcd 65537 phi ≠ 1) :
    3 ≤ chooseE phi ∧ ∀ e, 3 ≤ e → e < chooseE phi → e % 2 = 1 → Nat.gcd e phi ≠ 1 := by
  rw [chooseE_of_not_coprime h]
  obtain ⟨hle, -, hskip⟩ := searchE_spec (phi := phi) (fuel := phi + 2) (e := 3)
  exact ⟨hle, hskip⟩

/-- A number divided by every odd prime up to 2^16 gives a multiple of lcm(1, …, 2^16): the exponent of an odd prime in
the lcm is at most 10, that of 2 is 16. -/
theorem lcmUpto_dvd_of_odd_primes_dvd (h0 : phi ≠ 0)
    (h : ∀ p, p.Prime → p ≠ 2 → p ≤ 65536 → p ∣ phi) : Nat.lcmUpto 65536 ∣ 2 ^ 16 * phi ^ 10 := by
  rw [← Nat.factorization_prime_le_iff_dvd (Nat.lcmUpto_ne_zero _) (by positivity)]
  intro p hp
  rw [Nat.factorization_lcmUpto _ hp, Nat.factorization_mul (by positivity) (by positivity), Nat.factorization_pow,
    Nat.factorization_pow, Finsupp.add_apply, Finsupp.smul_apply, Finsupp.smul_apply, smul_eq_mul, smul_eq_mul]
  by_cases h2 : p = 2
  · subst h2
    have hlog : Nat.log 2 65536 = 16 := Nat.log_pow (b := 2) (x := 16) (by norm_num)
    rw [hlog, Nat.prime_two.factorization_self]
    omega
  · by_cases hle : p ≤ 65536
    · have hfac : 0 < phi.factorization p := hp.factorization_pos_of_dvd h0 (h p hp h2 hle)
      have hp3 : 3 ≤ p := by have := hp.two_le; omega
      have hlog : Nat.log p 65536 < 11 := Nat.log_lt_of_lt_pow (by norm_num)
        (lt_of_lt_of_le (by norm_num) (Nat.pow_le_pow_left hp3 11))
      omega
    · rw [Nat.log_of_lt (by omega)]
      exact Nat.zero_le _

/-- lcm(1, …, n) has about n bits, so φ has more than 4096. -/
theorem two_pow_le_of_odd_primes_dvd (h0 : phi ≠ 0)
    (h : ∀ p, p.Prime → p ≠ 2 → p ≤ 65536 → p ∣ phi) : 2 ^ 4096 ≤ phi := by
  by_contra! hlt
  have hle : Nat.lcmUpto 65536 ≤ 2 ^ 16 * phi ^ 10 :=
    Nat.le_of_dvd (by positivity) (lcmUpto_dvd_of_odd_primes_dvd h0 h)
  have hbits : (2 : Nat) ^ 65536 ≤ 2 ^ (17 + (16 + 4096 * 10)) := calc
    2 ^ 65536 ≤ (65536 + 1) * Nat.lcmUpto 65536 := Chebyshev.two_pow_le_mul_lcmUpto 65536
    _ ≤ 2 ^ 17 * (2 ^ 16 * phi ^ 10) := Nat.mul_le_mul (by norm_num) hle
    _ ≤ 2 ^ 17 * (2 ^ 16 * (2 ^ 4096) ^ 10) := by gcongr
    _ = 2 ^ (17 + (16 + 4096 * 10)) := by rw [← pow_mul, ← pow_add, ← pow_add]
  exact absurd ((Nat.pow_le_pow_iff_right Nat.one_lt_two).mp hbits) (by norm_num)

/-- For every φ the hardware can hold, ChooseE answers at most 65537 (43 R261). -/
theorem chooseE_le (h0 : 1 ≤ phi) (hlt : phi < 2 ^ 4096) : chooseE phi ≤ 65537 := by
  by_cases hc : Nat.gcd 65537 phi = 1
  · rw [chooseE_of_coprime hc]
  · by_contra! hgt
    refine absurd (two_pow_le_of_odd_primes_dvd (by omega) fun p hp h2 hle => ?_) (Nat.not_le.mpr hlt)
    have hp2 := hp.two_le
    exact hp.dvd_iff_not_coprime.mpr
      ((chooseE_least hc).2 p (by omega) (by omega) (hp.eq_two_or_odd.resolve_left h2))

end

/-- Settles O38. -/
theorem chooseEFindsTheFirstCoprimeOdd : Obligations.ChooseEFindsTheFirstCoprimeOdd := fun phi h =>
  ⟨gcd_chooseE h, chooseE_odd phi, chooseE_of_coprime, chooseE_least, chooseE_le h⟩

end Sys2Proof.Machine
end

section
/-! SUPPORT. The probable-prime test (43 R256, R257): its verdict is trial division's, or that of k Miller–Rabin rounds,
each of which a prime passes. -/

namespace Sys2Proof.Machine

/-! Trial division. -/

/-- Trial division rejects only a number with a proper divisor in the list. -/
theorem exists_ne_of_trialDivision {n : Nat} {ps : List Nat} (h : trialDivision n ps = some false) :
    ∃ p ∈ ps, n % p = 0 ∧ n ≠ p := by
  induction ps with
  | nil => cases h
  | cons p ps ih =>
    rw [trialDivision] at h
    split_ifs at h with heq hdvd
    · cases h
    · exact ⟨p, List.mem_cons_self, hdvd, heq⟩
    · obtain ⟨q, hq, hn⟩ := ih h
      exact ⟨q, List.mem_cons_of_mem _ hq, hn⟩

theorem trialDivision_smallPrimes_eq_none_iff {n : Nat} :
    trialDivision n Config.smallPrimes = none ↔ ∀ p : Nat, p.Prime → p ≤ 97 → n % p ≠ 0 := by
  rw [trialDivision_eq_none_iff]
  constructor
  · exact fun h p hp hle => (h p (mem_smallPrimes_iff.mpr ⟨hp, hle⟩)).1
  · intro h p hmem
    obtain ⟨hp, hle⟩ := mem_smallPrimes_iff.mp hmem
    exact ⟨h p hp hle, fun heq => h p hp hle (by rw [heq, Nat.mod_self])⟩

section
variable {n : Nat}

/-- Trial division settles a prime only as one. -/
theorem trialDivision_smallPrimes_of_prime (hn : n.Prime) {v : Bool}
    (h : trialDivision n Config.smallPrimes = some v) : v = true := by
  cases v with
  | true => rfl
  | false =>
    obtain ⟨p, hmem, hdvd, hne⟩ := exists_ne_of_trialDivision h
    have hp : p.Prime := (mem_smallPrimes_iff.mp hmem).1
    exact absurd ((Nat.prime_dvd_prime_iff_eq hp hn).mp (Nat.dvd_of_mod_eq_zero hdvd)).symm hne

/-- Trial division rejects a number with a prime factor up to 97 other than itself. -/
theorem trialDivision_smallPrimes_of_factor {p : Nat} (hp : p.Prime) (hle : p ≤ 97) (hdvd : p ∣ n) (hne : n ≠ p) :
    trialDivision n Config.smallPrimes = some false := by
  rcases h : trialDivision n Config.smallPrimes with _ | _ | _
  · exact absurd (Nat.mod_eq_zero_of_dvd hdvd) (trialDivision_smallPrimes_eq_none_iff.mp h p hp hle)
  · rfl
  · have hn : n.Prime := (mem_smallPrimes_iff.mp (mem_of_trialDivision h)).1
    exact absurd ((Nat.prime_dvd_prime_iff_eq hp hn).mp hdvd).symm hne

/-! The test. -/

theorem isProbablePrime_of_lt_two (hn : n < 2) (k : Nat) (ds : List Nat) :
    isProbablePrime n k ds = some (false, ds) := if_pos hn

theorem isProbablePrime_of_trialDivision (hn : 2 ≤ n) {v : Bool}
    (h : trialDivision n Config.smallPrimes = some v) (k : Nat) (ds : List Nat) :
    isProbablePrime n k ds = some (v, ds) := by
  rw [isProbablePrime, if_neg (by omega), h]

theorem isProbablePrime_of_no_factor {d r : Nat} (hn : 2 ≤ n) (h : ∀ p : Nat, p.Prime → p ≤ 97 → n % p ≠ 0)
    (hd : d % 2 = 1) (hdr : n - 1 = d * 2 ^ r) (k : Nat) (ds : List Nat) :
    isProbablePrime n k ds = millerRabin n d r k ds := by
  rw [isProbablePrime, if_neg (by omega), trialDivision_smallPrimes_eq_none_iff.mpr h]
  simp only [splitTwos_eq hn hd hdr]

/-- Past trial division n is odd, so n − 1 has a factor 2. -/
theorem one_le_of_no_factor {d r : Nat} (hn : 2 ≤ n) (h : ∀ p : Nat, p.Prime → p ≤ 97 → n % p ≠ 0)
    (hd : d % 2 = 1) (hdr : n - 1 = d * 2 ^ r) : 1 ≤ r := by
  by_contra hr
  have h2 := h 2 Nat.prime_two (by norm_num)
  rw [show r = 0 by omega, pow_zero] at hdr
  omega

/-! One round. -/

/-- The base of a round is in its range (00 R13). -/
theorem drawRange_bounds {lo hi : Nat} (h : lo ≤ hi) (v : Nat) : lo ≤ drawRange lo hi v ∧ drawRange lo hi v ≤ hi := by
  have hlt : (v - lo) % (hi - lo + 1) < hi - lo + 1 := Nat.mod_lt _ (Nat.succ_pos _)
  exact ⟨Nat.le_add_right _ _, by rw [drawRange]; omega⟩

/-- The round computed by repeated squaring is the round stated by powers (43 R256). -/
theorem roundPasses_iff {d r a : Nat} (hn : 2 ≤ n) (hr : 1 ≤ r) :
    roundPasses n d r a = true ↔ passesRound n d r a := by
  have hsq : ∀ i, (a ^ d % n) ^ 2 ^ i % n = a ^ (d * 2 ^ i) % n := fun i => by rw [← Nat.pow_mod, ← pow_mul]
  simp only [roundPasses, Bool.or_eq_true, beq_iff_eq, squaringReaches_iff, modExp_eq_pow a d hn, hsq, passesRound,
    or_assoc]
  refine or_congr_right ⟨?_, ?_⟩
  · rintro (h | ⟨i, -, hi, h⟩)
    · exact ⟨0, hr, by simpa using h⟩
    · exact ⟨i, by omega, h⟩
  · rintro ⟨j, hj, h⟩
    cases j with
    | zero => exact .inl (by simpa using h)
    | succ j => exact .inr ⟨j + 1, by omega, by omega, h⟩

theorem roundPasses_eq_false_iff {d r a : Nat} (hn : 2 ≤ n) (hr : 1 ≤ r) :
    roundPasses n d r a = false ↔ ¬ passesRound n d r a := by
  rw [← roundPasses_iff hn hr, Bool.not_eq_true]

/-- In a field a 2^r-th root of 1 is 1, or a square of it before the last is −1. -/
theorem eq_one_or_exists_pow_eq_neg_one {F : Type} [Field F] {x : F} {r : Nat} (h : x ^ 2 ^ r = 1) :
    x = 1 ∨ ∃ j < r, x ^ 2 ^ j = -1 := by
  induction r with
  | zero => exact .inl (by simpa using h)
  | succ r ih =>
    rw [pow_succ, pow_mul, pow_two, mul_self_eq_one_iff] at h
    obtain h | h := h
    · exact (ih h).imp_right fun ⟨j, hj, hx⟩ => ⟨j, by omega, hx⟩
    · exact .inr ⟨r, by omega, h⟩

/-- A prime passes the round of every base it does not divide (43 R257). -/
theorem passesRound_of_prime {d r a : Nat} (hn : n.Prime) (hdr : n - 1 = d * 2 ^ r) (ha : ¬ n ∣ a) :
    passesRound n d r a := by
  have := Fact.mk hn
  have mod_eq : ∀ x y : Nat, y < n → (x : ZMod n) = y → x % n = y := fun x y hy h => by
    rw [(ZMod.natCast_eq_natCast_iff' x y n).mp h, Nat.mod_eq_of_lt hy]
  have fermat : ((a : ZMod n) ^ d) ^ 2 ^ r = 1 := by
    rw [← pow_mul, ← hdr]
    exact ZMod.pow_card_sub_one_eq_one (mt (ZMod.natCast_eq_zero_iff a n).mp ha)
  obtain h | ⟨j, hj, h⟩ := eq_one_or_exists_pow_eq_neg_one fermat
  · exact .inl (mod_eq _ 1 hn.one_lt (by push_cast; exact h))
  · refine .inr ⟨j, hj, mod_eq _ (n - 1) (Nat.sub_lt hn.pos one_pos) ?_⟩
    rw [Nat.cast_pred hn.pos, ZMod.natCast_self, zero_sub, ← h, ← pow_mul]
    push_cast
    rfl

/-! The verdict. -/

/-- What k rounds answer on the draws `ds`, and how many of them they take, by the round that R256 states. -/
theorem millerRabin_verdict {d r k : Nat} {ds rest : List Nat} {b : Bool} (hn : 2 ≤ n) (hr : 1 ≤ r)
    (h : millerRabin n d r k ds = some (b, rest)) :
    ∃ taken, rest = ds.drop taken ∧ taken ≤ ds.length ∧
      (b = true ↔ ∀ v ∈ ds.take k, passesRound n d r (drawRange 2 (n - 2) v)) ∧
      (b = true → taken = k) ∧
      (b = false → 1 ≤ taken ∧ taken ≤ k ∧
        (∀ v ∈ ds.take (taken - 1), passesRound n d r (drawRange 2 (n - 2) v)) ∧
        ¬ passesRound n d r (drawRange 2 (n - 2) (ds.getD (taken - 1) 0))) := by
  obtain ⟨taken, hk, hlen, hrest, hpass, hfail⟩ := millerRabin_spec h
  simp only [roundPasses_iff hn hr, roundPasses_eq_false_iff hn hr] at hpass hfail
  refine ⟨taken, hrest, hlen, ⟨fun hb => (hpass hb).2, fun hall => ?_⟩, fun hb => (hpass hb).1, fun hb => ?_⟩
  · by_contra hb
    obtain ⟨h1, -, hlast⟩ := hfail (by simpa using hb)
    have hlt : taken - 1 < ds.length := by omega
    refine hlast (hall _ ?_)
    rw [List.getD_eq_getElem _ _ hlt]
    exact List.mem_take_iff_getElem.mpr ⟨taken - 1, by omega, rfl⟩
  · obtain ⟨h1, hfirst, hlast⟩ := hfail hb
    exact ⟨h1, hk, hfirst, hlast⟩

/-- The test answers true for every prime (43 R257). -/
theorem isProbablePrime_of_prime (hn : n.Prime) {k : Nat} {ds rest : List Nat} {b : Bool}
    (h : isProbablePrime n k ds = some (b, rest)) : b = true := by
  rcases ht : trialDivision n Config.smallPrimes with _ | v
  · rw [trialDivision_smallPrimes_eq_none_iff] at ht
    obtain ⟨hd, hdr⟩ := splitTwos_spec (m := n - 1) (Nat.sub_pos_of_lt hn.one_lt) (lt_two_pow_bitlen _)
    rw [isProbablePrime_of_no_factor hn.two_le ht hd hdr] at h
    obtain ⟨taken, -, -, hall, -⟩ :=
      millerRabin_verdict hn.two_le (one_le_of_no_factor hn.two_le ht hd hdr) h
    have hn2 : n ≠ 2 := fun h2 => ht 2 Nat.prime_two (by norm_num) (by rw [h2])
    have hn3 : n ≠ 3 := fun h3 => ht 3 Nat.prime_three (by norm_num) (by rw [h3])
    have hn' := hn.two_le
    refine hall.mpr fun v _ => passesRound_of_prime hn hdr fun hdvd => ?_
    obtain ⟨hlo, hhi⟩ := drawRange_bounds (lo := 2) (hi := n - 2) (by omega) v
    have hle := Nat.le_of_dvd (by omega) hdvd
    omega
  · rw [isProbablePrime_of_trialDivision hn.two_le ht] at h
    cases h
    exact trialDivision_smallPrimes_of_prime hn ht

end

/-! PRIMETEST (44 R300). -/

section
variable {s : State}

theorem State.rounds_eq_zero_iff : s.rounds = 0 ↔ s.mrRounds = 0#8 := BitVec.toNat_inj (y := 0#8)

theorem exec_primetest_of_no_rounds (hk : s.rounds = 0) : exec .primetest s = .next (s.raise .badarg) := if_pos hk

theorem exec_primetest_of_settled (hk : s.rounds ≠ 0) {v : Bool × List Nat}
    (h : isProbablePrime (s.getBig .x) s.rounds s.draws = some v) :
    exec .primetest s = .next (finishPrimetest s v) := by
  obtain ⟨h0, -⟩ | ⟨-, v', h', e⟩ | ⟨-, h', -⟩ := execPrimetest_cases s
  · exact absurd h0 hk
  · rw [Option.some.inj (h.symm.trans h')]
    exact e
  · rw [h] at h'; cases h'

end

/-- Settles O39. -/
theorem primetestAcceptsEveryPrime : Obligations.PrimetestAcceptsEveryPrime := by
  intro s hk hx
  obtain ⟨h0, -⟩ | ⟨-, ⟨b, rest⟩, hv, e⟩ | ⟨-, -, ⟨b, rest⟩, hv, e⟩ := execPrimetest_cases s
  · exact absurd (State.rounds_eq_zero_iff.mp h0) hk
  · obtain rfl := isProbablePrime_of_prime hx hv
    exact ⟨_, e, rfl⟩
  · obtain rfl := isProbablePrime_of_prime hx hv
    exact ⟨_, e, rfl⟩

/-- Settles O40: trial division rejects such a number. -/
theorem primetestRejectsSmallFactors : Obligations.PrimetestRejectsSmallFactors := by
  refine ⟨fun s p hk hx => ?_, fun s hk => exec_primetest_of_no_rounds (State.rounds_eq_zero_iff.mpr hk)⟩
  have hv : isProbablePrime (s.getBig .x) s.rounds s.draws = some (false, s.draws) := by
    by_cases h2 : s.getBig .x < 2
    · exact isProbablePrime_of_lt_two h2 _ _
    · obtain ⟨hp, hle, hdvd, hne⟩ := hx.resolve_left h2
      exact isProbablePrime_of_trialDivision (by omega) (trialDivision_smallPrimes_of_factor hp hle hdvd hne) _ _
  exact exec_primetest_of_settled (mt State.rounds_eq_zero_iff.mp hk) hv

/-- Settles O41: the draws listed settle the rounds, and the supplied ones behind them change nothing; or all of those
listed pass, and the round that settles the test takes a supplied one. -/
theorem primetestIsMillerRabin : Obligations.PrimetestIsMillerRabin := by
  rintro s n k d r ds rfl rfl hk hn hfac hd hdr hds
  have hsupplied : (s.supplyDraws s.rounds).draws = ds := hds.symm
  obtain ⟨more, hds⟩ : ∃ more, ds = s.draws ++ more := ⟨_, hds⟩
  have htest := isProbablePrime_of_no_factor hn hfac hd hdr s.rounds
  have hr := one_le_of_no_factor hn hfac hd hdr
  obtain ⟨h0, -⟩ | ⟨-, ⟨b, rest⟩, hv, e⟩ | ⟨-, hnone, ⟨b, rest⟩, hv, e⟩ := execPrimetest_cases s
  · exact absurd h0 hk
  · rw [htest] at hv
    obtain ⟨taken, hrest, hlen, hiff, htrue, hfalse⟩ :=
      millerRabin_verdict hn hr (hds ▸ millerRabin_append (more := more) hv)
    have hlen : taken ≤ s.draws.length := by
      have hl := congrArg List.length hrest
      simp only [hds, List.length_append, List.length_drop] at hl hlen
      omega
    rw [hds, List.drop_append_of_le_length hlen] at hrest
    exact ⟨_, taken, e, rfl, hiff, htrue, hfalse, fun _ => ⟨List.append_cancel_right hrest, rfl⟩,
      fun hlt => absurd hlen (Nat.not_le.mpr hlt)⟩
  · rw [htest] at hnone
    rw [htest, hsupplied] at hv
    obtain ⟨hshort, hpass⟩ := millerRabin_none hnone
    obtain ⟨taken, hrest, -, hiff, htrue, hfalse⟩ := millerRabin_verdict hn hr hv
    refine ⟨_, taken, e, rfl, hiff, htrue, hfalse, fun hle => ?_, fun _ => ⟨hrest, rfl⟩⟩
    cases b with
    | true => exact absurd (htrue rfl ▸ hle) (Nat.not_le.mpr hshort)
    | false =>
      obtain ⟨h1, -, -, hlast⟩ := hfalse rfl
      have hlt : taken - 1 < s.draws.length := by omega
      rw [hds, List.getD_append _ _ _ _ hlt, List.getD_eq_getElem _ _ hlt, ← roundPasses_iff hn hr] at hlast
      exact absurd (hpass _ (List.getElem_mem hlt)) hlast

end Sys2Proof.Machine
end

section
/-! SUPPORT. Key generation (43 R258 to R261, 44 R301, R303): what GENPRIME and KEYGEN do once their draws settle them,
and that every value they write is within its register. -/

namespace Sys2Proof.Machine

/-! GENPRIME. -/

/-- GenPrime's answer has exactly `h` bits and is odd (43 R258). -/
theorem genPrime_bounds {h k c : Nat} {ds rest : List Nat} (hh : 1 ≤ h) (hg : genPrime h k ds = some (c, rest)) :
    c % 2 = 1 ∧ 2 ^ (h - 1) ≤ c ∧ c < 2 ^ h := by
  obtain ⟨-, _, _, rfl, -, -⟩ := genPrime_spec hg
  exact candidate_spec hh

section
variable {s : State}

/-- The operands GENPRIME takes (44 R301). -/
def State.genprimeLegal (s : State) : Prop :=
  2 ≤ s.rsaBits.toNat ∧ s.rsaBits.toNat ≤ s.params.rsaMaxBits ∧ s.rounds ≠ 0

/-- GENPRIME's completion leaves `c` in X as it is: it has no more than RSA_BITS bits. -/
theorem exec_genprime_of_settled (legal : s.genprimeLegal) {c : Nat} {ds : List Nat}
    (hg : genPrime s.rsaBits.toNat s.rounds s.draws = some (c, ds)) :
    exec .genprime s = .next
      { s with big := { s.big with x := c }, draws := ds, err := .ok, phase := .idle, done := true } := by
  obtain ⟨h2, hmax, hk⟩ := legal
  obtain ⟨bad, -⟩ | ⟨-, -, -, ⟨c', ds', hg', e⟩ | ⟨hg', -⟩⟩ := execGenprime_cases s
  · omega
  · obtain ⟨rfl, rfl⟩ := Prod.mk.inj (Option.some.inj (hg.symm.trans hg'))
    obtain ⟨-, -, hlt⟩ := genPrime_bounds (by omega) hg
    have hc : c % 2 ^ s.params.rsaMaxBits = c :=
      Nat.mod_eq_of_lt (hlt.trans_le (Nat.pow_le_pow_right two_pos hmax))
    rw [exec, e]
    simp only [State.setBig, BigRegs.set, State.leaveDraws, State.complete, hc]
  · rw [hg] at hg'; cases hg'

theorem exec_genprime_of_unsettled (legal : s.genprimeLegal)
    (hg : genPrime s.rsaBits.toNat s.rounds s.draws = none) :
    exec .genprime s = .next (s.supplyDraws (s.rounds + 1)) := by
  obtain ⟨h2, hmax, hk⟩ := legal
  obtain ⟨bad, -⟩ | ⟨-, -, -, ⟨c, ds, hg', -⟩ | ⟨-, e⟩⟩ := execGenprime_cases s
  · omega
  · rw [hg] at hg'; cases hg'
  · exact e

theorem exec_genprime_of_illegal (illegal : ¬ s.genprimeLegal) : exec .genprime s = .next (s.raise .badarg) := by
  obtain ⟨-, e⟩ | ⟨h2, hmax, hk, -⟩ := execGenprime_cases s
  · exact e
  · exact absurd ⟨h2, hmax, hk⟩ illegal

end

/-- Settles O43: GenPrime on the draws listed is GenPrime on those its first candidate leaves. -/
theorem genprimeTriesCandidatesInTurn : Obligations.GenprimeTriesCandidatesInTurn := by
  rintro s _ _ _ v ds rest rfl rfl h2 hmax hk hbusy hdraws rfl
  have legal : s.genprimeLegal := ⟨h2, hmax, hk⟩
  have hg := genPrime_cons s.rsaBits.toNat s.rounds v ds
  rw [← hdraws] at hg
  refine ⟨fun hpass => exec_genprime_of_settled legal ?_, fun hfail t ht hidle => ?_⟩
  · exact hg.trans (by rw [show isProbablePrime (candidate _ v) s.rounds ds = _ from hpass]; rfl)
  · have hrest : genPrime s.rsaBits.toNat s.rounds s.draws = genPrime s.rsaBits.toNat s.rounds rest :=
      hg.trans (by rw [show isProbablePrime (candidate _ v) s.rounds ds = _ from hfail])
    have legal' : State.genprimeLegal { s with draws := rest } := legal
    rcases hg' : genPrime s.rsaBits.toNat s.rounds rest with _ | ⟨c, ds'⟩
    · rw [exec_genprime_of_unsettled legal' hg'] at ht
      cases ht
      exact absurd (hbusy.symm.trans hidle) nofun
    · rw [exec_genprime_of_settled legal' hg'] at ht
      rw [exec_genprime_of_settled legal (hrest.trans hg'), ← ht]

/-- Settles O44, by what GenPrime can answer. -/
theorem genprimeGivesAnOddProbablePrimeOfTheWidth : Obligations.GenprimeGivesAnOddProbablePrimeOfTheWidth := by
  refine ⟨decode_encode .genprime, fun s t hbusy ht hidle hok => ?_, fun s hbad => ?_⟩
  · by_cases legal : s.genprimeLegal
    · rcases hg : genPrime s.rsaBits.toNat s.rounds s.draws with _ | ⟨c, ds⟩
      · rw [exec_genprime_of_unsettled legal hg] at ht
        cases ht
        exact absurd (hbusy.symm.trans hidle) nofun
      · rw [exec_genprime_of_settled legal hg] at ht
        cases ht
        obtain ⟨hodd, hlo, hhi⟩ := genPrime_bounds (one_le_two.trans legal.1) hg
        obtain ⟨-, v, us, hc, htest, hsuffix⟩ := genPrime_spec hg
        exact ⟨rfl, hodd, hlo, hhi, v, us, hsuffix, hc, htest⟩
    · rw [exec_genprime_of_illegal legal] at ht
      cases ht
      cases hok
  · refine exec_genprime_of_illegal fun ⟨h2, hmax, hk⟩ => ?_
    rw [← State.rounds_eq_zero_iff] at hbad
    omega

/-! The six values of a keypair. -/

/-- E is 65537, or an exponent from 3 below it: 65537 itself is not the search's answer, since it shares a factor with
PHI (43 R261). -/
theorem chooseE_range {phi : Nat} (h0 : 1 ≤ phi) (hlt : phi < 2 ^ 4096) :
    chooseE phi = 65537 ∨ (3 ≤ chooseE phi ∧ chooseE phi < 65537) := by
  by_cases hc : Nat.gcd 65537 phi = 1
  · exact .inl (chooseE_of_coprime hc)
  · have hne : chooseE phi ≠ 65537 := fun h => hc (h ▸ gcd_chooseE h0)
    exact .inr ⟨(chooseE_least hc).1, lt_of_le_of_ne (chooseE_le h0 hlt) hne⟩

/-- The keypair of p and q, with the inverse of its E as its D (43 R260, R261). -/
theorem exists_keyPairOf {p q : Nat} (hphi : 2 ≤ (p - 1) * (q - 1)) :
    ∃ d, keyPairOf p q = some ⟨p, q, p * q, (p - 1) * (q - 1), chooseE ((p - 1) * (q - 1)), d⟩ ∧
      d < (p - 1) * (q - 1) ∧ chooseE ((p - 1) * (q - 1)) * d % ((p - 1) * (q - 1)) = 1 := by
  have hne : modInv (chooseE ((p - 1) * (q - 1))) ((p - 1) * (q - 1)) ≠ none := fun hnone =>
    (modInv_eq_none_iff (by omega)).mp hnone (gcd_chooseE (by omega))
  obtain ⟨d, hd⟩ := Option.ne_none_iff_exists'.mp hne
  exact ⟨d, by simp only [keyPairOf, hd], modInv_spec hphi hd⟩

theorem keyPrimes_of_first {b k p q : Nat} {draws ds rest : List Nat}
    (hp : genPrime (b / 2) k draws = some (p, ds)) (hq : genPrime (b / 2) k ds = some (q, rest)) (hne : q ≠ p) :
    keyPrimes b k draws = some (p, q, rest) := by
  simp only [keyPrimes, hp, genOther, hq, if_neg hne]

/-- A q equal to p is drawn again; the first draw took one, so there is fuel for it (43 R260). -/
theorem keyPrimes_of_redraw {b k p q : Nat} {draws ds rest rest' : List Nat}
    (hp : genPrime (b / 2) k draws = some (p, ds)) (hpp : genPrime (b / 2) k ds = some (p, rest))
    (hq : genPrime (b / 2) k rest = some (q, rest')) (hne : q ≠ p) :
    keyPrimes b k draws = some (p, q, rest') := by
  obtain ⟨hlen, -⟩ := genPrime_spec hpp
  obtain ⟨fuel, hfuel⟩ : ∃ fuel, ds.length = fuel + 1 := ⟨ds.length - 1, by omega⟩
  simp only [keyPrimes, hp, hfuel, genOther, hpp, if_true, hq, if_neg hne]

/-! KEYGEN. -/

section
variable {s : State}

/-- The operands KEYGEN takes (44 R303). -/
def State.keygenLegal (s : State) : Prop :=
  s.rsaBits.toNat % 2 = 0 ∧ 16 ≤ s.rsaBits.toNat ∧ s.rsaBits.toNat ≤ s.params.rsaMaxBits ∧ s.rounds ≠ 0

theorem exec_keygen_of_illegal (illegal : ¬ s.keygenLegal) : exec .keygen s = .next (s.raise .badarg) := by
  obtain ⟨-, e⟩ | ⟨heven, h16, hmax, hk, -⟩ := execKeygen_cases s
  · exact e
  · exact absurd ⟨heven, h16, hmax, hk⟩ illegal

theorem exec_keygen_of_unsettled (legal : s.keygenLegal)
    (hg : keyPrimes s.rsaBits.toNat s.rounds s.draws = none) :
    exec .keygen s = .next (s.supplyDraws (s.rounds + 1)) := by
  obtain ⟨heven, h16, hmax, hk⟩ := legal
  obtain ⟨bad, -⟩ | ⟨-, -, -, -, ⟨-, e⟩ | ⟨p, q, ds, hg', -⟩⟩ := execKeygen_cases s
  · omega
  · exact e
  · rw [hg] at hg'; cases hg'

theorem exec_keygen_of_keyPairOf (legal : s.keygenLegal) {p q : Nat} {ds : List Nat} {kp : KeyPair}
    (hg : keyPrimes s.rsaBits.toNat s.rounds s.draws = some (p, q, ds)) (hkp : keyPairOf p q = some kp) :
    exec .keygen s = .next ((s.setKeyPair kp).leaveDraws ds).complete := by
  obtain ⟨heven, h16, hmax, hk⟩ := legal
  obtain ⟨bad, -⟩ | ⟨-, -, -, -, ⟨hg', -⟩ | ⟨p', q', ds', hg', hpair⟩⟩ := execKeygen_cases s
  · omega
  · rw [hg] at hg'; cases hg'
  · cases hg.symm.trans hg'
    obtain ⟨hnone, -⟩ | ⟨kp', hkp', e⟩ := hpair
    · rw [hkp] at hnone; cases hnone
    · cases hkp.symm.trans hkp'
      exact e

/-- The primes of a keypair have half of RSA_BITS bits each, so N has RSA_BITS of them or one less (43 R261). -/
theorem keyPrimes_bounds {b k p q : Nat} {draws ds : List Nat} (heven : b % 2 = 0) (h16 : 16 ≤ b)
    (hg : keyPrimes b k draws = some (p, q, ds)) :
    2 ^ 7 ≤ p ∧ 2 ^ 7 ≤ q ∧ 2 ^ (b - 2) ≤ p * q ∧ p * q < 2 ^ b := by
  obtain ⟨-, ⟨_, _, hp⟩, _, hq⟩ := keyPrimes_spec hg
  obtain ⟨-, hplo, hphi⟩ := genPrime_bounds (by omega) hp
  obtain ⟨-, hqlo, hqhi⟩ := genPrime_bounds (by omega) hq
  have h7 : 2 ^ 7 ≤ 2 ^ (b / 2 - 1) := Nat.pow_le_pow_right two_pos (by omega)
  have hlo : 2 ^ (b - 2) = 2 ^ (b / 2 - 1) * 2 ^ (b / 2 - 1) := by rw [← pow_add]; congr 1; omega
  have hhi : 2 ^ b = 2 ^ (b / 2) * 2 ^ (b / 2) := by rw [← pow_add]; congr 1; omega
  exact ⟨h7.trans hplo, h7.trans hqlo, hlo ▸ Nat.mul_le_mul hplo hqlo, hhi ▸ Nat.mul_lt_mul'' hphi hqhi⟩

theorem phi_bounds {p q : Nat} (hp : 2 ^ 7 ≤ p) (hq : 2 ^ 7 ≤ q) :
    2 ≤ (p - 1) * (q - 1) ∧ (p - 1) * (q - 1) ≤ p * q :=
  ⟨(show 2 ≤ p - 1 by omega).trans (Nat.le_mul_of_pos_right _ (by omega)),
    Nat.mul_le_mul (Nat.sub_le p 1) (Nat.sub_le q 1)⟩

theorem Params.rsaMaxBits_bounds {P : Params} (hv : P.valid = true) : 512 ≤ P.rsaMaxBits ∧ P.rsaMaxBits ≤ 4096 := by
  simp only [Params.valid, Params.rsaMaxBitsValid, Bool.and_eq_true, decide_eq_true_eq] at hv
  obtain ⟨⟨⟨⟨-, hmin⟩, hmax⟩, -⟩, -⟩ := hv
  exact ⟨hmin, hmax⟩

/-- PHI is a modulus ModInv takes, and one the hardware can hold. -/
theorem keyPrimes_phi_bounds (hv : s.params.valid = true) (legal : s.keygenLegal) {p q : Nat} {ds : List Nat}
    (hg : keyPrimes s.rsaBits.toNat s.rounds s.draws = some (p, q, ds)) :
    2 ≤ (p - 1) * (q - 1) ∧ (p - 1) * (q - 1) < 2 ^ 4096 := by
  obtain ⟨heven, h16, hmax, -⟩ := legal
  obtain ⟨hp, hq, -, hn⟩ := keyPrimes_bounds heven h16 hg
  obtain ⟨hphi, hphin⟩ := phi_bounds hp hq
  have hbits : s.rsaBits.toNat ≤ 4096 := hmax.trans (Params.rsaMaxBits_bounds hv).2
  exact ⟨hphi, hphin.trans_lt (hn.trans_le (pow_le_pow_right₀ one_le_two hbits))⟩

/-- Both primes of a keypair passed the test (43 R261). -/
theorem isProbablePrime_of_keyPrimes {b k p q : Nat} {draws ds : List Nat}
    (hg : keyPrimes b k draws = some (p, q, ds)) :
    ∀ n ∈ [p, q], ∃ us us', isProbablePrime n k us = some (true, us') := by
  obtain ⟨-, ⟨_, _, hp⟩, _, hq⟩ := keyPrimes_spec hg
  obtain ⟨-, _, us, -, hpp, -⟩ := genPrime_spec hp
  obtain ⟨-, _, vs, -, hqp, -⟩ := genPrime_spec hq
  simp only [List.forall_mem_cons, List.not_mem_nil, false_imp_iff, implies_true, and_true]
  exact ⟨⟨us, _, hpp⟩, vs, _, hqp⟩

/-- A keypair within the registers' width is written whole. -/
theorem State.setKeyPair_of_lt {kp : KeyPair}
    (h : ∀ v ∈ [kp.p, kp.q, kp.n, kp.phi, kp.e, kp.d], v < 2 ^ s.params.rsaMaxBits) :
    s.setKeyPair kp = { s with
      big := { p := kp.p, q := kp.q, n := kp.n, phi := kp.phi, e := kp.e, d := kp.d,
               x := s.big.x, y := s.big.y } } := by
  simp only [List.forall_mem_cons, List.not_mem_nil, false_imp_iff, implies_true, and_true] at h
  obtain ⟨hp, hq, hn, hphi, he, hd⟩ := h
  simp only [State.setKeyPair, Nat.mod_eq_of_lt, hp, hq, hn, hphi, he, hd]

/-- KEYGEN's completion on the primes drawn: the keypair's values are within their registers, so each is written whole,
and D is E's inverse (43 R260, R261; 44 R303). -/
theorem exec_keygen_of_settled (hv : s.params.valid = true) (legal : s.keygenLegal) {p q : Nat} {ds : List Nat}
    (hg : keyPrimes s.rsaBits.toNat s.rounds s.draws = some (p, q, ds)) :
    ∃ d, exec .keygen s = .next { s with
        big := { p := p, q := q, n := p * q, phi := (p - 1) * (q - 1), e := chooseE ((p - 1) * (q - 1)), d := d,
                 x := s.big.x, y := s.big.y },
        draws := ds, err := .ok, phase := .idle, done := true } ∧
      d < (p - 1) * (q - 1) ∧ chooseE ((p - 1) * (q - 1)) * d % ((p - 1) * (q - 1)) = 1 := by
  have ⟨heven, h16, hmax, _⟩ := legal
  obtain ⟨hp, hq, -, hn⟩ := keyPrimes_bounds heven h16 hg
  obtain ⟨hphi, h4096⟩ := keyPrimes_phi_bounds hv legal hg
  obtain ⟨-, hphin⟩ := phi_bounds hp hq
  obtain ⟨d, hkp, hd, hinv⟩ := exists_keyPairOf hphi
  have width : p * q < 2 ^ s.params.rsaMaxBits := hn.trans_le (Nat.pow_le_pow_right two_pos hmax)
  have he : chooseE ((p - 1) * (q - 1)) ≤ 65537 := chooseE_le (one_le_two.trans hphi) h4096
  have h17 : 2 ^ 17 ≤ 2 ^ s.params.rsaMaxBits :=
    Nat.pow_le_pow_right two_pos ((by norm_num : 17 ≤ 512).trans (Params.rsaMaxBits_bounds hv).1)
  have hpn : p ≤ p * q := Nat.le_mul_of_pos_right p (by omega)
  have hqn : q ≤ p * q := Nat.le_mul_of_pos_left q (by omega)
  refine ⟨d, ?_, hd, hinv⟩
  rw [exec_keygen_of_keyPairOf legal hg hkp, State.setKeyPair_of_lt]
  · rfl
  · simp only [List.forall_mem_cons, List.not_mem_nil, false_imp_iff, implies_true, and_true]
    exact ⟨by omega, by omega, by omega, by omega, by omega, by omega⟩

end

/-- Settles O46, by what the draws of two primes give. -/
theorem keygenBuildsTheKeypair : Obligations.KeygenBuildsTheKeypair := by
  refine ⟨decode_encode .keygen, ?_⟩
  rintro s _ _ p q q' ds rest rest' hv rfl rfl heven h16 hmax hk hp hq
  have legal : s.keygenLegal := ⟨heven, h16, hmax, hk⟩
  refine ⟨fun hne => exec_keygen_of_settled hv legal (keyPrimes_of_first hp hq hne), ?_⟩
  rintro rfl hq' hne
  obtain ⟨d, e, -⟩ := exec_keygen_of_settled hv legal (keyPrimes_of_redraw hp hq hq' hne)
  exact ⟨_, e, rfl, rfl, rfl, rfl⟩

/-- Settles O47: BADARG for illegal operands, no completion without the primes, and the keypair with them. -/
theorem keygenResultIsAKeypair : Obligations.KeygenResultIsAKeypair := by
  refine ⟨fun s t hv hbusy ht hidle => ?_, fun s hbad => ?_⟩
  · by_cases legal : s.keygenLegal
    · rcases hg : keyPrimes s.rsaBits.toNat s.rounds s.draws with _ | ⟨p, q, ds⟩
      · rw [exec_keygen_of_unsettled legal hg] at ht
        cases ht
        exact absurd (hbusy.symm.trans hidle) nofun
      · obtain ⟨d, e, -, hinv⟩ := exec_keygen_of_settled hv legal hg
        rw [e] at ht
        cases ht
        have ⟨heven, h16, _, _⟩ := legal
        obtain ⟨-, -, hnlo, hnhi⟩ := keyPrimes_bounds heven h16 hg
        obtain ⟨hphi, h4096⟩ := keyPrimes_phi_bounds hv legal hg
        have h1 := one_le_two.trans hphi
        obtain ⟨hne, -, -⟩ := keyPrimes_spec hg
        exact ⟨.inl rfl, fun _ => ⟨rfl, hne.symm, rfl, rfl, hnlo, hnhi, gcd_chooseE h1, chooseE_odd _, hinv,
          chooseE_range h1 h4096, isProbablePrime_of_keyPrimes hg⟩⟩
    · rw [exec_keygen_of_illegal legal] at ht
      cases ht
      exact ⟨.inr rfl, nofun⟩
  · refine exec_keygen_of_illegal fun ⟨heven, h16, hmax, hk⟩ => ?_
    rw [← State.rounds_eq_zero_iff] at hbad
    omega

end Sys2Proof.Machine
end

section
/-! SUPPORT. The RSA commands that compute on the operands as they stand (44 R302, R304, R305): Y is written whole where
the modulus fits its register. -/

namespace Sys2Proof.Machine

/-- A value within the registers' width is written whole (10 R37). -/
theorem State.setBig_of_lt (s : State) (r : BigReg) {v : Nat} (h : v < 2 ^ s.params.rsaMaxBits) :
    s.setBig r v = { s with big := s.big.set r v } := by
  rw [State.setBig, Nat.mod_eq_of_lt h]

/-- Settles O45, by what ModInv answers for each gcd. -/
theorem modinvInvertsE : Obligations.ModinvInvertsE := by
  refine ⟨decode_encode .modinv, fun s width => ?_⟩
  obtain ⟨small, e⟩ | ⟨h2, ⟨hinv, e⟩ | ⟨y, hinv, e⟩⟩ := execModinv_cases s
  · exact ⟨fun h => by omega, fun h => by omega, fun _ => e⟩
  · have hgcd := (modInv_eq_none_iff (by omega)).mp hinv
    exact ⟨fun _ h => absurd h hgcd, fun _ _ => e, fun h => by omega⟩
  · obtain ⟨hlt, hmul⟩ := modInv_spec h2 hinv
    rw [s.setBig_of_lt .y (hlt.trans width)] at e
    refine ⟨fun _ _ => ⟨y, e, hlt, hmul⟩, fun _ h => ?_, fun h => by omega⟩
    cases hinv.symm.trans ((modInv_eq_none_iff (by omega)).mpr h)

section
variable {s : State} (e : Nat)

theorem modexpTransform_of_range (h : s.getBig .n < 2 ∨ s.getBig .n ≤ s.getBig .x) :
    modexpTransform s e = s.raise .range := by
  obtain ⟨-, eq⟩ | ⟨_, _, -⟩ := modexpTransform_cases s e
  · exact eq
  · omega

theorem modexpTransform_of_below (width : s.getBig .n < 2 ^ s.params.rsaMaxBits) (h2 : 2 ≤ s.getBig .n)
    (hx : s.getBig .x < s.getBig .n) :
    modexpTransform s e =
      { s with big := { s.big with y := s.getBig .x ^ e % s.getBig .n }, err := .ok, phase := .idle,
               done := true } := by
  obtain ⟨bad, -⟩ | ⟨-, -, eq⟩ := modexpTransform_cases s e
  · omega
  · rw [eq, s.setBig_of_lt .y ((modExp_lt _ _ h2).trans width), modExp_eq_pow _ _ h2]
    rfl

end

/-- Settles O48: both commands are the one transform, by E and by D. -/
theorem modexpCommandsRaiseToThePower : Obligations.ModexpCommandsRaiseToThePower :=
  ⟨decode_encode .modexpPub, decode_encode .modexpPriv, fun _ width =>
    ⟨fun h2 hx => ⟨congrArg _ (modexpTransform_of_below _ width h2 hx),
        congrArg _ (modexpTransform_of_below _ width h2 hx)⟩,
      fun h => ⟨congrArg _ (modexpTransform_of_range _ h), congrArg _ (modexpTransform_of_range _ h)⟩⟩⟩

end Sys2Proof.Machine
end

section
/-! SUPPORT. WRAPKEY and UNWRAPKEY (44 R306, R307): the wrapped key as the message, the key bytes written to K, and the
round trip (R310). -/

namespace Sys2Proof.Machine

/-! The bytes of K after a write of all of it (10 R30). -/

theorem wordByte_wordOfBytes (bs : List Byte) (i : Nat) {r : Nat} (hr : r < 4) :
    wordByte (wordOfBytes bs i) r = bs.getD (4 * i + r) 0#8 := by
  interval_cases r <;> simp [wordOfBytes]

/-- A key written to K, then zero bytes (44 R307). -/
theorem State.flatMap_key_setKey (s : State) {k : List Byte} (h : k.length ≤ 32) :
    (s.setKey k).key.toList.flatMap wordBytes = k ++ List.replicate (32 - k.length) 0#8 := by
  apply List.ext_getElem
  · rw [length_flatMap_wordBytes, Vector.length_toList, List.length_append, List.length_replicate]
    omega
  intro i hi _
  rw [length_flatMap_wordBytes, Vector.length_toList] at hi
  have hword : (s.setKey k).key.toList.getD (i / 4) 0#32 = wordOfBytes k (i / 4) := by
    rw [List.getD_eq_getElem _ _ (by rw [Vector.length_toList]; omega), Vector.getElem_toList, State.setKey_key,
      Vector.getElem_ofFn]
  rw [← List.getD_eq_getElem _ 0#8, getD_flatMap_wordBytes, hword,
    wordByte_wordOfBytes _ _ (Nat.mod_lt _ (by decide)), Nat.div_add_mod, List.getElem_append]
  split
  · rename_i hk
    exact List.getD_eq_getElem _ _ hk
  · rename_i hk
    rw [List.getD_eq_default _ _ (not_lt.mp hk), List.getElem_replicate]

section
variable {s : State}

/-! WRAPKEY (44 R306). -/

theorem exec_wrapkey_of_keylen (h : ¬ (s.keyBytes.toNat = 16 ∨ s.keyBytes.toNat = 24 ∨ s.keyBytes.toNat = 32)) :
    exec .wrapkey s = .next (s.raise .keylen) := by
  obtain ⟨-, e⟩ | ⟨hk, -⟩ := execWrapkey_cases s
  · exact e
  · exact absurd hk h

theorem exec_wrapkey_of_range (hk : s.keyBytes.toNat = 16 ∨ s.keyBytes.toNat = 24 ∨ s.keyBytes.toNat = 32)
    (h : s.getBig .n < 2 ∨ s.getBig .n ≤ os2ip s.keyString) : exec .wrapkey s = .next (s.raise .range) := by
  obtain ⟨bad, -⟩ | ⟨-, ⟨-, e⟩ | ⟨_, _, -⟩⟩ := execWrapkey_cases s
  · exact absurd hk bad
  · exact e
  · omega

/-- A key below the modulus is wrapped: MinBytes(c) is the message, and Y is c. -/
theorem exec_wrapkey_of_below (inv : s.Inv)
    (hk : s.keyBytes.toNat = 16 ∨ s.keyBytes.toNat = 24 ∨ s.keyBytes.toNat = 32) (h2 : 2 ≤ s.getBig .n)
    (hm : os2ip s.keyString < s.getBig .n) {c : Nat} (hc : c = os2ip s.keyString ^ s.getBig .e % s.getBig .n) :
    ∃ t, exec .wrapkey s = .next t ∧
      t = { s with buf := t.buf, dataLen := t.dataLen, big := { s.big with y := c }, err := .ok, phase := .idle,
                   done := true } ∧
      t.dataLen.toNat = (minBytes c).length ∧ t.memRead 0 (minBytes c).length = minBytes c ∧
      ∀ a, (minBytes c).length ≤ a → t.readByte a = s.readByte a := by
  have width : c < 2 ^ s.params.rsaMaxBits := hc ▸ (Nat.mod_lt _ (by omega)).trans (inv.bigInRange .n)
  obtain ⟨bad, -⟩ | ⟨-, ⟨bad, -⟩ | ⟨-, -, c', hc', e⟩⟩ := execWrapkey_cases s
  · exact absurd hk bad
  · omega
  obtain rfl : c' = c := by rw [hc', hc, modExp_eq_pow _ _ h2]
  rw [((s.memWrite 0 (minBytes c')).setDataLen (minBytes c').length).setBig_of_lt .y width] at e
  exact ⟨_, e, rfl, State.toNat_setDataLen s inv.params (length_minBytes_le_bufBytes inv.params width),
    s.memRead_memWrite_same 0 _, fun a ha => (s.readByte_memWrite 0 _ a).trans (if_neg (by omega))⟩

/-- The first byte of a wrapped key is not zero: no shorter string has the integer (00 R9). -/
theorem State.readByte_zero_of_memRead_eq_minBytes {c : Nat} (h : s.memRead 0 (minBytes c).length = minBytes c)
    (hpos : 0 < (minBytes c).length) : s.readByte 0 ≠ 0#8 := by
  obtain ⟨b, bs, hb⟩ := List.exists_cons_of_length_pos hpos
  have hread : (s.memRead 0 (minBytes c).length).getD 0 0#8 = s.readByte 0 := by
    rw [List.getD_eq_getElem _ _ (by rwa [State.length_memRead]), State.getElem_memRead]
  rw [← hread, h, hb]
  exact head_minBytes_ne_zero hb

/-! UNWRAPKEY (44 R307). -/

theorem exec_unwrapkey_of_keylen (h : ¬ (s.keyBytes.toNat = 16 ∨ s.keyBytes.toNat = 24 ∨ s.keyBytes.toNat = 32)) :
    exec .unwrapkey s = .next (s.raise .keylen) := by
  obtain ⟨-, e⟩ | ⟨hk, -⟩ := execUnwrapkey_cases s
  · exact e
  · exact absurd hk h

theorem exec_unwrapkey_of_length (hk : s.keyBytes.toNat = 16 ∨ s.keyBytes.toNat = 24 ∨ s.keyBytes.toNat = 32)
    (h : s.params.bufBytes < s.dataLen.toNat) : exec .unwrapkey s = .next (s.raise .length) := by
  obtain ⟨bad, -⟩ | ⟨-, ⟨-, e⟩ | ⟨fits, -⟩⟩ := execUnwrapkey_cases s
  · exact absurd hk bad
  · exact e
  · omega

theorem exec_unwrapkey_of_range (hk : s.keyBytes.toNat = 16 ∨ s.keyBytes.toNat = 24 ∨ s.keyBytes.toNat = 32)
    (fits : s.dataLen.toNat ≤ s.params.bufBytes)
    (h : s.getBig .n < 2 ∨ s.getBig .n ≤ os2ip (s.memRead 0 s.dataLen.toNat)) :
    exec .unwrapkey s = .next (s.raise .range) := by
  obtain ⟨bad, -⟩ | ⟨-, ⟨bad, -⟩ | ⟨-, c, rfl, ⟨-, e⟩ | ⟨_, _, -⟩⟩⟩ := execUnwrapkey_cases s
  · exact absurd hk bad
  · omega
  · exact e
  · omega

/-- A message below the modulus is unwrapped: K holds the low-order KEY_BYTES bytes of m, then zeros, and Y is m. -/
theorem exec_unwrapkey_of_below (width : s.getBig .n < 2 ^ s.params.rsaMaxBits)
    (hk : s.keyBytes.toNat = 16 ∨ s.keyBytes.toNat = 24 ∨ s.keyBytes.toNat = 32)
    (fits : s.dataLen.toNat ≤ s.params.bufBytes) (h2 : 2 ≤ s.getBig .n)
    (hlt : os2ip (s.memRead 0 s.dataLen.toNat) < s.getBig .n) {m : Nat}
    (hm : m = os2ip (s.memRead 0 s.dataLen.toNat) ^ s.getBig .d % s.getBig .n) :
    ∃ t, exec .unwrapkey s = .next t ∧
      t = { s with key := t.key, big := { s.big with y := m }, ksValid := false, err := .ok, phase := .idle,
                   done := true } ∧
      t.key.toList.flatMap wordBytes =
        keyFromInt m s.keyBytes.toNat ++ List.replicate (32 - s.keyBytes.toNat) 0#8 := by
  have hmw : m < 2 ^ s.params.rsaMaxBits := hm ▸ (Nat.mod_lt _ (by omega)).trans width
  obtain ⟨bad, -⟩ | ⟨-, ⟨bad, -⟩ | ⟨-, c, rfl, ⟨bad, -⟩ | ⟨-, -, m', hm', e⟩⟩⟩ := execUnwrapkey_cases s
  · exact absurd hk bad
  · omega
  · omega
  obtain rfl : m' = m := by rw [hm', hm, modExp_eq_pow _ _ h2]
  have hbytes := s.flatMap_key_setKey (k := keyFromInt m' s.keyBytes.toNat) (by rw [length_keyFromInt]; omega)
  rw [length_keyFromInt] at hbytes
  rw [(s.setKey (keyFromInt m' s.keyBytes.toNat)).setBig_of_lt .y hmw] at e
  exact ⟨_, e, rfl, hbytes⟩

/-- KEYBYTES, where K holds the bytes of an integer (43 R252). -/
theorem State.keyString_of_keyFromInt {m : Nat} {zs : List Byte}
    (h : s.key.toList.flatMap wordBytes = keyFromInt m s.keyBytes.toNat ++ zs) :
    s.keyString = keyFromInt m s.keyBytes.toNat := by
  rw [State.keyString, h]
  exact List.take_left' (length_keyFromInt m _)

/-- UNWRAPKEY restores a key that its message is the encryption of: a key is its length and its integer. -/
theorem exec_unwrapkey_restores (width : s.getBig .n < 2 ^ s.params.rsaMaxBits)
    (hk : s.keyBytes.toNat = 16 ∨ s.keyBytes.toNat = 24 ∨ s.keyBytes.toNat = 32)
    (fits : s.dataLen.toNat ≤ s.params.bufBytes) (h2 : 2 ≤ s.getBig .n)
    (hlt : os2ip (s.memRead 0 s.dataLen.toNat) < s.getBig .n) {k : List Byte} (hlen : k.length = s.keyBytes.toNat)
    (hm : os2ip k = os2ip (s.memRead 0 s.dataLen.toNat) ^ s.getBig .d % s.getBig .n) :
    ∃ u, exec .unwrapkey s = .next u ∧ u.err = .ok ∧ u.keyString = k := by
  obtain ⟨u, hu, heq, hbytes⟩ := exec_unwrapkey_of_below width hk fits h2 hlt hm
  have hkb : u.keyBytes = s.keyBytes := by rw [heq]
  refine ⟨u, hu, by rw [heq], ?_⟩
  rw [State.keyString_of_keyFromInt (hkb ▸ hbytes), hkb]
  apply os2ip_inj
  · rw [length_keyFromInt, hlen]
  · rw [os2ip_keyFromInt, Nat.mod_eq_of_lt (hlen ▸ os2ip_lt k)]

end

/-- Settles O49, by MinBytes(c) as the message. -/
theorem wrapkeyEnciphersTheKey : Obligations.WrapkeyEnciphersTheKey := by
  refine ⟨decode_encode .wrapkey, ?_⟩
  rintro s _ c _ inv rfl hc rfl
  refine ⟨fun hk => ⟨fun h2 hm => ?_, exec_wrapkey_of_range hk⟩,
    fun h16 h24 h32 => exec_wrapkey_of_keylen (by omega)⟩
  obtain ⟨t, ht, heq, hlen, hmsg, hkeep⟩ := exec_wrapkey_of_below inv hk h2 hm hc
  rw [← length_minBytes]
  exact ⟨t, ht, heq, hlen, by rw [hmsg, os2ip_minBytes], State.readByte_zero_of_memRead_eq_minBytes hmsg, hkeep⟩

/-- Settles O50, by the bytes of K after KeyFromInt(m, KEY_BYTES) is written to it. -/
theorem unwrapkeyRecoversTheKey : Obligations.UnwrapkeyRecoversTheKey := by
  refine ⟨decode_encode .unwrapkey, ?_⟩
  rintro s _ _ m width rfl rfl hm
  refine ⟨fun hk => ⟨exec_unwrapkey_of_length hk, exec_unwrapkey_of_range hk, fun fits h2 hlt => ?_⟩,
    fun h16 h24 h32 => exec_unwrapkey_of_keylen (by omega)⟩
  obtain ⟨t, ht, heq, hbytes⟩ := exec_unwrapkey_of_below width hk fits h2 hlt hm
  have hkb : t.keyBytes = s.keyBytes := by rw [heq]
  refine ⟨t, ht, heq, ?_, ?_⟩
  · rw [State.keyString_of_keyFromInt (hkb ▸ hbytes), os2ip_keyFromInt, hkb]
  · rw [hbytes]
    exact List.drop_left' (length_keyFromInt m _)

/-- Settles O52: the message WRAPKEY leaves is the key's encryption, and D undoes E (43 R262). -/
theorem unwrapkeyUndoesWrapkey : Obligations.UnwrapkeyUndoesWrapkey := by
  intro s p q inv hp hq hpq hn hed hk hm
  have h2 : 2 ≤ s.getBig .n := hn ▸ hp.two_le.trans (Nat.le_mul_of_pos_right p hq.pos)
  have hcn : os2ip s.keyString ^ s.getBig .e % s.getBig .n < s.getBig .n := Nat.mod_lt _ (by omega)
  obtain ⟨t, ht, heq, hlen, hmsg, -⟩ := exec_wrapkey_of_below inv hk h2 hm rfl
  have hread : os2ip (t.memRead 0 t.dataLen.toNat) = os2ip s.keyString ^ s.getBig .e % s.getBig .n := by
    rw [hlen, hmsg, os2ip_minBytes]
  have hfits := hlen.trans_le (length_minBytes_le_bufBytes inv.params (hcn.trans (inv.bigInRange .n)))
  have hundo : os2ip s.keyString = (os2ip s.keyString ^ s.getBig .e % s.getBig .n) ^ s.getBig .d % s.getBig .n := by
    have h := rsaTransformsUndoEachOther p q _ _ _ hp hq hpq hed (hn ▸ hm)
    rw [← hn, modExp_eq_pow _ _ h2, modExp_eq_pow _ _ h2] at h
    exact h.symm
  have hparams : t.params = s.params := by rw [heq]
  have hkb : t.keyBytes = s.keyBytes := by rw [heq]
  have htn : t.getBig .n = s.getBig .n := by rw [heq]; rfl
  have htd : t.getBig .d = s.getBig .d := by rw [heq]; rfl
  have width : t.getBig .n < 2 ^ t.params.rsaMaxBits := by simpa only [htn, hparams] using inv.bigInRange .n
  have hlenKey : s.keyString.length = t.keyBytes.toNat := by rw [s.length_keyString (by omega), hkb]
  rw [← hread, ← htn, ← htd] at hundo
  rw [← hread, ← htn] at hcn
  rw [← hparams] at hfits
  rw [← hkb] at hk
  rw [← htn] at h2
  obtain ⟨u, hu, herr, hkey⟩ :=
    exec_unwrapkey_restores (s := t.accept (encode .unwrapkey)) width hk hfits h2 hcn hlenKey hundo
  exact ⟨t, u, ht, by rw [heq], hu, herr, hkey⟩

end Sys2Proof.Machine
end

section
/-! SUPPORT. The interrupt output (60 R360): where it is high, and that a completion, of a command or of BADCMD, sets DONE
and keeps IRQ_EN. -/

namespace Sys2Proof.Machine

theorem State.irq_eq_irqEn_of_done {s : State} (h : s.done = true) : s.irq = s.irqEn := by
  rw [State.irq, h, Bool.and_true]

theorem State.irq_eq_false_of_done {s : State} (h : s.done = false) : s.irq = false := by
  rw [State.irq, h, Bool.and_false]

/-- A result that leaves BUSY is a completion: waiting for draws keeps the phase. -/
theorem ExecResult.done_of_idle {i : Instr} {s t : State} (h : ExecResult s i t) (busy : s.phase ≠ .idle)
    (idle : t.phase = .idle) : t.done = true := by
  cases h with
  | waiting => exact absurd idle busy
  | _ => rfl

/-- When the engine goes from BUSY to IDLE, DONE is set and IRQ_EN stays (40 R134, R135). -/
theorem engineTurn_completes {s t : State} (h : engineTurn s = .next t) (busy : s.phase ≠ .idle)
    (idle : t.phase = .idle) : t.done = true ∧ t.irqEn = s.irqEn := by
  obtain ⟨hp, -⟩ | ⟨-, e⟩ | ⟨i, -, e⟩ := engineTurn_cases s
  · exact absurd hp busy
  · rw [e] at h
    cases h
    exact ⟨rfl, rfl⟩
  · have hr : ExecResult s i t := exec_result (e ▸ h)
    exact ⟨hr.done_of_idle busy idle, congrArg ControlState.irqEn hr.control_eq⟩

/-- In every phase CTRL takes a host write (10 R24, 40 R137). -/
theorem State.store_ctrl (s : State) (w : Word) : s.store .ctrl w = s.setCtrl w := ite_self _

/-- In every phase a host write to STATUS clears flags (10 R26, 40 R137). -/
theorem State.store_status (s : State) (w : Word) : s.store .status w = s.clearFlags w := ite_self _

/-- Settles O17, by the DONE and the IRQ_EN each event leaves. -/
theorem irqFollowsDoneAndItsEnable : Obligations.IrqFollowsDoneAndItsEnable := by
  refine ⟨fun _ => rfl, fun s t h busy idle => ?_, fun s w => ?_, fun s w hw => ?_, fun s w => ?_, fun s => ?_⟩
  · obtain ⟨hdone, hen⟩ := engineTurn_completes h busy idle
    rw [State.irq_eq_irqEn_of_done hdone, hen]
  · rw [s.store_ctrl]
    rfl
  · have hdone : (s.clearFlags w).done = false := by simp [hw]
    rw [s.store_status, State.irq_eq_false_of_done hdone]
  · exact State.irq_eq_false_of_done (s.accept_done w)
  · exact State.irq_eq_false_of_done rfl

end Sys2Proof.Machine
end

section
/-! SUPPORT. The errors a command reports (60 R350, R351): those of its row, by the list of results `ExecResult`. -/

namespace Sys2Proof.Machine

/-- No row names BADCMD. -/
theorem errBits_le_six_of_mem_errorsOf {i : Instr} {e : ErrCode} (h : e ∈ errorsOf i) : (errBits e).toNat ≤ 6 := by
  cases e with
  | badcmd => cases i <;> exact absurd h (by decide)
  | _ => decide

/-- A completed command reports success or an error of its row; KEYGEN's NOINV cannot happen (43 R261). -/
theorem ExecResult.err_mem {i : Instr} {s t : State} (h : ExecResult s i t) (busy : s.phase ≠ .idle)
    (idle : t.phase = .idle) : t.err = .ok ∨ t.err ∈ errorsOf i := by
  cases h with
  | waiting => exact absurd idle busy
  | keygenNoinv _ _ _ _ drawn noPair => exact absurd noPair (keyPairOf_ne_none_of_keyPrimes drawn)
  | keyexpError | decryptPadding => exact .inr (by simp [errorsOf])
  | aesKeylen _ mem =>
    exact .inr ((by decide : ∀ j ∈ [Instr.encBlock, .decBlock, .ecbEnc, .ecbDec, .encrypt, .decrypt],
      ErrCode.keylen ∈ errorsOf j) i mem)
  | messageLength _ mem =>
    exact .inr ((by decide : ∀ j ∈ [Instr.ecbEnc, .ecbDec, .encrypt, .decrypt], ErrCode.length ∈ errorsOf j) i mem)
  | plainError _ e mem => exact .inr ((by decide : ∀ ie ∈ _, Prod.snd ie ∈ errorsOf (Prod.fst ie)) (i, e) mem)
  | _ => exact .inl rfl

/-- Settles O56, by the errors of the list of results `ExecResult`. -/
theorem commandsReportOnlyTheirErrors : Obligations.CommandsReportOnlyTheirErrors := by
  refine ⟨fun i s t h busy idle => ?_, fun e => by cases e <;> decide⟩
  have herr : t.err = .ok ∨ t.err ∈ errorsOf i := (exec_result h).err_mem (by rw [busy]; nofun) idle
  refine ⟨herr, ?_⟩
  obtain hok | hmem := herr
  · rw [hok]
    decide
  · exact errBits_le_six_of_mem_errorsOf hmem

end Sys2Proof.Machine
end

section
/-! SUPPORT. Turns (40 R132, R133; log entries 7, 8, 10): whose turn a step is, and what the engine's turn runs. -/

namespace Sys2Proof.Machine

section
variable {s : State}

theorem engineTurn_of_idle (h : s.phase = .idle) : engineTurn s = .next s := by
  simp only [engineTurn, h]

theorem engineTurn_of_instr {i : Instr} (h : s.phase = .busy (.instr i)) : engineTurn s = exec i s := by
  simp only [engineTurn, h]

/-- With no turn left, or an engine turn next, the engine acts (log entry 7). -/
theorem step_of_engineNext {u : State} {ts : List Turn}
    (h : s.turns = [] ∧ u = s ∨ s.turns = .engine :: ts ∧ u = { s with turns := ts }) : step s = engineTurn u := by
  obtain ⟨ht, rfl⟩ | ⟨ht, rfl⟩ := h <;> simp only [step, takeTurn, ht]
  rfl

theorem step_of_hostNext {a : Access} {ts : List Turn} (h : s.turns = .host a :: ts) :
    step s = .next ((s.setTurns ts).hostAccess a) := by
  simp only [step, takeTurn, h]

theorem step_of_rstNext {ts : List Turn} (h : s.turns = .rst :: ts) : step s = .next (s.setTurns ts).assertRst := by
  simp only [step, takeTurn, h]

/-- An access outside the block's 64 KiB is not answered (log entry 8). -/
theorem State.hostAccess_of_outside {a : Access} (h : decodeAddr s.params a.addr = none) :
    s.hostAccess a = s.respond none := by
  simp only [State.hostAccess, h]

end

theorem decodeCommand_of_ok {w : Word} {i : Instr} (h : decode w = .ok i) : decodeCommand w = .instr i := by
  simp only [decodeCommand, h]

theorem decodeCommand_of_not_ok {w : Word} (h : ∀ i, decode w ≠ .ok i) : decodeCommand w = .badCmd := by
  rw [decodeCommand_eq_badCmd_iff_error]
  cases hd : decode w with
  | ok i => exact absurd hd (h i)
  | error e => exact ⟨e, rfl⟩

/-- `engineFirst` makes the next turn the engine's, and adds none where no turn is left (log entry 10). -/
theorem engineFirst_cases (ts : List Turn) :
    (ts = [] ∧ engineFirst ts = []) ∨ ∃ rest, ts ≠ [] ∧ engineFirst ts = .engine :: rest := by
  rcases ts with _ | ⟨_ | _ | _, ts⟩
  · exact .inl ⟨rfl, rfl⟩
  all_goals exact .inr ⟨_, nofun, rfl⟩

/-- The step after a word is placed is the engine's turn on the state that accepted it (40 R131; log entry 10). -/
theorem step_placeCommand (s : State) (w : Word) :
    ∃ ts, (s.turns = [] → ts = []) ∧ step (placeCommand s w) = engineTurn ((s.accept w).setTurns ts) := by
  obtain ⟨-, hf⟩ | ⟨rest, hne, hf⟩ := engineFirst_cases s.turns <;> rw [placeCommand, hf]
  · exact ⟨[], fun _ => rfl, step_of_engineNext (ts := []) (.inl ⟨rfl, rfl⟩)⟩
  · exact ⟨rest, fun h => absurd h hne, step_of_engineNext (.inr ⟨rfl, rfl⟩)⟩

/-- Settles O4, turn by turn; a placed word's turn is the engine's, on the phase its acceptance sets. -/
theorem stepRunsTheDecodedCommand : Obligations.StepRunsTheDecodedCommand := by
  refine ⟨fun s u ts hu => ?_, fun s a ts ht => ?_, fun s ts ht => step_of_rstNext ht, fun s nbits w v hv => ?_⟩
  · have hp : u.phase = s.phase := by obtain ⟨-, rfl⟩ | ⟨-, rfl⟩ := hu <;> rfl
    rw [step_of_engineNext hu, ← hp]
    exact ⟨fun _ => engineTurn_of_instr, engineTurn_of_badCmd, engineTurn_of_idle⟩
  · rw [step_of_hostNext ht]
    exact ⟨rfl, fun ha => congrArg Host.Outcome.next (State.hostAccess_of_outside (s := s.setTurns ts) ha)⟩
  · subst hv
    obtain ⟨ts, hts, e⟩ := step_placeCommand s (BitVec.ofNat 32 (w % 2 ^ nbits))
    refine ⟨ts, hts, fun i hi => ?_, fun hi => ?_⟩ <;> rw [State.withFetchWord, e]
    · have hc := decodeCommand_of_ok hi
      rw [engineTurn_of_instr (i := i) (congrArg Phase.busy hc), State.accept, hc, opcode_of_decodeCommand hc]
      rfl
    · rw [engineTurn_of_badCmd (congrArg Phase.busy (decodeCommand_of_not_ok hi))]
      rfl

end Sys2Proof.Machine
end

section
/-! SUPPORT. The state right after reset (70 R402): what CTRL, STATUS, a zero block and the big-number registers
read. -/

namespace Sys2Proof.Machine

theorem blockCol_zero (c : Nat) : blockCol ⟨0#32, 0#32, 0#32, 0#32⟩ c = 0#32 := by
  unfold blockCol
  split <;> rfl

theorem bigWord_zero (i : Nat) : bigWord 0 i = 0#32 := by rw [bigWord, Nat.zero_div]

theorem State.ctrlWord_resetWith (p : Params) : (State.resetWith p).ctrlWord = 0#32 := by
  simp [State.ctrlWord, State.resetWith]

theorem State.statusWord_resetWith (p : Params) : (State.resetWith p).statusWord = 0#32 := by
  simp [State.statusWord, State.isBusy, errBits, State.resetWith]

theorem State.getBig_resetWith (p : Params) (r : BigReg) : (State.resetWith p).getBig r = 0 := by cases r <;> rfl

theorem State.locWord_big_resetWith (p : Params) (r : BigReg) (i : Fin 128) :
    (State.resetWith p).locWord (.big r i) = 0#32 := by
  rw [State.locWord, State.getBig_resetWith, bigWord_zero, ite_self]

/-- Settles O18, register by register; the key, block, schedule and big-number registers are zero word by word. -/
theorem resetValuesAreR402s : Obligations.ResetValuesAreR402s := fun p _ =>
  ⟨rfl, rfl, State.ctrlWord_resetWith p, rfl, State.statusWord_resetWith p, rfl, rfl, rfl, rfl, rfl,
    fun i => Vector.getElem_replicate i.isLt, fun i => blockCol_zero i.val, fun i => blockCol_zero i.val,
    fun i => Vector.getElem_replicate i.isLt, State.locWord_big_resetWith p, rfl, State.irq_eq_false_of_done rfl⟩

/-- Settles O58: the reset state of legal parameters meets the invariant, and those of `State.reset` are legal. -/
theorem resetMeetsTheInvariant : Obligations.ResetMeetsTheInvariant :=
  ⟨State.inv_resetWith (by decide : Config.params.valid = true), fun _ hp => State.inv_resetWith hp⟩

end Sys2Proof.Machine
end

section
/-! SUPPORT. Draws that do not settle a prime search (40 R140; log entries 3 and 4): what a draw stands for, and where
GenPrime and the primes of a keypair have no answer. -/

namespace Sys2Proof.Machine

theorem drawRange_eq_self {lo hi v : Nat} (hlo : lo ≤ v) (hhi : v ≤ hi) : drawRange lo hi v = v := by
  rw [drawRange, Nat.mod_eq_of_lt (by omega), Nat.add_sub_cancel' hlo]

/-- Settles O42: a remainder is below its modulus, and a number below the modulus is its own remainder. -/
theorem drawsCoverTheirRanges : Obligations.DrawsCoverTheirRanges :=
  ⟨fun _ _ v h => drawRange_bounds h v, fun _ _ _ => drawRange_eq_self,
    fun h _ => Nat.mod_lt _ (Nat.two_pow_pos h), fun _ _ => Nat.mod_eq_of_lt⟩

section
variable {h b k v : Nat} {ds rest : List Nat}

theorem genPrime_of_untested (hc : isProbablePrime (candidate h v) k ds = none) : genPrime h k (v :: ds) = none := by
  rw [genPrime_cons, hc]

theorem genPrime_of_failed (hc : isProbablePrime (candidate h v) k ds = some (false, rest)) :
    genPrime h k (v :: ds) = genPrime h k rest := by
  rw [genPrime_cons, hc]

theorem keyPrimes_of_no_first (hp : genPrime (b / 2) k ds = none) : keyPrimes b k ds = none := by
  simp only [keyPrimes, hp]

theorem keyPrimes_of_no_second {p : Nat} (hp : genPrime (b / 2) k ds = some (p, rest))
    (hq : genPrime (b / 2) k rest = none) : keyPrimes b k ds = none := by
  simp only [keyPrimes, hp, genOther, hq]

end

/-- A supply of one draw or more adds draws behind those listed and changes nothing else but the counter of free
values. -/
theorem State.supplyDraws_succ_eq (s : State) (n : Nat) :
    ∃ more, s.supplyDraws (n + 1) =
      { s with draws := s.draws ++ more, fresh := (s.supplyDraws (n + 1)).fresh } ∧ more ≠ [] :=
  ⟨_, rfl, by simp⟩

/-- Settles O9: an unsettled GENPRIME or KEYGEN is a supply of draws; the rest is by the draws GenPrime takes. -/
theorem primeSearchWaitsForDraws : Obligations.PrimeSearchWaitsForDraws := by
  refine ⟨fun s hk => ⟨fun h2 hmax hg => ?_, fun heven h16 hmax hg => ?_⟩, genPrime_nil, ?_, fun b k ds => ?_⟩
  · have legal : s.genprimeLegal := ⟨h2, hmax, s.rounds_eq_zero_iff.not.mpr hk⟩
    obtain ⟨more, heq, hne⟩ := s.supplyDraws_succ_eq s.rounds
    exact ⟨_, more, exec_genprime_of_unsettled legal hg, heq, hne⟩
  · have legal : s.keygenLegal := ⟨heven, h16, hmax, s.rounds_eq_zero_iff.not.mpr hk⟩
    obtain ⟨more, heq, hne⟩ := s.supplyDraws_succ_eq s.rounds
    exact ⟨_, more, exec_keygen_of_unsettled legal hg, heq, hne⟩
  · rintro h k _ v ds rfl
    exact ⟨genPrime_of_untested, fun _ => genPrime_of_failed⟩
  · exact ⟨keyPrimes_of_no_first, fun _ _ => keyPrimes_of_no_second⟩

end Sys2Proof.Machine
end

section
/-! SUPPORT. What clears KS_VALID (10 R41): of a host access a key write while IDLE, of a command UNWRAPKEY's completion
and KEYEXP's error; and what RST leaves (70 R400). -/

namespace Sys2Proof.Machine

/-- Settles O19, by the reset state RST leaves. -/
theorem rstResetsEverything : Obligations.RstResetsEverything := fun _ _ ht => ⟨_, step_of_rstNext ht, rfl⟩

section
variable {s : State}

/-- NR reads 0 while KS_VALID = 0 (10 R29). -/
theorem State.locWord_nr_of_not_valid (h : s.ksValid = false) : s.locWord .nr = 0#32 := by
  rw [State.locWord, State.nrWord, h]
  rfl

/-! The host's accesses. -/

theorem State.ksValid_storeIdle_of_not_key {l : Loc} (h : ¬ (l = .keyBytes ∨ ∃ i, l = .key i)) (w : Word) :
    (s.storeIdle l w).ksValid = s.ksValid := by
  cases l with
  | keyBytes => exact absurd (.inl rfl) h
  | key i => exact absurd (.inr ⟨i, rfl⟩) h
  | big | buf => simp only [State.storeIdle]; split <;> rfl
  | _ => rfl

theorem State.ksValid_storeBusy (l : Loc) (w : Word) : (s.storeBusy l w).ksValid = s.ksValid := by
  obtain ⟨-, e⟩ | ⟨-, e⟩ | ⟨-, e⟩ | ⟨-, -, -, e⟩ := s.storeBusy_cases l w <;> rw [e] <;> rfl

theorem State.ksValid_load (l : Loc) : (s.load l).ksValid = s.ksValid := by
  obtain ⟨data, e⟩ := s.load_eq l
  rw [e]

/-- Of all writes one of the key while IDLE alone changes KS_VALID. -/
theorem State.key_of_ksValid_store_ne {l : Loc} {w : Word} (h : (s.store l w).ksValid ≠ s.ksValid) :
    s.phase = .idle ∧ (l = .keyBytes ∨ ∃ i, l = .key i) := by
  cases hp : s.phase with
  | idle =>
    rw [s.store_of_idle hp] at h
    exact ⟨rfl, by_contra fun hk => h (State.ksValid_storeIdle_of_not_key hk w)⟩
  | busy op =>
    rw [s.store_of_busy hp] at h
    exact absurd (State.ksValid_storeBusy l w) h

/-- Of all accesses a served write of the key while IDLE alone changes KS_VALID. -/
theorem State.keyWrite_of_ksValid_hostAccess_ne {a : Access} (h : (s.hostAccess a).ksValid ≠ s.ksValid) :
    s.phase = .idle ∧ ∃ off w, decodeAddr s.params a.addr = some off ∧ accessWellFormed off a.lanes = true ∧
      a.dir = .write w ∧ (locate off = .keyBytes ∨ ∃ i, locate off = .key i) := by
  obtain ⟨-, e⟩ | ⟨off, hd, ⟨-, e⟩ | ⟨-, -, e⟩ | ⟨hw, w, hdir, e⟩⟩ := s.hostAccess_cases a <;> rw [e] at h
  · exact absurd rfl h
  · exact absurd rfl h
  · exact absurd (State.ksValid_load _) h
  · obtain ⟨idle, hkey⟩ := State.key_of_ksValid_store_ne h
    exact ⟨idle, off, w, hd, hw, hdir, hkey⟩

/-! The engine. -/

variable {i : Instr} {t : State}

/-- EnsureSchedule expands no key while KS_VALID = 1, so of the expansions KEYEXP's alone can clear it. -/
theorem ExecResult.cause_of_ksValid_cleared (h : ExecResult s i t) (valid : s.ksValid = true)
    (cleared : t.ksValid = false) : (i = .unwrapkey ∧ t.err = .ok) ∨ (i = .keyexp ∧ t.err = .keylen) := by
  cases h with
  | unwrapkey => exact .inl ⟨rfl, rfl⟩
  | keyexpError => exact .inr ⟨rfl, rfl⟩
  | aesKeylen _ _ invalid => cases valid.symm.trans invalid
  | _ => simp [valid] at cleared

theorem ExecResult.ksValid_of_unwrapkey (h : ExecResult s .unwrapkey t) (ok : t.err = .ok) : t.ksValid = false := by
  cases h with
  | unwrapkey => rfl
  | plainError _ e mem =>
    obtain rfl : e = .ok := ok
    exact absurd mem (by decide)
  | aesKeylen _ mem | block _ _ mem | messageLength _ mem | ecb _ _ _ mem | waiting _ _ mem | toY _ _ mem =>
    exact absurd mem (by decide)

/-- A command that may expand the key reports KEYLEN where the expansion failed, and nowhere else. -/
theorem ExecResult.ksValid_of_keylen (h : ExecResult s i t) (hi : i ∈ scheduleWriters) (keylen : t.err = .keylen) :
    t.ksValid = false := by
  cases h with
  | keyexpError | aesKeylen => rfl
  | waiting _ _ mem => exact absurd hi ((by decide : ∀ j ∈ [Instr.genprime, .keygen], j ∉ scheduleWriters) i mem)
  | plainError _ e mem => exact absurd hi ((by decide : ∀ ie ∈ _, Prod.fst ie ∉ scheduleWriters) (i, e) mem)
  | _ => cases keylen

theorem engineTurn_cause_of_ksValid_cleared (h : engineTurn s = .next t) (valid : s.ksValid = true)
    (cleared : t.ksValid = false) :
    (s.phase = .busy (.instr .unwrapkey) ∧ t.err = .ok) ∨ (s.phase = .busy (.instr .keyexp) ∧ t.err = .keylen) := by
  obtain ⟨-, e⟩ | ⟨-, e⟩ | ⟨i, hp, e⟩ := engineTurn_cases s <;> rw [e] at h
  · cases h
    cases valid.symm.trans cleared
  · cases h
    cases valid.symm.trans cleared
  · obtain ⟨rfl, herr⟩ | ⟨rfl, herr⟩ := (exec_result h).cause_of_ksValid_cleared valid cleared
    · exact .inl ⟨hp, herr⟩
    · exact .inr ⟨hp, herr⟩

end

/-- Settles O57: each cause clears KS_VALID, and a turn that clears it is one of the causes: a host access by its write,
the engine's by the list of results `ExecResult`. -/
theorem onlyFourThingsClearKsValid : Obligations.OnlyFourThingsClearKsValid := by
  refine ⟨fun s off w ts idle hacc hkey => ?_, fun s t h ok => ?_, fun i s t hi h keylen => ?_, fun s ts ht => ?_,
    fun s t h valid cleared => ?_⟩
  · obtain ⟨ksValid, -, nr⟩ := State.storeIdle_of_key (s.setTurns ts) w hkey
    exact ⟨_, step_of_nextWrite_idle idle hacc, ksValid, by rw [State.locWord_respond, nr]⟩
  · have hv : t.ksValid = false := (exec_result h).ksValid_of_unwrapkey ok
    exact ⟨hv, State.locWord_nr_of_not_valid hv⟩
  · have hv : t.ksValid = false := (exec_result h).ksValid_of_keylen hi keylen
    exact ⟨hv, State.locWord_nr_of_not_valid hv⟩
  · exact ⟨_, step_of_rstNext ht, rfl, rfl⟩
  · obtain ⟨ts, -, e⟩ | ⟨⟨addr, dir, lanes⟩, ts, hturns, e⟩ | ⟨ts, hturns, -⟩ := step_cases s
    · rw [e] at h
      exact .inr ((engineTurn_cause_of_ksValid_cleared h valid cleared).imp_right .inl)
    · rw [e] at h
      cases h
      have hne : ((s.setTurns ts).hostAccess ⟨addr, dir, lanes⟩).ksValid ≠ (s.setTurns ts).ksValid := by
        rw [cleared, State.setTurns_ksValid, valid]
        nofun
      obtain ⟨idle, off, w, hd, hw, rfl, hkey⟩ := State.keyWrite_of_ksValid_hostAccess_ne hne
      obtain ⟨aligned, rfl⟩ := accessWellFormed_iff.mp hw
      exact .inl ⟨off, w, ts, idle, ⟨addr, hturns, hd, aligned⟩, hkey⟩
    · exact .inr (.inr (.inr ⟨ts, hturns⟩))

end Sys2Proof.Machine
end
